-- ==== Sys2Proof/Word.lean ====
section
/-! DEFINITION. The word types of the unit (00_scope.md R7, R9): registers of 64 bits, narrow operand
registers and command words of 32 bits, bytes of sample memory. The primitives `add_N`, `sub_N`, `and_N`,
`xor_N`, `shl_N` and `lshr_N` of R9 are the operations `+`, `-`, `&&&`, `^^^`, `<<<` and `>>>` of `BitVec N`,
and `wrap_N` is `BitVec.ofInt N`. -/

namespace Sys2Proof

/-- A 64-bit register value (R6: XLEN = 64). -/
abbrev Word := BitVec 64

/-- A 32-bit value: a command word, or a narrow operand register (R26, R90). -/
abbrev Half := BitVec 32

/-- One byte of sample memory (R41). -/
abbrev Byte := BitVec 8

end Sys2Proof
end

