-- ==== Sys2Proof/Config.lean ====
section
/-! DEFINITION. What an implementation fixes and what the spec leaves free. Constants with a body carry the
value the spec gives; opaque constants have no body: nothing can evaluate them, so whatever is proved holds for
every value. -/

namespace Sys2Proof

/-- 42_block_energy.md R161, R6: the 4x4 estimator runs the second row butterfly stage. The spec fixes true for
this unit (90_conflicts.md C3, D20). -/
def Config.satd4RowStage2 : Bool := true

/-- 44_bias_and_entry.md R220, table index 0: the binary64 nearest to 0.4. -/
def Config.biasIntra : Word := 0x3FD999999999999A#64

/-- R220, index 1: 0.75. -/
def Config.biasLayer0 : Word := 0x3FE8000000000000#64

/-- R220, index 2: the binary64 nearest to 0.9. -/
def Config.biasLayer1 : Word := 0x3FECCCCCCCCCCCCD#64

/-- R220, index 3: the binary64 nearest to 0.95. -/
def Config.biasLayer2 : Word := 0x3FEE666666666666#64

/-- R217, D26: the one NaN pattern a multiplication answers. -/
def Config.canonicalNaN : Word := 0x7FF8000000000000#64

/-- What an address of sample memory that no entry lists reads as: nothing, so the port answers `ERR`
(20_memory.md R61; 95_test_vectors.md Part 3: "every address not listed is unreadable").
DESIGN CHOICE, safe: assumption log 1. -/
def Config.unlistedByte : Option Byte := none

/-- FREE VALUE: what a host read of a register other than STATUS returns while the unit is BUSY
(10_state.md R37, U6). Applied to the counter `State.fresh`. Assumption log 3. -/
opaque Config.freeWord : Nat → Word

/-- FREE VALUE: which of several unreadable samples a `MemError` reports (60_exceptions.md R266, U4); taken
modulo how many there are. Applied to the counter `State.fresh`. Assumption log 4. -/
opaque Config.freeIndex : Nat → Nat

/-- FREE VALUE: when sample memory changed while a command ran, the moment at which the command's read of one
sample (view B?, row, column) took place (20_memory.md R71, U5); taken modulo how many moments there were.
Assumption log 5. -/
opaque Config.freeMoment : Nat → Bool → Nat → Nat → Nat

/-- FREE VALUE: the answers of a SAD collaborator of which nothing is assumed but that it is a pure function
of the tile (row by row), the tile size and the depth bit (43_aggregator.md R195, U2). Used only by a state whose
SAD port is `arbitrary`. Assumption log 6. -/
opaque Config.sadArbitrary : List Nat → Nat → Bool → Half

end Sys2Proof
end

