-- ==== Sys2Proof/Syntax.lean ====
section
/-! DEFINITION. The command set PAVU-1 (30_encoding.md R97): one constructor per row of the opcode table, and the
kinds of operand a command can carry. -/

namespace Sys2Proof

/-- The general word registers (10_state.md R21), named by a 2-bit index in ABS2 (R94). -/
inductive WReg where
  | w0 | w1 | w2 | w3
  deriving DecidableEq, Repr

/-- The reference of a tile command (R91 bit z, R102): the tile of view B (z = 0), or ZERO (z = 1). -/
inductive RefSel where
  | b | zero
  deriving DecidableEq, Repr

/-- Bit depth (R91 bit d, R6): standard (8-bit samples, W = 16, N = 32) or high (16-bit samples, W = 32, N = 64). -/
inductive Depth where
  | standard | high
  deriving DecidableEq, Repr

/-- The two sample plane views (R16): A is the source, B the reconstruction or the reference. -/
inductive View where
  | a | b
  deriving DecidableEq, Repr

/-- The fifteen commands (R97). -/
inductive Instr where
  | nop
  | abs2L16 (rd rs : WReg)
  | abs2L32 (rd rs : WReg)
  | had4B32
  | had4B64
  | satd4S (ref : RefSel)
  | satd4H (ref : RefSel)
  | sa8dS (ref : RefSel)
  | sa8dH (ref : RefSel)
  | psydS
  | psydH
  | bias
  | fdistS
  | fdistH
  | rst
  deriving DecidableEq, Repr

/-- The fields of a command word (R91), as the word holds them. A record of fields may be ill-formed: see
`WellFormed`. -/
structure Fields where
  op       : BitVec 4
  d        : BitVec 1
  z        : BitVec 1
  rd       : BitVec 2
  rs       : BitVec 2
  reserved : BitVec 22
  deriving DecidableEq, Repr

/-- Why a word is not a command (R98). The unit answers every one of them with the same fault. -/
inductive DecodeError where
  /-- a bit of 31:10 is 1 -/
  | reservedBits
  /-- op is 8 to 14 -/
  | reservedOp
  /-- a field the command does not use is not zero -/
  | unusedField
  deriving DecidableEq, Repr

/-- A row of the opcode map (R97). -/
structure OpcodeRow where
  mnemonic : String
  value    : Half
  mask     : Half
  deriving DecidableEq, Repr

/-- The mnemonic of a command, as the opcode table spells it. -/
def Instr.mnemonic : Instr → String
  | .nop => "NOP"
  | .abs2L16 _ _ => "ABS2.L16"
  | .abs2L32 _ _ => "ABS2.L32"
  | .had4B32 => "HAD4.B32"
  | .had4B64 => "HAD4.B64"
  | .satd4S _ => "SATD4.S"
  | .satd4H _ => "SATD4.H"
  | .sa8dS _ => "SA8D.S"
  | .sa8dH _ => "SA8D.H"
  | .psydS => "PSYD.S"
  | .psydH => "PSYD.H"
  | .bias => "BIAS"
  | .fdistS => "FDIST.S"
  | .fdistH => "FDIST.H"
  | .rst => "RST"

end Sys2Proof
end

