-- ==== Sys2Proof/WellFormed.lean ====
section
/-! DEFINITION. When the fields of a command word are those of a command (30_encoding.md R92, R98). The operands of
`Instr` are constructors, so every `Instr` is well-formed; the checks are on the fields of a word, where an
ill-formed value can be written. -/

namespace Sys2Proof

/-- R98, first clause: bits 31:10 are zero. -/
def Fields.reservedClear (f : Fields) : Bool := f.reserved == 0

/-- R93, R98, second clause: op is 0 to 7 or 15. -/
def Fields.opAssigned (f : Fields) : Bool := f.op.toNat ≤ 7 || f.op == 15

/-- R95: d is used by every operation that has two instantiations, all but NOP, BIAS and RST. -/
def Fields.usesD (f : Fields) : Bool := !(f.op == 0 || f.op == 6 || f.op == 15)

/-- R95: z is used by SATD4 and SA8D only. -/
def Fields.usesZ (f : Fields) : Bool := f.op == 3 || f.op == 4

/-- R94: rd and rs are used by ABS2 only. -/
def Fields.usesRegs (f : Fields) : Bool := f.op == 1

/-- R98, third clause: the fields the operation does not use are zero. -/
def Fields.unusedClear (f : Fields) : Bool :=
  (f.usesD || f.d == 0) && (f.usesZ || f.z == 0) && (f.usesRegs || (f.rd == 0 && f.rs == 0))

/-- The first check of R98 that the fields fail. -/
def Fields.error? (f : Fields) : Option DecodeError :=
  if !f.reservedClear then some .reservedBits
  else if !f.opAssigned then some .reservedOp
  else if !f.unusedClear then some .unusedField
  else none

/-- The fields are those of one of the 49 legal words (R97). -/
def Fields.wellFormed (f : Fields) : Bool := f.error? == none

/-- Every command is well-formed: its operands are constructors (R94, R102). -/
def Instr.wellFormed (_ : Instr) : Bool := true

end Sys2Proof
end

