-- ==== Sys2Proof/Decode.lean ====
section
/-! DEFINITION. Decoding a command word (30_encoding.md R90 to R92, R97) and encoding a command (R104). -/

namespace Sys2Proof

/-- The fields of a word (R91). -/
def fieldsOf (w : Half) : Fields where
  op       := w.extractLsb' 0 4
  d        := w.extractLsb' 4 1
  z        := w.extractLsb' 5 1
  rd       := w.extractLsb' 6 2
  rs       := w.extractLsb' 8 2
  reserved := w.extractLsb' 10 22

/-- The general register a 2-bit index names (R91, R94). -/
def wregOf (i : BitVec 2) : WReg :=
  match i.toNat with
  | 0 => .w0
  | 1 => .w1
  | 2 => .w2
  | _ => .w3

/-- The index of a general register (R94). -/
def wregIndex : WReg → Nat
  | .w0 => 0
  | .w1 => 1
  | .w2 => 2
  | .w3 => 3

/-- The reference that bit z selects (R91). -/
def refOf (z : BitVec 1) : RefSel := if z = 0 then .b else .zero

/-- Bit z of a reference (R102). -/
def refBit : RefSel → Nat
  | .b => 0
  | .zero => 1

/-- One of two commands, by bit d (R95). -/
def byDepth (d : BitVec 1) (standard high : Instr) : Instr := if d = 0 then standard else high

/-- The command that well-formed fields stand for (R92, R93). -/
def instrOf (f : Fields) : Instr :=
  match f.op.toNat with
  | 0 => .nop
  | 1 => byDepth f.d (.abs2L16 (wregOf f.rd) (wregOf f.rs)) (.abs2L32 (wregOf f.rd) (wregOf f.rs))
  | 2 => byDepth f.d .had4B32 .had4B64
  | 3 => byDepth f.d (.satd4S (refOf f.z)) (.satd4H (refOf f.z))
  | 4 => byDepth f.d (.sa8dS (refOf f.z)) (.sa8dH (refOf f.z))
  | 5 => byDepth f.d .psydS .psydH
  | 6 => .bias
  | 7 => byDepth f.d .fdistS .fdistH
  | _ => .rst

/-- `Decode` of R92: total on all 2^32 words, rejecting by name. -/
def decode (w : Half) : Except DecodeError Instr :=
  match (fieldsOf w).error? with
  | some e => .error e
  | none => .ok (instrOf (fieldsOf w))

/-- `Encode(op, d, z, rd, rs)` of R104. -/
def encodeFields (op d z rd rs : Nat) : Half := BitVec.ofNat 32 (op + 16 * d + 32 * z + 64 * rd + 256 * rs)

/-- The word of a command (R104). -/
def encode : Instr → Half
  | .nop => encodeFields 0 0 0 0 0
  | .abs2L16 rd rs => encodeFields 1 0 0 (wregIndex rd) (wregIndex rs)
  | .abs2L32 rd rs => encodeFields 1 1 0 (wregIndex rd) (wregIndex rs)
  | .had4B32 => encodeFields 2 0 0 0 0
  | .had4B64 => encodeFields 2 1 0 0 0
  | .satd4S ref => encodeFields 3 0 (refBit ref) 0 0
  | .satd4H ref => encodeFields 3 1 (refBit ref) 0 0
  | .sa8dS ref => encodeFields 4 0 (refBit ref) 0 0
  | .sa8dH ref => encodeFields 4 1 (refBit ref) 0 0
  | .psydS => encodeFields 5 0 0 0 0
  | .psydH => encodeFields 5 1 0 0 0
  | .bias => encodeFields 6 0 0 0 0
  | .fdistS => encodeFields 7 0 0 0 0
  | .fdistH => encodeFields 7 1 0 0 0
  | .rst => encodeFields 15 0 0 0 0

/-- The opcode map of R97: a word selects a row when `w AND mask = value`. -/
def opcodeMap : List OpcodeRow :=
  [ ⟨"NOP", 0x00000000, 0xFFFFFFFF⟩, ⟨"ABS2.L16", 0x00000001, 0xFFFFFC3F⟩, ⟨"ABS2.L32", 0x00000011, 0xFFFFFC3F⟩,
    ⟨"HAD4.B32", 0x00000002, 0xFFFFFFFF⟩, ⟨"HAD4.B64", 0x00000012, 0xFFFFFFFF⟩,
    ⟨"SATD4.S", 0x00000003, 0xFFFFFFDF⟩, ⟨"SATD4.H", 0x00000013, 0xFFFFFFDF⟩,
    ⟨"SA8D.S", 0x00000004, 0xFFFFFFDF⟩, ⟨"SA8D.H", 0x00000014, 0xFFFFFFDF⟩,
    ⟨"PSYD.S", 0x00000005, 0xFFFFFFFF⟩, ⟨"PSYD.H", 0x00000015, 0xFFFFFFFF⟩, ⟨"BIAS", 0x00000006, 0xFFFFFFFF⟩,
    ⟨"FDIST.S", 0x00000007, 0xFFFFFFFF⟩, ⟨"FDIST.H", 0x00000017, 0xFFFFFFFF⟩, ⟨"RST", 0x0000000F, 0xFFFFFFFF⟩ ]

/-- A row selects a word (R97). -/
def OpcodeRow.selects (row : OpcodeRow) (w : Half) : Bool := w &&& row.mask == row.value

/-- The command the decoder reads from a table row's word of `nbits` bits; the unit has one length, 32 bits, and
the word is a value with no byte order of its own (R90). -/
def decodeTableWord (nbits w : Nat) : Option Instr := (decode (BitVec.ofNat 32 (w % 2 ^ nbits))).toOption

end Sys2Proof
end

