-- ==== Sys2Proof/Machine/State.lean ====
section
/-! DEFINITION. The state of one unit and of what stands around it (10_state.md R20, R26, R41, R43, R48), the
stops of the model, and the state after reset (R47, R290). -/

namespace Sys2Proof.Machine

/-- Sample memory (R41): (address, byte) pairs, addresses strictly rising and below 2^64; an address that no pair
lists reads as `Config.unlistedByte`. -/
abbrev Memory := List Host.Cell

/-- The causes of a fault of the unit (60_exceptions.md R261). -/
inductive Cause where
  | illegalCommand | geometry | misaligned | memError | numeric
  deriving DecidableEq, Repr

/-- The three run states (R48). STATUS is computed from this: `State.status`. -/
inductive RunState where
  /-- IDLE; `done` is STATUS.DONE -/
  | idle (done : Bool)
  /-- BUSY with the accepted command; `left` counts the host-port events that still fall before its completion,
  and `none` says that a port never answers and the command never completes (R303) -/
  | busy (command : Instr) (left : Option Nat)
  /-- FAULTED, with the recorded cause -/
  | faulted (cause : Cause)
  deriving DecidableEq, Repr

/-- The SAD collaborator as the platform provides it (43_aggregator.md R195). -/
inductive SadPort where
  /-- it has the property SadExact -/
  | exact
  /-- it answers some pure function of the request, `Config.sadArbitrary` -/
  | arbitrary
  /-- it never answers -/
  | silent
  deriving DecidableEq, Repr

/-- What an agent outside the unit can do (10_state.md R36, 30_encoding.md R101, 70_reset_and_hazards.md R291,
20_memory.md R67, R70). -/
inductive HostAction where
  /-- `HostRead(n)` -/
  | read (n : BitVec 5)
  /-- `HostWrite(n, v)` -/
  | write (n : BitVec 5) (v : Word)
  /-- `WAIT`: read STATUS until BUSY = 0 -/
  | wait
  /-- a read of `size` bytes at a byte offset of the register window -/
  | windowRead (offset size : Nat)
  /-- a write of `size` bytes at a byte offset of the register window -/
  | windowWrite (offset size : Nat) (v : Word)
  /-- the platform's `reset` input -/
  | hardReset
  /-- a write of one byte of sample memory by its owner; the address is backed from then on -/
  | memWrite (addr : Word) (b : Byte)
  /-- the platform stops backing an address of sample memory -/
  | memUnback (addr : Word)
  deriving DecidableEq, Repr

/-- What the memory port answers (20_memory.md R61), or that the address belongs to a device (R65, U8). -/
inductive MemAnswer where
  | ok (v : Nat)
  | err
  | device
  deriving DecidableEq, Repr

/-- One sample of a view: the unit of reading (20_memory.md R66). -/
structure SampleRef where
  view : View
  row  : Nat
  col  : Nat
  deriving DecidableEq, Repr

/-- The registers of R26 but STATUS (held as the run state) and CMD (which keeps no value). -/
structure Regs where
  finfo    : Word
  result   : Word
  w0       : Word
  w1       : Word
  w2       : Word
  w3       : Word
  aBase    : Word
  aOff     : Half
  aStride  : Half
  bBase    : Word
  bOff     : Half
  bStride  : Half
  width    : Half
  height   : Half
  biasBase : Word
  biasEff  : Word
  intra    : BitVec 1
  tlayer   : Half
  deriving DecidableEq, Repr

/-- Every register zero (10_state.md R47, 70_reset_and_hazards.md R290). -/
def Regs.zero : Regs where
  finfo := 0
  result := 0
  w0 := 0
  w1 := 0
  w2 := 0
  w3 := 0
  aBase := 0
  aOff := 0
  aStride := 0
  bBase := 0
  bOff := 0
  bStride := 0
  width := 0
  height := 0
  biasBase := 0
  biasEff := 0
  intra := 0
  tlayer := 0

/-- One unit, sample memory, the platform's ports and the host. -/
structure State where
  /-- the registers of R26 -/
  regs       : Regs
  /-- the run state of R48, which STATUS shows -/
  run        : RunState
  /-- sample memory now (R41) -/
  mem        : Memory
  /-- what sample memory was at earlier moments since the running command was accepted, latest first; empty under
  the contract of 20_memory.md R70 -/
  earlier    : List Memory
  /-- the memory port answers (R303) -/
  memAnswers : Bool
  /-- address ranges (base, length) that belong to devices (R65, U8) -/
  devices    : List (Nat × Nat)
  /-- the SAD collaborator (43_aggregator.md R195) -/
  sadPort    : SadPort
  /-- for each command to come, how many host-port events fall between its acceptance and its completion
  (R305, U7); none listed: no event does -/
  latency    : List Nat
  /-- the host actions to come, first first -/
  host       : List HostAction
  /-- what the last host read answered (R36) -/
  readData   : Word
  /-- the MODEL's own: the counter that free values are applied to -/
  fresh      : Nat
  deriving DecidableEq, Repr

/-- Why the model stops with a fault. The faults of the spec are not among them: they are next states. -/
inductive Fault where
  /-- Raised by a byte-mapped access at or beyond byte 256 of the register window, an address that is not the unit's
  (20_memory.md R67). Safe: the model says nothing of what such an access does. -/
  | outsideWindow (offset : Nat)
  deriving DecidableEq, Repr

/-- Why the model gives an action no meaning. -/
inductive Refusal where
  /-- Raised by `exec` for a command that has no meaning yet (there is none). Safe. -/
  | notModelled (mnemonic : String)
  /-- Raised by a byte-mapped access narrower or wider than 64 bits or not aligned to a register: "a model refuses
  them" (10_state.md R36, U19). Safe. -/
  | partialAccess (offset size : Nat)
  /-- Raised by a memory-reading command one of whose samples lies in a device's range: outside the unit's contract
  (20_memory.md R65, U8). Safe. -/
  | deviceRead (addr : Nat)
  deriving DecidableEq, Repr

/-- What a step or a command answers. -/
abbrev Result := Host.Outcome State Fault Refusal

/-- The machine right after reset (R47, R290), with nothing around it: no memory listed, no host action pending. -/
def State.reset : State where
  regs := Regs.zero
  run := .idle false
  mem := []
  earlier := []
  memAnswers := true
  devices := []
  sadPort := .exact
  latency := []
  host := []
  readData := 0
  fresh := 0

end Sys2Proof.Machine
end

