-- ==== Sys2Proof/Machine/Flags.lean ====
section
/-! DEFINITION. STATUS (10_state.md R27, R48) and the fault codes (60_exceptions.md R261). BUSY, DONE and FAULT are
the unit's only flags; no arithmetic result sets a flag. -/

namespace Sys2Proof.Machine

/-- The code that STATUS.CAUSE records (R261). -/
def causeCode : Cause → Nat
  | .illegalCommand => 1
  | .geometry => 2
  | .misaligned => 3
  | .memError => 4
  | .numeric => 5

/-- STATUS.BUSY (R27 bit 0). -/
def busyFlag : RunState → Bool
  | .busy _ _ => true
  | _ => false

/-- STATUS.DONE (R27 bit 1). -/
def doneFlag : RunState → Bool
  | .idle done => done
  | _ => false

/-- STATUS.FAULT (R27 bit 2). -/
def faultFlag : RunState → Bool
  | .faulted _ => true
  | _ => false

/-- STATUS.CAUSE (R27 bits 15:8), zero when FAULT = 0. -/
def causeField : RunState → Nat
  | .faulted c => causeCode c
  | _ => 0

/-- The STATUS word of a run state (R27): BUSY at bit 0, DONE at bit 1, FAULT at bit 2, CAUSE at bits 15:8, the
rest zero. -/
def statusWord (r : RunState) : BitVec 16 :=
  BitVec.ofNat 16 ((busyFlag r).toNat + 2 * (doneFlag r).toNat + 4 * (faultFlag r).toNat + 256 * causeField r)

/-- Register STATUS (R27). -/
def State.status (s : State) : BitVec 16 := statusWord s.run

/-- The unit is IDLE (R48). -/
def State.isIdle (s : State) : Bool :=
  match s.run with
  | .idle _ => true
  | _ => false

end Sys2Proof.Machine
end

