-- ==== Sys2Proof/Machine/Ops.lean ====
section
/-! DEFINITION. The named operations over memory, registers and the run state: reading sample memory (20_memory.md
R61, R62), the register map as the host sees it (10_state.md R26), the general registers (R21), completing a command
(R48), raising a fault (60_exceptions.md R272) and leaving the FAULTED state by reset (R275). -/

namespace Sys2Proof.Machine

/-! ### Sample memory -/

/-- The byte at an address, or nothing where the platform does not back it. -/
def Memory.read : Memory → Nat → Option Byte
  | [], _ => Config.unlistedByte
  | (a, b) :: rest, x => if x = a then some b else Memory.read rest x

/-- Backs an address and sets its byte; keeps the list in rising order. -/
def Memory.write : Memory → Nat → Byte → Memory
  | [], x, v => [(x, v)]
  | (a, b) :: rest, x, v =>
    if x < a then (x, v) :: (a, b) :: rest
    else if x = a then (x, v) :: rest
    else (a, b) :: Memory.write rest x v

/-- Stops backing an address. -/
def Memory.unback : Memory → Nat → Memory
  | [], _ => []
  | (a, b) :: rest, x => if x = a then rest else (a, b) :: Memory.unback rest x

/-- Every listed address lies above `lo`, they rise strictly, and all are below 2^64. -/
def Memory.risesFrom : Nat → Memory → Bool
  | _, [] => true
  | lo, (a, _) :: rest => decide (lo ≤ a) && decide (a < 2 ^ 64) && Memory.risesFrom (a + 1) rest

/-- The canonical form: equal memories are equal lists. -/
def Memory.wf (m : Memory) : Bool := Memory.risesFrom 0 m

/-- The address belongs to a device (R65, U8). -/
def inDevice (devices : List (Nat × Nat)) (addr : Nat) : Bool :=
  devices.any fun r => decide (r.1 ≤ addr) && decide (addr < r.1 + r.2)

/-- `MemRead(addr, n)` (R61) at one moment of memory: one byte, or two bytes little-endian (R62). -/
def memRead (m : Memory) (devices : List (Nat × Nat)) (addr : Nat) (bytes : Nat) : MemAnswer :=
  if (List.range bytes).any (fun k => inDevice devices (addr + k)) then .device
  else if bytes = 1 then
    match m.read addr with
    | some lo => .ok lo.toNat
    | none => .err
  else
    match m.read addr, m.read (addr + 1) with
    | some lo, some hi => .ok (lo.toNat + 256 * hi.toNat)
    | _, _ => .err

/-! ### General registers -/

/-- `x[W[i]]` (R21). -/
def Regs.getW (r : Regs) : WReg → Word
  | .w0 => r.w0
  | .w1 => r.w1
  | .w2 => r.w2
  | .w3 => r.w3

/-- `x[W[i]] <- v` (R21). -/
def Regs.setW (r : Regs) (i : WReg) (v : Word) : Regs :=
  match i with
  | .w0 => { r with w0 := v }
  | .w1 => { r with w1 := v }
  | .w2 => { r with w2 := v }
  | .w3 => { r with w3 := v }

/-! ### The register map -/

/-- The value register n shows (R26): CMD and the reserved numbers read zero, narrow registers are zero-extended. -/
def regRead (s : State) (n : BitVec 5) : Word :=
  match n.toNat with
  | 1 => s.status.setWidth 64
  | 2 => s.regs.finfo
  | 3 => s.regs.result
  | 4 => s.regs.w0
  | 5 => s.regs.w1
  | 6 => s.regs.w2
  | 7 => s.regs.w3
  | 8 => s.regs.aBase
  | 9 => s.regs.aOff.setWidth 64
  | 10 => s.regs.aStride.setWidth 64
  | 11 => s.regs.bBase
  | 12 => s.regs.bOff.setWidth 64
  | 13 => s.regs.bStride.setWidth 64
  | 14 => s.regs.width.setWidth 64
  | 15 => s.regs.height.setWidth 64
  | 16 => s.regs.biasBase
  | 17 => s.regs.biasEff
  | 18 => s.regs.intra.setWidth 64
  | 19 => s.regs.tlayer.setWidth 64
  | _ => 0

/-- A host write to a register other than CMD (R26, R31 to R35): a narrow register keeps the low bits, a read-only
or reserved register ignores the write. -/
def regWrite (r : Regs) (n : BitVec 5) (v : Word) : Regs :=
  match n.toNat with
  | 4 => { r with w0 := v }
  | 5 => { r with w1 := v }
  | 6 => { r with w2 := v }
  | 7 => { r with w3 := v }
  | 8 => { r with aBase := v }
  | 9 => { r with aOff := v.setWidth 32 }
  | 10 => { r with aStride := v.setWidth 32 }
  | 11 => { r with bBase := v }
  | 12 => { r with bOff := v.setWidth 32 }
  | 13 => { r with bStride := v.setWidth 32 }
  | 14 => { r with width := v.setWidth 32 }
  | 15 => { r with height := v.setWidth 32 }
  | 16 => { r with biasBase := v }
  | 18 => { r with intra := v.setWidth 1 }
  | 19 => { r with tlayer := v.setWidth 32 }
  | _ => r

/-! ### Running a command -/

/-- A command word has its effect only while the unit is IDLE; while BUSY or FAULTED it is dropped (10_state.md R37,
R38). -/
def whenIdle (s : State) (effect : Result) : Result :=
  match s.run with
  | .idle _ => effect
  | _ => .next s

/-- A command completes with these registers: BUSY is cleared and DONE set (R48). -/
def complete (r : Regs) (s : State) : Result :=
  .next { s with regs := r, run := .idle true, earlier := [] }

/-- `raise F(info)` (60_exceptions.md R272): FINFO and STATUS are written, the unit is FAULTED, nothing else
changes. -/
def raise (c : Cause) (info : Word) (s : State) : Result :=
  .next { s with regs := { s.regs with finfo := info }, run := .faulted c, earlier := [] }

/-- A command that waits for a port that never answers: the unit stays BUSY (70_reset_and_hazards.md R303, U18). -/
def hang (i : Instr) (s : State) : Result :=
  .next { s with run := .busy i none }

/-- The unit as reset leaves it (R290 to R292): every register zero, IDLE, DONE = 0; a command in progress is
abandoned; sample memory, the platform and the host are not touched. -/
def resetUnit (s : State) : State :=
  { s with regs := Regs.zero, run := .idle false, earlier := [] }

/-- One of several equally allowed addresses (60_exceptions.md R266, U4): the only one, or a free choice. -/
def chooseAddress (fresh : Nat) (l : List Nat) : Nat :=
  match l with
  | [] => 0
  | [a] => a
  | l => l.getD (Config.freeIndex fresh % l.length) 0

end Sys2Proof.Machine
end

