-- ==== Sys2Proof/Machine/Operands.lean ====
section
/-! DEFINITION. Operand forms: sample addresses (20_memory.md R60), which samples a command reads (R66), the
acceptance checks (42_block_energy.md R181, 43_aggregator.md R192), and reading the samples through the port (R68,
R71, 60_exceptions.md R266). -/

namespace Sys2Proof.Machine

/-- Bytes of a sample, SB (00_scope.md R6). -/
def sampleBytes : Depth → Nat
  | .standard => 1
  | .high => 2

/-- `x[v_BASE]` of a view (10_state.md R31). -/
def viewBase (r : Regs) : View → Word
  | .a => r.aBase
  | .b => r.bBase

/-- `x[v_OFF]` (10_state.md R32). -/
def viewOff (r : Regs) : View → Half
  | .a => r.aOff
  | .b => r.bOff

/-- `x[v_STRIDE]` (10_state.md R32). -/
def viewStride (r : Regs) : View → Half
  | .a => r.aStride
  | .b => r.bStride

/-- `SampleAddr(v, r, c)` (20_memory.md R60), an exact natural number: it never wraps. -/
def sampleAddr (r : Regs) (d : Depth) (v : View) (row col : Nat) : Nat :=
  (viewBase r v).toNat + sampleBytes d * ((viewOff r v).toNat + row * (viewStride r v).toNat + col)

/-- The last byte of the view's sample (row, col) lies below 2^64 (R60). -/
def addrFits (r : Regs) (d : Depth) (v : View) (row col : Nat) : Bool :=
  decide (sampleAddr r d v row col + sampleBytes d ≤ 2 ^ 64)

/-- The base of the view is odd at high bit depth (20_memory.md R63). -/
def misaligned (r : Regs) (d : Depth) (v : View) : Bool :=
  d == .high && (viewBase r v).toNat % 2 == 1

/-- `TileSize` (43_aggregator.md R191). -/
def tileSize (r : Regs) : Nat :=
  if 8 ≤ r.width.toNat ∧ 8 ≤ r.height.toNat then 8 else 4

/-- The acceptance checks of a tile command of size n, in order (42_block_energy.md R181): the fault and what FINFO
records. -/
def tileCheck (n : Nat) (d : Depth) (ref : RefSel) (r : Regs) : Option (Cause × Word) :=
  if !addrFits r d .a (n - 1) (n - 1) then some (.geometry, 5)
  else if ref == .b && !addrFits r d .b (n - 1) (n - 1) then some (.geometry, 5)
  else if misaligned r d .a then some (.misaligned, r.aBase)
  else if ref == .b && misaligned r d .b then some (.misaligned, r.bBase)
  else none

/-- The acceptance checks of a region command, in order (43_aggregator.md R192). -/
def regionCheck (d : Depth) (r : Regs) : Option (Cause × Word) :=
  let n := tileSize r
  let inhabited := 0 < r.width.toNat ∧ 0 < r.height.toNat
  if r.width.toNat % n ≠ 0 then some (.geometry, 1)
  else if r.height.toNat % n ≠ 0 then some (.geometry, 2)
  else if r.aStride.toNat < r.width.toNat then some (.geometry, 3)
  else if r.bStride.toNat < r.width.toNat then some (.geometry, 4)
  else if inhabited ∧ !addrFits r d .a (r.height.toNat - 1) (r.width.toNat - 1) then some (.geometry, 5)
  else if inhabited ∧ !addrFits r d .b (r.height.toNat - 1) (r.width.toNat - 1) then some (.geometry, 5)
  else if misaligned r d .a then some (.misaligned, r.aBase)
  else if misaligned r d .b then some (.misaligned, r.bBase)
  else none

/-- The fault with which a command fails its acceptance checks, if it does (30_encoding.md R92). -/
def acceptanceFault (i : Instr) (r : Regs) : Option (Cause × Word) :=
  match i with
  | .satd4S ref => tileCheck 4 .standard ref r
  | .satd4H ref => tileCheck 4 .high ref r
  | .sa8dS ref => tileCheck 8 .standard ref r
  | .sa8dH ref => tileCheck 8 .high ref r
  | .psydS => regionCheck .standard r
  | .psydH => regionCheck .high r
  | .fdistS => regionCheck .standard r
  | .fdistH => regionCheck .high r
  | .nop => none
  | .abs2L16 _ _ => none
  | .abs2L32 _ _ => none
  | .had4B32 => none
  | .had4B64 => none
  | .bias => none
  | .rst => none

/-- The samples of the h x w rectangle at the origin of a view. -/
def rectangle (v : View) (h w : Nat) : List SampleRef :=
  (List.range h).flatMap fun row => (List.range w).map fun col => ⟨v, row, col⟩

/-- The samples a tile command reads, each once (20_memory.md R66): the tile of view A and, with z = 0, that of
view B. -/
def tileReads (n : Nat) (ref : RefSel) : List SampleRef :=
  match ref with
  | .b => rectangle .a n n ++ rectangle .b n n
  | .zero => rectangle .a n n

/-- The samples a region command reads, each once (R66): the WIDTH x HEIGHT regions of both views. -/
def regionReads (r : Regs) : List SampleRef :=
  if r.width = 0 then []
  else rectangle .a r.height.toNat r.width.toNat ++ rectangle .b r.height.toNat r.width.toNat

/-- The memory that the read of one sample sees: memory as it is, or, when it changed while the command ran, as it
was at some moment of the run, each read choosing independently (20_memory.md R71). -/
def momentSeen (s : State) (x : SampleRef) : Memory :=
  match s.earlier with
  | [] => s.mem
  | e :: es =>
    (s.mem :: e :: es).getD (Config.freeMoment s.fresh (x.view == .b) x.row x.col % (es.length + 2)) s.mem

/-- What the port answers for one sample (20_memory.md R68). -/
def sampleAnswer (s : State) (d : Depth) (x : SampleRef) : MemAnswer :=
  memRead (momentSeen s x) s.devices (sampleAddr s.regs d x.view x.row x.col) (sampleBytes d)

/-- The value of one sample; 0 where the port does not answer `OK` (no meaning computes with that). -/
def sampleValue (s : State) (d : Depth) (v : View) (row col : Nat) : Nat :=
  match sampleAnswer s d ⟨v, row, col⟩ with
  | .ok x => x
  | _ => 0

/-- The addresses of the samples whose read answers `ERR` (60_exceptions.md R266). -/
def unreadable (s : State) (d : Depth) (reads : List SampleRef) : List Nat :=
  (reads.filter fun x => sampleAnswer s d x == .err).map fun x => sampleAddr s.regs d x.view x.row x.col

/-- The addresses of the samples that lie in a device's range (20_memory.md R65). -/
def onDevice (s : State) (d : Depth) (reads : List SampleRef) : List Nat :=
  (reads.filter fun x => sampleAnswer s d x == .device).map fun x => sampleAddr s.regs d x.view x.row x.col

/-- Performs the reads of a command and goes on where all of them answer `OK`. A silent port: the command never
completes (R303). A device: no meaning (R65). Any `ERR`: `MemError` with the address of one such sample (R266). -/
def withSamples (i : Instr) (d : Depth) (reads : List SampleRef) (s : State) (go : Result) : Result :=
  if !reads.isEmpty && !s.memAnswers then hang i s
  else
    match onDevice s d reads with
    | a :: _ => .refused (.deviceRead a)
    | [] =>
      match unreadable s d reads with
      | [] => go
      | bad => raise .memError (BitVec.ofNat 64 (chooseAddress s.fresh bad)) { s with fresh := s.fresh + 1 }

/-- A memory-reading command: its acceptance checks, then its reads, then its computation, all while the unit is
IDLE (30_encoding.md R92). -/
def readingCommand (i : Instr) (d : Depth) (reads : List SampleRef) (s : State) (go : Result) : Result :=
  whenIdle s <|
    match acceptanceFault i s.regs with
    | some (c, info) => raise c info s
    | none => withSamples i d reads s go

end Sys2Proof.Machine
end

