-- ==== Sys2Proof/Machine/Hadamard.lean ====
section
/-! DEFINITION. The 4-point Hadamard butterfly (41_hadamard4.md): the function `had4_N` and the commands `HAD4.B32`
and `HAD4.B64`. -/

namespace Sys2Proof.Machine

/-- The four outputs of a butterfly, in the order a, b, c, d of R141. -/
structure Quad (N : Nat) where
  a : BitVec N
  b : BitVec N
  c : BitVec N
  d : BitVec N
  deriving DecidableEq, Repr

/-- `had4_N(w, x, y, z)` (R141): two butterfly stages, every operation mod 2^N. -/
def had4 {N : Nat} (w x y z : BitVec N) : Quad N :=
  let t0 := w + x
  let t1 := w - x
  let t2 := y + z
  let t3 := y - z
  ⟨t0 + t2, t0 - t2, t1 + t3, t1 - t3⟩

/-- `HAD4.B32` (R144): the sources' upper halves are ignored, the destinations' written as zero. -/
def execHad4B32 (s : State) : Result :=
  let q := had4 (s.regs.w0.setWidth 32) (s.regs.w1.setWidth 32) (s.regs.w2.setWidth 32) (s.regs.w3.setWidth 32)
  whenIdle s <| complete
    { s.regs with w0 := q.a.setWidth 64, w1 := q.b.setWidth 64, w2 := q.c.setWidth 64, w3 := q.d.setWidth 64 } s

/-- `HAD4.B64` (R145). -/
def execHad4B64 (s : State) : Result :=
  let q := had4 s.regs.w0 s.regs.w1 s.regs.w2 s.regs.w3
  whenIdle s <| complete { s.regs with w0 := q.a, w1 := q.b, w2 := q.c, w3 := q.d } s

end Sys2Proof.Machine
end

