-- ==== Sys2Proof/Machine/PackedAbs.lean ====
section
/-! DEFINITION. Packed dual-lane absolute value (40_packed_abs.md): the function `abs2_W` and the commands
`ABS2.L16` and `ABS2.L32`. -/

namespace Sys2Proof.Machine

/-- `abs2_W` on a backing word of N = 2W bits (R121). -/
def abs2 {N : Nat} (W : Nat) (a : BitVec N) : BitVec N :=
  let mask := (a >>> (W - 1)) &&& BitVec.ofNat N (2 ^ W + 1)
  let s := (mask <<< W) - mask
  (a + s) ^^^ s

/-- `ABS2.L16 rd, rs` (R126): bits 63:32 of the source are ignored, those of the destination written as zero. -/
def execAbs2L16 (rd rs : WReg) (s : State) : Result :=
  whenIdle s <| complete (s.regs.setW rd ((abs2 16 ((s.regs.getW rs).setWidth 32)).setWidth 64)) s

/-- `ABS2.L32 rd, rs` (R127). -/
def execAbs2L32 (rd rs : WReg) (s : State) : Result :=
  whenIdle s <| complete (s.regs.setW rd (abs2 32 (s.regs.getW rs))) s

end Sys2Proof.Machine
end

