-- ==== Sys2Proof/Machine/BlockEnergy.lean ====
section
/-! DEFINITION. The block energy estimators (42_block_energy.md): `pack2_W`, `fold_W`, `satd4_W`, `sa8d_W` and the
commands `SATD4.S`, `SATD4.H`, `SA8D.S`, `SA8D.H`. One definition per estimator, with W and N = 2W as parameters
(R176). -/

namespace Sys2Proof.Machine

/-- A tile `T[r][c]` of sample values (00_scope.md R11, 20_memory.md R68). -/
abbrev Tile := Nat → Nat → Nat

/-- `ZERO(n)` (20_memory.md R69). -/
def zeroTile : Tile := fun _ _ => 0

/-- `diff(i, k)` (R156): source minus reference. -/
def diff (S R : Tile) (i k : Nat) : Int := (S i k : Int) - (R i k : Int)

/-- `pack2_W(p, q)` (R157). -/
def pack2 {N : Nat} (W : Nat) (p q : Int) : BitVec N := BitVec.ofInt N ((p + q) + (p - q) * 2 ^ W)

/-- `fold_W(x)` (R158): low field plus high field, both unsigned. -/
def fold {N : Nat} (W : Nat) (x : BitVec N) : BitVec N := (x.setWidth W).setWidth N + (x >>> W)

/-- The two packed slots of row i (R160), with or without the second row stage (R161). -/
def satd4Row {N : Nat} (W : Nat) (stage2 : Bool) (S R : Tile) (i : Nat) : BitVec N × BitVec N :=
  let b0 := pack2 W (diff S R i 0) (diff S R i 1)
  let b1 := pack2 W (diff S R i 2) (diff S R i 3)
  if stage2 then (b0 + b1, b0 - b1) else (b0, b1)

/-- The energy of one packed slot: the column butterfly, the packed absolute values, the fold (R160). -/
def satd4Slot {N : Nat} (W : Nat) (t0 t1 t2 t3 : BitVec N) : BitVec N :=
  let q := had4 t0 t1 t2 t3
  fold W ((abs2 W q.a + abs2 W q.b) + (abs2 W q.c + abs2 W q.d))

/-- `satd4_W(S, R)` (R160). -/
def satd4 {N : Nat} (W : Nat) (stage2 : Bool) (S R : Tile) : BitVec N :=
  let r0 := satd4Row W stage2 S R 0
  let r1 := satd4Row W stage2 S R 1
  let r2 := satd4Row W stage2 S R 2
  let r3 := satd4Row W stage2 S R 3
  (satd4Slot W r0.1 r1.1 r2.1 r3.1 + satd4Slot W r0.2 r1.2 r2.2 r3.2) >>> 1

/-- The four packed slots of row i after the row butterfly (R170). -/
def sa8dRow {N : Nat} (W : Nat) (S R : Tile) (i : Nat) : Quad N :=
  had4 (pack2 W (diff S R i 0) (diff S R i 1)) (pack2 W (diff S R i 2) (diff S R i 3))
    (pack2 W (diff S R i 4) (diff S R i 5)) (pack2 W (diff S R i 6) (diff S R i 7))

/-- `abs2(x + y) + abs2(x - y)`: the cross stage of one matching pair (R170). -/
def sa8dCross {N : Nat} (W : Nat) (x y : BitVec N) : BitVec N := abs2 W (x + y) + abs2 W (x - y)

/-- The energy of one slot-column: the butterflies of its two halves, the cross stage, the fold (R170). -/
def sa8dSlot {N : Nat} (W : Nat) (t0 t1 t2 t3 t4 t5 t6 t7 : BitVec N) : BitVec N :=
  let lo := had4 t0 t1 t2 t3
  let hi := had4 t4 t5 t6 t7
  fold W (sa8dCross W lo.a hi.a + sa8dCross W lo.b hi.b + sa8dCross W lo.c hi.c + sa8dCross W lo.d hi.d)

/-- `sa8d_W(S, R)` (R170). -/
def sa8d {N : Nat} (W : Nat) (S R : Tile) : BitVec N :=
  let r0 := sa8dRow W S R 0
  let r1 := sa8dRow W S R 1
  let r2 := sa8dRow W S R 2
  let r3 := sa8dRow W S R 3
  let r4 := sa8dRow W S R 4
  let r5 := sa8dRow W S R 5
  let r6 := sa8dRow W S R 6
  let r7 := sa8dRow W S R 7
  let sum := sa8dSlot W r0.a r1.a r2.a r3.a r4.a r5.a r6.a r7.a +
    sa8dSlot W r0.b r1.b r2.b r3.b r4.b r5.b r6.b r7.b +
    sa8dSlot W r0.c r1.c r2.c r3.c r4.c r5.c r6.c r7.c +
    sa8dSlot W r0.d r1.d r2.d r3.d r4.d r5.d r6.d r7.d
  (sum + 2#N) >>> 2

/-- The reference tile of a tile command (R182): view B's, or ZERO. -/
def refTile (s : State) (d : Depth) : RefSel → Tile
  | .b => sampleValue s d .b
  | .zero => zeroTile

/-- `SATD4.S ref` (R182). -/
def execSatd4S (ref : RefSel) (s : State) : Result :=
  readingCommand (.satd4S ref) .standard (tileReads 4 ref) s <|
    complete { s.regs with
      result := (satd4 (N := 32) 16 Config.satd4RowStage2 (sampleValue s .standard .a) (refTile s .standard ref)).setWidth 64 } s

/-- `SATD4.H ref` (R183). -/
def execSatd4H (ref : RefSel) (s : State) : Result :=
  readingCommand (.satd4H ref) .high (tileReads 4 ref) s <|
    complete { s.regs with
      result := satd4 32 Config.satd4RowStage2 (sampleValue s .high .a) (refTile s .high ref) } s

/-- `SA8D.S ref` (R184). -/
def execSa8dS (ref : RefSel) (s : State) : Result :=
  readingCommand (.sa8dS ref) .standard (tileReads 8 ref) s <|
    complete { s.regs with
      result := (sa8d (N := 32) 16 (sampleValue s .standard .a) (refTile s .standard ref)).setWidth 64 } s

/-- `SA8D.H ref` (R185). -/
def execSa8dH (ref : RefSel) (s : State) : Result :=
  readingCommand (.sa8dH ref) .high (tileReads 8 ref) s <|
    complete { s.regs with result := sa8d 32 (sampleValue s .high .a) (refTile s .high ref) } s

end Sys2Proof.Machine
end

