-- ==== Sys2Proof/Machine/Aggregator.lean ====
section
/-! DEFINITION. The tile-walking distortion aggregator (43_aggregator.md): the SAD port, the energy of a tile, `psyd`
and the commands `PSYD.S` and `PSYD.H`. -/

namespace Sys2Proof.Machine

/-- The samples of an n x n tile, row by row: what a SAD request carries (R195). -/
def tileSamples (T : Tile) (n : Nat) : List Nat :=
  (List.range n).flatMap fun r => (List.range n).map fun c => T r c

/-- The answer of the SAD collaborator to the request (T, n, d) (R195), in U(32). A silent collaborator gives none:
`needsSad` stops the command before this is asked. -/
def sadAnswer (p : SadPort) (T : Tile) (n : Nat) (d : Depth) : Half :=
  match p with
  | .arbitrary => Config.sadArbitrary (tileSamples T n) n (d == .high)
  | _ => BitVec.ofNat 32 (tileSamples T n).sum

/-- The estimator that matches tile size and depth, against ZERO (R196). -/
def estimate (n : Nat) (d : Depth) (T : Tile) : Nat :=
  match d with
  | .standard =>
    if n = 4 then (satd4 (N := 32) 16 Config.satd4RowStage2 T zeroTile).toNat else (sa8d (N := 32) 16 T zeroTile).toNat
  | .high =>
    if n = 4 then (satd4 (N := 64) 32 Config.satd4RowStage2 T zeroTile).toNat else (sa8d (N := 64) 32 T zeroTile).toNat

/-- `Energy(T, n, d)` (R196), an exact integer. -/
def energy (p : SadPort) (T : Tile) (n : Nat) (d : Depth) : Int :=
  (estimate n d T : Int) - ((sadAnswer p T n d).toNat / 4 : Nat)

/-- The tile of a view at position (ty, tx) (R193). -/
def tileAt (s : State) (d : Depth) (v : View) (n ty tx : Nat) : Tile :=
  fun r c => sampleValue s d v (n * ty + r) (n * tx + c)

/-- `| Energy(TA) - Energy(TB) |` at position (ty, tx) (R197). -/
def tileDelta (s : State) (d : Depth) (n ty tx : Nat) : Nat :=
  (energy s.sadPort (tileAt s d .a n ty tx) n d - energy s.sadPort (tileAt s d .b n ty tx) n d).natAbs

/-- The tile positions of the region, ty outer and tx inner (R193). -/
def tilePositions (r : Regs) : List (Nat × Nat) :=
  if r.width = 0 then []
  else (List.range (r.height.toNat / tileSize r)).flatMap fun ty =>
    (List.range (r.width.toNat / tileSize r)).map fun tx => (ty, tx)

/-- TOTAL after the walk (R194, R197): 64 bits, wrapping. -/
def runningTotal (s : State) (d : Depth) : Word :=
  (tilePositions s.regs).foldl
    (fun total p => total + BitVec.ofNat 64 (tileDelta s d (tileSize s.regs) p.1 p.2)) 0

/-- `Normalise(TOTAL, d)` (R198). -/
def normalise (total : Word) : Depth → Word
  | .standard => total >>> 1
  | .high => total <<< 2

/-- `psyd(d)` (R194). -/
def psyd (s : State) (d : Depth) : Word := normalise (runningTotal s d) d

/-- A region command after its reads: with at least one tile it sends SAD requests, and never completes where the
collaborator never answers (R195, R303). -/
def needsSad (i : Instr) (s : State) (go : Result) : Result :=
  if s.sadPort = .silent ∧ tilePositions s.regs ≠ [] then hang i s else go

/-- `PSYD.S` (R200). -/
def execPsydS (s : State) : Result :=
  readingCommand .psydS .standard (regionReads s.regs) s <|
    needsSad .psydS s <| complete { s.regs with result := psyd s .standard } s

/-- `PSYD.H` (R201). -/
def execPsydH (s : State) : Result :=
  readingCommand .psydH .high (regionReads s.regs) s <|
    needsSad .psydH s <| complete { s.regs with result := psyd s .high } s

end Sys2Proof.Machine
end

