-- ==== Sys2Proof/Machine/Binary64.lean ====
section
/-! DEFINITION. The scalar arithmetic of the unit (44_bias_and_entry.md R216 to R219): IEEE 754 binary64 patterns,
one correctly rounded multiplication, the conversion of a 64-bit total, and rounding half away from zero. Everything
is exact arithmetic on natural numbers; a magnitude is held as m * 2^k / 2^2150, which no product or total escapes. -/

namespace Sys2Proof.Machine

/-- The sign bit (R216). -/
def signBit (x : Word) : Bool := x.getLsbD 63

/-- The biased exponent field e (R216). -/
def expField (x : Word) : Nat := x.toNat / 2 ^ 52 % 2 ^ 11

/-- The fraction field f (R216). -/
def fracField (x : Word) : Nat := x.toNat % 2 ^ 52

/-- The pattern is a NaN (R216). -/
def isNaN (x : Word) : Bool := expField x == 2047 && fracField x != 0

/-- The pattern is an infinity (R216). -/
def isInf (x : Word) : Bool := expField x == 2047 && fracField x == 0

/-- The pattern is a zero, of either sign (R216). -/
def isZero (x : Word) : Bool := expField x == 0 && fracField x == 0

/-- The integer significand: a finite pattern's magnitude is `significand x * 2 ^ scale x / 2 ^ 1075` (R216). -/
def significand (x : Word) : Nat := if expField x = 0 then fracField x else 2 ^ 52 + fracField x

/-- The exponent of a finite pattern's magnitude, plus 1075 (R216): subnormals share the least normal exponent. -/
def scale (x : Word) : Nat := max (expField x) 1

/-- The pattern of +infinity; a magnitude's pattern is at most this. -/
def infPattern : Nat := 2047 * 2 ^ 52

/-- m / 2^j rounded to the nearest integer, ties to even. -/
def nearestEven (m j : Nat) : Nat :=
  let q := m / 2 ^ j
  let r := m % 2 ^ j
  if 2 ^ j < 2 * r ∨ (2 * r = 2 ^ j ∧ q % 2 = 1) then q + 1 else q

/-- The least exponent (plus 2150) of the binary64 grid around m * 2^k / 2^2150: 52 below its leading bit, and never
below 2^(-1074). -/
def gridExponent (m k : Nat) : Nat := max (m.log2 + k - 52) 1076

/-- `RN(m * 2^k / 2^2150)` (R216) as a pattern without sign: the nearest finite value, ties to even, infinity from
2^1024 - 2^970 on. A carry out of the significand moves into the exponent field by itself. -/
def roundMagnitude (m k : Nat) : Nat :=
  if m = 0 then 0
  else
    let e := gridExponent m k
    let sig := if e ≤ k then m * 2 ^ (k - e) else nearestEven m (e - k)
    min ((e - 1076) * 2 ^ 52 + sig) infPattern

/-- A sign and a magnitude pattern as one word (R216). -/
def withSign (negative : Bool) (magnitude : Nat) : Word :=
  BitVec.ofNat 64 (negative.toNat * 2 ^ 63 + magnitude)

/-- `fmul64(x, y)` (R217). -/
def fmul64 (x y : Word) : Word :=
  let negative := signBit x ^^ signBit y
  if isNaN x || isNaN y || (isInf x && isZero y) || (isZero x && isInf y) then Config.canonicalNaN
  else if isInf x || isInf y then withSign negative infPattern
  else withSign negative (roundMagnitude (significand x * significand y) (scale x + scale y))

/-- `cvt_u64(D)` (R218). -/
def cvtU64 (D : Word) : Word := BitVec.ofNat 64 (roundMagnitude D.toNat 2150)

/-- floor(|p| + 1/2) of a finite pattern, exactly (R219). -/
def roundedMagnitude (p : Word) : Nat :=
  if 1075 ≤ scale p then significand p * 2 ^ (scale p - 1075)
  else (2 * significand p + 2 ^ (1075 - scale p)) / 2 ^ (1076 - scale p)

/-- `rha(p)` of a finite pattern (R219): round half away from zero. -/
def rha (p : Word) : Int := if signBit p then -(roundedMagnitude p : Int) else roundedMagnitude p

end Sys2Proof.Machine
end

