-- ==== Sys2Proof/Machine/BiasEntry.lean ====
section
/-! DEFINITION. The bias lookup and the public entry point (44_bias_and_entry.md): `effective_bias`,
`full_distortion` and the commands `BIAS`, `FDIST.S` and `FDIST.H`. -/

namespace Sys2Proof.Machine

/-- `effective_bias(base, intra, layer)` (R221). -/
def effectiveBias (base : Word) (intra : BitVec 1) (layer : Half) : Word :=
  if intra = 1 then fmul64 base Config.biasIntra
  else if layer = 0 then fmul64 base Config.biasLayer0
  else if layer = 1 then fmul64 base Config.biasLayer1
  else if layer = 2 then fmul64 base Config.biasLayer2
  else base

/-- `BIAS` (R226). -/
def execBias (s : State) : Result :=
  whenIdle s <| complete
    { s.regs with biasEff := effectiveBias s.regs.biasBase s.regs.intra s.regs.tlayer } s

/-- The product `p` of R230: the converted distortion times BIAS_BASE. -/
def biasedProduct (D base : Word) : Word := fmul64 (cvtU64 D) base

/-- The product has an integer value that fits the signed 64-bit result (R230, 60_exceptions.md R267). -/
def representable (p : Word) : Bool :=
  !isNaN p && !isInf p && decide (-(2 ^ 63 : Int) ≤ rha p) && decide (rha p ≤ 2 ^ 63 - 1)

/-- The end of `full_distortion` (R230) for a distortion D: the rounded product into RESULT, or `Numeric`. -/
def finishDistortion (D : Word) (s : State) : Result :=
  let p := biasedProduct D s.regs.biasBase
  if representable p then complete { s.regs with result := BitVec.ofInt 64 (rha p) } s
  else raise .numeric p s

/-- `FDIST.S` (R231). -/
def execFdistS (s : State) : Result :=
  readingCommand .fdistS .standard (regionReads s.regs) s <|
    needsSad .fdistS s <| finishDistortion (psyd s .standard) s

/-- `FDIST.H` (R232). -/
def execFdistH (s : State) : Result :=
  readingCommand .fdistH .high (regionReads s.regs) s <|
    needsSad .fdistH s <| finishDistortion (psyd s .high) s

end Sys2Proof.Machine
end

