-- ==== Sys2Proof/Machine/System.lean ====
section
/-! DEFINITION. The system commands (45_system.md): `NOP` and `RST`. -/

namespace Sys2Proof.Machine

/-- `NOP` (R251): nothing, and the command completes. -/
def execNop (s : State) : Result := whenIdle s <| complete s.regs s

/-- `RST` (R252): accepted while IDLE and while FAULTED, dropped while BUSY; DONE is 0 afterwards. -/
def execRst (s : State) : Result :=
  match s.run with
  | .busy _ _ => .next s
  | _ => .next (resetUnit s)

end Sys2Proof.Machine
end

