-- ==== Sys2Proof/Machine/Dispatch.lean ====
section
/-! DEFINITION. The command's meaning, by command (30_encoding.md R97): what the command word does when the host
writes it to CMD and the command runs to its end (70_reset_and_hazards.md R299). -/

namespace Sys2Proof.Machine

def exec (i : Instr) (s : State) : Host.Outcome State Fault Refusal :=
  match i with
  | .nop => Sys2Proof.Machine.execNop s
  | .abs2L16 rd rs => Sys2Proof.Machine.execAbs2L16 rd rs s
  | .abs2L32 rd rs => Sys2Proof.Machine.execAbs2L32 rd rs s
  | .had4B32 => Sys2Proof.Machine.execHad4B32 s
  | .had4B64 => Sys2Proof.Machine.execHad4B64 s
  | .satd4S ref => Sys2Proof.Machine.execSatd4S ref s
  | .satd4H ref => Sys2Proof.Machine.execSatd4H ref s
  | .sa8dS ref => Sys2Proof.Machine.execSa8dS ref s
  | .sa8dH ref => Sys2Proof.Machine.execSa8dH ref s
  | .psydS => Sys2Proof.Machine.execPsydS s
  | .psydH => Sys2Proof.Machine.execPsydH s
  | .bias => Sys2Proof.Machine.execBias s
  | .fdistS => Sys2Proof.Machine.execFdistS s
  | .fdistH => Sys2Proof.Machine.execFdistH s
  | .rst => Sys2Proof.Machine.execRst s

end Sys2Proof.Machine
end

