-- ==== Sys2Proof/Machine/HostPort.lean ====
section
/-! DEFINITION. The host port (10_state.md R36 to R38) and the doorbell (30_encoding.md R92): what each action of the
host does in each run state, and one event of the machine. -/

namespace Sys2Proof.Machine

/-- The command is accepted into a BUSY window rather than ended by its CMD write: `RST` never shows BUSY
(45_system.md R252), and a command that fails its acceptance checks faults at once (30_encoding.md R92). -/
def entersBusy (i : Instr) (s : State) : Bool :=
  i != .rst && (acceptanceFault i s.regs).isNone

/-- A legal command written to CMD while the unit is IDLE (R92). Where the platform lets host-port events fall before
its completion (`State.latency`), the unit is BUSY for so many; else acceptance, run and completion are one step
(70_reset_and_hazards.md R299). A BUSY window draws a fresh number for the moments of its reads. -/
def startCommand (i : Instr) (s : State) : Result :=
  match s.latency with
  | [] => exec i s
  | 0 :: rest => exec i { s with latency := rest }
  | (k + 1) :: rest =>
    if entersBusy i s then
      .next { s with latency := rest, run := .busy i (some k), fresh := s.fresh + 1 }
    else exec i { s with latency := rest }

/-- A word written to CMD while the unit is IDLE (30_encoding.md R92, 60_exceptions.md R262). -/
def doorbell (w : Half) (s : State) : Result :=
  match decode w with
  | .error _ => raise .illegalCommand (w.setWidth 64) s
  | .ok i => startCommand i s

/-- `HostRead(n)` (10_state.md R36, R37): exact but while BUSY, when only STATUS is. -/
def hostRead (n : BitVec 5) (s : State) : State :=
  if busyFlag s.run ∧ n ≠ 1 then { s with readData := Config.freeWord s.fresh, fresh := s.fresh + 1 }
  else { s with readData := regRead s n }

/-- `HostWrite(n, v)` (10_state.md R28, R36 to R38). -/
def hostWrite (n : BitVec 5) (v : Word) (s : State) : Result :=
  match s.run with
  | .busy _ _ => .next s
  | .faulted _ => if n = 0 ∧ v.setWidth 32 = encode .rst then exec .rst s else .next s
  | .idle _ => if n = 0 then doorbell (v.setWidth 32) s else .next { s with regs := regWrite s.regs n v }

/-- A write to sample memory by its owner. While a command runs, the memory it found is kept as an earlier moment
(20_memory.md R71). -/
def changeMemory (m : Memory) (s : State) : State :=
  { s with mem := m, earlier := if busyFlag s.run then s.mem :: s.earlier else s.earlier }

/-- The register a byte-mapped access reaches (R26, 20_memory.md R67), or why it reaches none. -/
def windowAccess (offset size : Nat) (go : BitVec 5 → Result) : Result :=
  if 256 ≤ offset then .fault (.outsideWindow offset)
  else if size = 8 ∧ offset % 8 = 0 then go (BitVec.ofNat 5 (offset / 8))
  else .refused (.partialAccess offset size)

/-- One host action (10_state.md R36, 30_encoding.md R101). `WAIT` reads STATUS, and stays to be done again while
BUSY = 1. -/
def perform (a : HostAction) (s : State) : Result :=
  match a with
  | .read n => .next (hostRead n s)
  | .write n v => hostWrite n v s
  | .wait =>
    .next { s with readData := s.status.setWidth 64, host := if busyFlag s.run then .wait :: s.host else s.host }
  | .windowRead offset size => windowAccess offset size fun n => .next (hostRead n s)
  | .windowWrite offset size v => windowAccess offset size fun n => hostWrite n v s
  | .hardReset => .next (resetUnit s)
  | .memWrite addr b => .next (changeMemory (s.mem.write addr.toNat b) s)
  | .memUnback addr => .next (changeMemory (s.mem.unback addr.toNat) s)

/-- The next host action, if there is one; else the unit waits (70_reset_and_hazards.md R293). -/
def hostEvent (s : State) : Result :=
  match s.host with
  | [] => .next s
  | a :: rest => perform a { s with host := rest }

/-- One event: the running command completes when its window has passed, else the host acts. A command that waits
for a port that never answers does not complete. -/
def nextEvent (s : State) : Result :=
  match s.run with
  | .busy i (some 0) => exec i { s with run := .idle false }
  | .busy i (some (k + 1)) => hostEvent { s with run := .busy i (some k) }
  | _ => hostEvent s

/-- Puts a write of a command word to CMD in front of the host's actions, on a unit that is IDLE and whose next
command completes within its CMD write. -/
def offerCommand (w : Half) (s : State) : State :=
  { s with
    host := .write 0 (w.setWidth 64) :: s.host
    latency := []
    earlier := []
    run := if s.isIdle then s.run else .idle false }

end Sys2Proof.Machine
end

