-- ==== Sys2Proof/Safety.lean ====
section
/-! DEFINITION. The terms that statements about the unit use: when a command is accepted and its samples can be read,
what the spec means by the lanes of a word, the transform of a tile and the value of a binary64 pattern, and the
invariant of the machine. Nothing here is run by a step. -/

namespace Sys2Proof.Machine

/-! ### Addresses, as the spec writes them -/

/-- SB of a depth (00_scope.md R6): 1 byte a sample at standard depth, 2 at high. -/
def depthBytes (d : Depth) : Nat := if d = .high then 2 else 1

/-- `BASE + SB * (OFF + row * STRIDE + col)` with the three registers of the view (20_memory.md R60), written out here
apart from the machine's own `sampleAddr`. -/
def addressOf (r : Regs) (d : Depth) (v : View) (row col : Nat) : Nat :=
  match v with
  | .a => r.aBase.toNat + depthBytes d * (r.aOff.toNat + row * r.aStride.toNat + col)
  | .b => r.bBase.toNat + depthBytes d * (r.bOff.toNat + row * r.bStride.toNat + col)

/-! ### When a command runs to its end -/

/-- Every sample of the list can be read: the port answers, the contract of 20_memory.md R70 holds (memory has not
changed since the command was accepted), no byte is a device's (R65), and every byte is backed (R61). -/
def State.samplesReady (s : State) (d : Depth) (reads : List SampleRef) : Prop :=
  s.memAnswers = true ∧ s.earlier = [] ∧
    ∀ x ∈ reads, ∀ k < depthBytes d,
      inDevice s.devices (addressOf s.regs d x.view x.row x.col + k) = false ∧
        (s.mem.read (addressOf s.regs d x.view x.row x.col + k)).isSome = true

/-- The byte at an address, zero where there is none. -/
def byteAt (m : Memory) (a : Nat) : Nat := ((m.read a).getD 0).toNat

/-- The sample (row, col) of a view as memory holds it (20_memory.md R60, R62): one byte, or two little-endian. -/
def memSample (m : Memory) (r : Regs) (d : Depth) (v : View) (row col : Nat) : Nat :=
  match d with
  | .standard => byteAt m (addressOf r d v row col)
  | .high => byteAt m (addressOf r d v row col) + 256 * byteAt m (addressOf r d v row col + 1)

/-- The reference tile of a tile command as memory holds it (42_block_energy.md R182). -/
def memReference (m : Memory) (r : Regs) (d : Depth) : RefSel → Tile
  | .b => memSample m r d .b
  | .zero => zeroTile

/-- A view lies below 2^64 up to the last byte of its sample (row, col) (20_memory.md R60). -/
def viewFits (r : Regs) (d : Depth) (v : View) (row col : Nat) : Prop :=
  addressOf r d v row col + depthBytes d ≤ 2 ^ 64

/-- The base of a view is even (20_memory.md R63). -/
def baseEven (r : Regs) (v : View) : Prop :=
  match v with
  | .a => r.aBase.toNat % 2 = 0
  | .b => r.bBase.toNat % 2 = 0

/-- A tile command of size n passes its acceptance checks (42_block_energy.md R181). -/
def tileAccepted (n : Nat) (d : Depth) (ref : RefSel) (r : Regs) : Prop :=
  viewFits r d .a (n - 1) (n - 1) ∧ (ref = .b → viewFits r d .b (n - 1) (n - 1)) ∧
    (d = .high → baseEven r .a) ∧ (d = .high → ref = .b → baseEven r .b)

/-- A region command passes its acceptance checks (43_aggregator.md R192). -/
def regionAccepted (d : Depth) (r : Regs) : Prop :=
  tileSize r ∣ r.width.toNat ∧ tileSize r ∣ r.height.toNat ∧
    r.width.toNat ≤ r.aStride.toNat ∧ r.width.toNat ≤ r.bStride.toNat ∧
    (0 < r.width.toNat → 0 < r.height.toNat →
      viewFits r d .a (r.height.toNat - 1) (r.width.toNat - 1) ∧
        viewFits r d .b (r.height.toNat - 1) (r.width.toNat - 1)) ∧
    (d = .high → baseEven r .a ∧ baseEven r .b)

/-- The tile commands (42_block_energy.md R182 to R185): the command for a reference, its tile size and its depth. -/
def tileCommands : List ((RefSel → Instr) × Nat × Depth) :=
  [(.satd4S, 4, .standard), (.satd4H, 4, .high), (.sa8dS, 8, .standard), (.sa8dH, 8, .high)]

/-- The region commands (43_aggregator.md R200, R201, 44_bias_and_entry.md R231, R232) and their depths. -/
def regionCommands : List (Instr × Depth) :=
  [(.psydS, .standard), (.psydH, .high), (.fdistS, .standard), (.fdistH, .high)]

/-- The tile of a view at position (ty, tx) as memory holds it (43_aggregator.md R193). -/
def memTile (s : State) (d : Depth) (v : View) (ty tx : Nat) : Tile := fun r c =>
  memSample s.mem s.regs d v (tileSize s.regs * ty + r) (tileSize s.regs * tx + c)

/-- The exact sum over the tiles of the region of the absolute differences of their energies (R193, R197), before
any reduction to 64 bits. -/
def exactTotal (s : State) (d : Depth) : Nat :=
  ∑ ty ∈ Finset.range (s.regs.height.toNat / tileSize s.regs),
    ∑ tx ∈ Finset.range (s.regs.width.toNat / tileSize s.regs),
      (energy s.sadPort (memTile s d .a ty tx) (tileSize s.regs) d -
        energy s.sadPort (memTile s d .b ty tx) (tileSize s.regs) d).natAbs

/-- The aggregator's result for the region (R198): the total mod 2^64, shifted down by 1 or up by 2. -/
def regionDistortion (s : State) (d : Depth) : Word :=
  match d with
  | .standard => BitVec.ofNat 64 (exactTotal s .standard) >>> 1
  | .high => BitVec.ofNat 64 (exactTotal s .high) <<< 2

/-- Every sample the region command reads is ready, and the SAD collaborator answers (70_reset_and_hazards.md
R303). -/
def State.regionReady (s : State) (d : Depth) : Prop :=
  s.samplesReady d (regionReads s.regs) ∧ s.sadPort ≠ .silent

/-- The same samples lie in both regions (43_aggregator.md R199). -/
def sameRegions (s : State) (d : Depth) : Prop :=
  ∀ row < s.regs.height.toNat, ∀ col < s.regs.width.toNat,
    memSample s.mem s.regs d .a row col = memSample s.mem s.regs d .b row col

/-- The bits of register n that a host write stores (10_state.md R26, R31 to R35); none for a register that is
read-only, reserved, or the doorbell. -/
def writableBits (n : BitVec 5) : Word :=
  if n.toNat ∈ [4, 5, 6, 7, 8, 11, 16] then 0xFFFFFFFFFFFFFFFF#64
  else if n.toNat ∈ [9, 10, 12, 13, 14, 15, 19] then 0xFFFFFFFF#64
  else if n.toNat = 18 then 1#64
  else 0#64

/-! ### Which registers and memory a command touches -/

/-- The registers a completed command may have changed: its destination registers alone (10_state.md R22, R30, R33). -/
def writesOnly (i : Instr) (r r' : Regs) : Prop :=
  match i with
  | .nop => r' = r
  | .abs2L16 rd _ => ∃ v, r' = r.setW rd v
  | .abs2L32 rd _ => ∃ v, r' = r.setW rd v
  | .had4B32 => ∃ a b c d, r' = { r with w0 := a, w1 := b, w2 := c, w3 := d }
  | .had4B64 => ∃ a b c d, r' = { r with w0 := a, w1 := b, w2 := c, w3 := d }
  | .satd4S _ => ∃ v, r' = { r with result := v }
  | .satd4H _ => ∃ v, r' = { r with result := v }
  | .sa8dS _ => ∃ v, r' = { r with result := v }
  | .sa8dH _ => ∃ v, r' = { r with result := v }
  | .psydS => ∃ v, r' = { r with result := v }
  | .psydH => ∃ v, r' = { r with result := v }
  | .bias => ∃ v, r' = { r with biasEff := v }
  | .fdistS => ∃ v, r' = { r with result := v }
  | .fdistH => ∃ v, r' = { r with result := v }
  | .rst => False

/-- The commands that read memory (20_memory.md R64). -/
def readsMemory : Instr → Bool
  | .satd4S _ => true
  | .satd4H _ => true
  | .sa8dS _ => true
  | .sa8dH _ => true
  | .psydS => true
  | .psydH => true
  | .fdistS => true
  | .fdistH => true
  | .nop => false
  | .abs2L16 _ _ => false
  | .abs2L32 _ _ => false
  | .had4B32 => false
  | .had4B64 => false
  | .bias => false
  | .rst => false

/-- The faults a command can raise once it is decoded, with what FINFO may then hold (60_exceptions.md R268). -/
def mayRaise (i : Instr) (c : Cause) (finfo : Word) : Prop :=
  match c with
  | .illegalCommand => False
  | .geometry =>
    ((∃ p ∈ tileCommands, ∃ ref, i = p.1 ref) ∧ finfo = 5) ∨
      ((∃ p ∈ regionCommands, i = p.1) ∧ 1 ≤ finfo.toNat ∧ finfo.toNat ≤ 5)
  | .misaligned => (∃ ref, i = .satd4H ref ∨ i = .sa8dH ref) ∨ i = .psydH ∨ i = .fdistH
  | .memError => readsMemory i = true
  | .numeric => i = .fdistS ∨ i = .fdistH

/-! ### Lanes and transforms -/

/-- The low lane of a backing word (40_packed_abs.md R123): `sext_W(a[W-1:0])`. -/
def loLane {N : Nat} (W : Nat) (a : BitVec N) : Int := (a.setWidth W).toInt

/-- The high lane of a backing word (R123): the high field with the low lane's borrow added back, as a signed
number. -/
def hiLane {N : Nat} (W : Nat) (a : BitVec N) : Int :=
  (a.extractLsb' W W + BitVec.ofNat W (a.getLsbD (W - 1)).toNat).toInt

/-- The lane value fits a signed W-bit lane (R123). -/
def laneFits (W : Nat) (x : Int) : Prop := -(2 ^ (W - 1) : Int) ≤ x ∧ x ≤ 2 ^ (W - 1) - 1

/-- The samples of an n x n tile are at most `bound` (42_block_energy.md R156). -/
def Tile.boundedBy (T : Tile) (n bound : Nat) : Prop := ∀ r < n, ∀ c < n, T r c ≤ bound

/-- The sign matrix of the butterfly (41_hadamard4.md R141). -/
def H4 : Matrix (Fin 4) (Fin 4) Int := !![1, 1, 1, 1; 1, 1, -1, -1; 1, -1, 1, -1; 1, -1, -1, 1]

/-- The row matrix of the estimator without its second row stage (42_block_energy.md R162). -/
def G4 : Matrix (Fin 4) (Fin 4) Int := !![1, 1, 0, 0; 1, -1, 0, 0; 0, 0, 1, 1; 0, 0, 1, -1]

/-- ((1, 1), (1, -1)). -/
def H2 : Matrix (Fin 2) (Fin 2) Int := !![1, 1; 1, -1]

/-- The Kronecker product of three copies of `H2` (42_block_energy.md R171). -/
def H8 : Matrix (Fin 8) (Fin 8) Int := fun u v =>
  H2 (Fin.ofNat 2 (u.val / 4)) (Fin.ofNat 2 (v.val / 4)) * H2 (Fin.ofNat 2 (u.val / 2)) (Fin.ofNat 2 (v.val / 2)) *
    H2 (Fin.ofNat 2 u.val) (Fin.ofNat 2 v.val)

/-- The matrix of sample differences of an n x n tile (R162, R171). -/
def diffMatrix (n : Nat) (S R : Tile) : Matrix (Fin n) (Fin n) Int := fun i k => diff S R i.val k.val

/-- The sum of the magnitudes of the entries. -/
def magnitudeSum {n : Nat} (C : Matrix (Fin n) (Fin n) Int) : Nat := ∑ u, ∑ v, (C u v).natAbs

/-- The coefficients of the 4x4 estimator (R162): the full transform with the second row stage, the literal reading
without it. -/
def coefficients4 (stage2 : Bool) (S R : Tile) : Matrix (Fin 4) (Fin 4) Int :=
  if stage2 then H4 * diffMatrix 4 S R * H4 else H4 * diffMatrix 4 S R * G4.transpose

/-- The coefficients of the 8x8 estimator (R171). -/
def coefficients8 (S R : Tile) : Matrix (Fin 8) (Fin 8) Int := H8 * diffMatrix 8 S R * H8.transpose

/-! ### Scalars -/

/-- The pattern is a finite number (44_bias_and_entry.md R216). -/
def isFinite (x : Word) : Bool := expField x != 2047

/-- The value of a finite binary64 pattern (R216). -/
def realValue (x : Word) : ℚ :=
  (if signBit x then -1 else 1) * ((significand x : ℚ) * 2 ^ scale x / 2 ^ 1075)

/-- `y` is `RN(q)`, with sign bit `negative` (R216): an infinity when the magnitude of q is at least 2^1024 - 2^970;
else a finite value nearest to q, and of two equally near ones the one whose fraction is even. -/
def isRoundingOf (negative : Bool) (q : ℚ) (y : Word) : Prop :=
  signBit y = negative ∧
    if (2 : ℚ) ^ 1024 - 2 ^ 970 ≤ |q| then isInf y = true
    else isFinite y = true ∧ ∀ z : Word, isFinite z = true →
      |realValue y - q| ≤ |realValue z - q| ∧
        (|realValue y - q| = |realValue z - q| → realValue z ≠ realValue y → fracField y % 2 = 0)

/-! ### The invariant of the machine -/

/-- What FINFO holds is what the recorded cause says (60_exceptions.md R261); zero where no fault is recorded. -/
def finfoMatches (r : RunState) (finfo : Word) : Prop :=
  match r with
  | .idle _ => finfo = 0
  | .busy _ _ => finfo = 0
  | .faulted .illegalCommand => finfo.toNat < 2 ^ 32 ∧ ∃ e, decode (finfo.setWidth 32) = .error e
  | .faulted .geometry => 1 ≤ finfo.toNat ∧ finfo.toNat ≤ 5
  | .faulted .misaligned => finfo.toNat % 2 = 1
  | .faulted .memError => True
  | .faulted .numeric => representable finfo = false

/-- The command of a BUSY unit passed its acceptance checks, and the unit's registers still pass them (10_state.md
R37): it is not `RST`, and its operands are those of its acceptance. -/
def runningAccepted (s : State) : Prop :=
  match s.run with
  | .busy i _ => i ≠ .rst ∧ acceptanceFault i s.regs = none
  | _ => True

/-- Earlier moments of memory are kept only while a command runs (20_memory.md R70, R71). -/
def momentsOnlyWhileBusy (s : State) : Prop := busyFlag s.run = false → s.earlier = []

/-- The invariant: memory and every kept moment of it are canonical, FINFO is what the run state says, and a running
command is an accepted one. -/
def State.Inv (s : State) : Prop :=
  s.mem.wf = true ∧ (∀ m ∈ s.earlier, Memory.wf m = true) ∧ finfoMatches s.run s.regs.finfo ∧ runningAccepted s ∧
    momentsOnlyWhileBusy s

/-! ### Comparing states -/

/-- The command ends in a fault (60_exceptions.md R272): FINFO and STATUS are written and nothing else changes. -/
def endsInFault (i : Instr) (s : State) (c : Cause) (info : Word) : Prop :=
  exec i s = .next { s with regs := { s.regs with finfo := info }, run := .faulted c, earlier := [] }

/-- Apart from the registers, STATUS and what the run of a command consumes, nothing differs. -/
def sameSurroundings (s t : State) : Prop :=
  t.mem = s.mem ∧ t.memAnswers = s.memAnswers ∧ t.devices = s.devices ∧ t.sadPort = s.sadPort ∧
    t.latency = s.latency ∧ t.host = s.host ∧ t.readData = s.readData

end Sys2Proof.Machine
end

