-- ==== Sys2Proof/Laws/PerInstr.lean ====
section
/-! SUPPORT. Families of statements made once per command. -/

namespace Sys2Proof.Laws.RoundTrip

/-- Decoding the word of a well-formed command gives the command back (30_encoding.md R104). -/
def Statement (i : Instr) : Prop := i.wellFormed = true → decode (encode i) = .ok i

theorem nop : Statement (.nop) := fun _ => rfl

theorem abs2L16 (rd rs : WReg) : Statement (.abs2L16 rd rs) := by cases rd <;> cases rs <;> exact fun _ => rfl

theorem abs2L32 (rd rs : WReg) : Statement (.abs2L32 rd rs) := by cases rd <;> cases rs <;> exact fun _ => rfl

theorem had4B32 : Statement (.had4B32) := fun _ => rfl

theorem had4B64 : Statement (.had4B64) := fun _ => rfl

theorem satd4S (ref : RefSel) : Statement (.satd4S ref) := by cases ref <;> exact fun _ => rfl

theorem satd4H (ref : RefSel) : Statement (.satd4H ref) := by cases ref <;> exact fun _ => rfl

theorem sa8dS (ref : RefSel) : Statement (.sa8dS ref) := by cases ref <;> exact fun _ => rfl

theorem sa8dH (ref : RefSel) : Statement (.sa8dH ref) := by cases ref <;> exact fun _ => rfl

theorem psydS : Statement (.psydS) := fun _ => rfl

theorem psydH : Statement (.psydH) := fun _ => rfl

theorem bias : Statement (.bias) := fun _ => rfl

theorem fdistS : Statement (.fdistS) := fun _ => rfl

theorem fdistH : Statement (.fdistH) := fun _ => rfl

theorem rst : Statement (.rst) := fun _ => rfl

end Sys2Proof.Laws.RoundTrip
end

