-- ==== Sys2Proof/Certificates/Slice0/Obligations.lean ====
section
/-! DEFINITION. The statements for the provers. Each docstring names the rule of spec/ that the statement formalises. -/

open Sys2Proof Sys2Proof.Machine

/-! ### Encoding (30_encoding.md) -/

/-- Words written out from the field layout of R91 decode to the commands they stand for (examples of R104 and
R97, one of each family). -/
def Obligations.WordsOfTheSpecDecode : Prop :=
  decode 0x00000000 = .ok .nop ∧ decode 0x00000041 = .ok (.abs2L16 .w1 .w0) ∧
  decode 0x00000391 = .ok (.abs2L32 .w2 .w3) ∧ decode 0x00000012 = .ok .had4B64 ∧
  decode 0x00000023 = .ok (.satd4S .zero) ∧ decode 0x00000014 = .ok (.sa8dH .b) ∧
  decode 0x00000005 = .ok .psydS ∧ decode 0x00000006 = .ok .bias ∧ decode 0x00000017 = .ok .fdistH ∧
  decode 0x0000000F = .ok .rst ∧ decode 0x0000001F = .error .unusedField ∧ decode 0x00000008 = .error .reservedOp ∧
  decode 0x00000400 = .error .reservedBits

/-- R104: `Encode` is the weighted sum of the fields, the fields a command does not have are zero, decoding an encoded
command gives it back, and encoding a decoded word gives the word back, for every one of the 2^32 words. -/
def Obligations.DecodeAndEncodeAreInverse : Prop :=
  (∀ op < 16, ∀ d < 2, ∀ z < 2, ∀ rd < 4, ∀ rs < 4,
    (encodeFields op d z rd rs).toNat = op + 16 * d + 32 * z + 64 * rd + 256 * rs) ∧
  (∀ i : Instr, (fieldsOf (encode i)).unusedClear = true ∧ (fieldsOf (encode i)).reservedClear = true) ∧
  encode (.abs2L16 .w1 .w0) = 0x00000041 ∧ encode (.abs2L32 .w2 .w3) = 0x00000391 ∧
  encode (.satd4S .zero) = 0x00000023 ∧ encode (.sa8dH .b) = 0x00000014 ∧ encode .fdistH = 0x00000017 ∧
  (∀ i : Instr, i.wellFormed = true → decode (encode i) = .ok i) ∧
  (∀ w i, decode w = .ok i → encode i = w)

/-- R97: a word selects a row of the opcode map exactly when it decodes to a command of that row's mnemonic; the
rows are disjoint; a word that selects no row is illegal; and there are 49 legal words. -/
def Obligations.OpcodeMapDescribesDecode : Prop :=
  (∀ row ∈ opcodeMap, ∀ w : Half,
    row.selects w = true ↔ ∃ i, decode w = .ok i ∧ i.mnemonic = row.mnemonic) ∧
  (opcodeMap.Pairwise fun row row' => ∀ w : Half, ¬(row.selects w = true ∧ row'.selects w = true)) ∧
  (∀ w : Half, (∀ row ∈ opcodeMap, row.selects w = false) → ∃ e, decode w = .error e) ∧
  (∃ words : List Half, words.Nodup ∧ words.length = 49 ∧ ∀ w, w ∈ words ↔ ∃ i, decode w = .ok i)

/-- R98: a word is illegal exactly when a bit of 31:10 is 1, op is 8 to 14, or a field the command does not use is not
zero; and every illegal word written to CMD while the unit is IDLE raises IllegalCommand. -/
def Obligations.IllegalWordsAreThoseOfTheThreeClauses : Prop :=
  (∀ w : Half, (∃ e, decode w = .error e) ↔
    (w.toNat / 1024 ≠ 0 ∨ (8 ≤ w.toNat % 16 ∧ w.toNat % 16 ≤ 14) ∨
      (w.toNat / 32 % 2 ≠ 0 ∧ w.toNat % 16 ≠ 3 ∧ w.toNat % 16 ≠ 4) ∨
      (w.toNat / 64 % 16 ≠ 0 ∧ w.toNat % 16 ≠ 1) ∨
      (w.toNat / 16 % 2 ≠ 0 ∧ (w.toNat % 16 = 0 ∨ w.toNat % 16 = 6 ∨ w.toNat % 16 = 15)))) ∧
  (∀ (w : Half) (s : State), s.isIdle = true → (∃ e, decode w = .error e) →
    ∃ t, hostWrite 0 (w.setWidth 64) s = .next t ∧ t.run = .faulted .illegalCommand ∧
      t.regs.finfo = w.setWidth 64)

/-! ### Steps and the host port (10_state.md, 30_encoding.md R92) -/

/-- When the host's next action writes to CMD a value whose low half decodes to a well-formed command, and no event
falls before the completion, the step is `exec` of that command, the action taken off the list and bits 63:32 of the
value ignored; and a word placed by `withFetchWord` is run so. -/
def Obligations.StepRunsTheWrittenCommand : Prop :=
  (∀ (s : State) (v : Word) (rest : List HostAction) (i : Instr),
    s.isIdle = true → s.host = .write 0 v :: rest → decode (v.setWidth 32) = .ok i → i.wellFormed = true →
    (s.latency = [] → step s = exec i { s with host := rest }) ∧
    (∀ later, s.latency = 0 :: later → step s = exec i { s with host := rest, latency := later })) ∧
  (∀ (s : State) (w : Nat) (i : Instr), s.isIdle = true → decode (BitVec.ofNat 32 w) = .ok i → w < 2 ^ 32 →
    step (s.withFetchWord 32 w) = exec i { s with latency := [], earlier := [] })

/-- 10_state.md R37: while BUSY, STATUS reads exactly 1, any other register reads as an unspecified value, and every
write is dropped. That such a read moves the model's counter `fresh` on is log entry 3. -/
def Obligations.BusyUnitDropsWrites : Prop :=
  ∀ (s : State) (i : Instr) (left : Option Nat), s.run = .busy i left →
    (∀ n v, hostWrite n v s = .next s) ∧
    hostRead 1 s = { s with readData := 1 } ∧
    (∀ n, n ≠ 1 → ∃ x, hostRead n s = { s with readData := x, fresh := s.fresh + 1 })

/-- 10_state.md R38: while FAULTED every register reads exactly, the `RST` word resets, and every other write is
dropped. -/
def Obligations.FaultedUnitTakesOnlyTheResetWord : Prop :=
  ∀ (s : State) (c : Cause), s.run = .faulted c →
    (∀ n, hostRead n s = { s with readData := regRead s n }) ∧
    (∀ v : Word, v.setWidth 32 = 0x0000000F#32 →
      hostWrite 0 v s = .next { s with regs := Regs.zero, run := .idle false, earlier := [] }) ∧
    (∀ (n : BitVec 5) (v : Word), ¬(n = 0 ∧ v.setWidth 32 = 0x0000000F#32) → hostWrite n v s = .next s)

/-- 10_state.md R26, R31 to R36, the register map while IDLE: which register each number shows, which one a write to
each number stores and how many of its bits; a read answers that value and changes nothing; a write to a read-only or
reserved number changes nothing, and one to any number but CMD changes no register of another number. (CMD is the
doorbell, see `StepRunsTheWrittenCommand` and `IllegalCommandRecordsTheWord`.) -/
def Obligations.HostWriteStoresTheImplementedBits : Prop :=
  (∀ s : State,
    regRead s 0 = 0 ∧ regRead s 1 = s.status.setWidth 64 ∧ regRead s 2 = s.regs.finfo ∧
    regRead s 3 = s.regs.result ∧ regRead s 4 = s.regs.w0 ∧ regRead s 5 = s.regs.w1 ∧ regRead s 6 = s.regs.w2 ∧
    regRead s 7 = s.regs.w3 ∧ regRead s 8 = s.regs.aBase ∧ regRead s 9 = s.regs.aOff.setWidth 64 ∧
    regRead s 10 = s.regs.aStride.setWidth 64 ∧ regRead s 11 = s.regs.bBase ∧
    regRead s 12 = s.regs.bOff.setWidth 64 ∧ regRead s 13 = s.regs.bStride.setWidth 64 ∧
    regRead s 14 = s.regs.width.setWidth 64 ∧ regRead s 15 = s.regs.height.setWidth 64 ∧
    regRead s 16 = s.regs.biasBase ∧ regRead s 17 = s.regs.biasEff ∧ regRead s 18 = s.regs.intra.setWidth 64 ∧
    regRead s 19 = s.regs.tlayer.setWidth 64 ∧ ∀ n : BitVec 5, 20 ≤ n.toNat → regRead s n = 0) ∧
  (∀ (s : State) (n : BitVec 5), s.isIdle = true → hostRead n s = { s with readData := regRead s n }) ∧
  (∀ (s : State) (v : Word), s.isIdle = true →
    hostWrite 4 v s = .next { s with regs := { s.regs with w0 := v } } ∧
    hostWrite 5 v s = .next { s with regs := { s.regs with w1 := v } } ∧
    hostWrite 6 v s = .next { s with regs := { s.regs with w2 := v } } ∧
    hostWrite 7 v s = .next { s with regs := { s.regs with w3 := v } } ∧
    hostWrite 8 v s = .next { s with regs := { s.regs with aBase := v } } ∧
    hostWrite 9 v s = .next { s with regs := { s.regs with aOff := v.setWidth 32 } } ∧
    hostWrite 10 v s = .next { s with regs := { s.regs with aStride := v.setWidth 32 } } ∧
    hostWrite 11 v s = .next { s with regs := { s.regs with bBase := v } } ∧
    hostWrite 12 v s = .next { s with regs := { s.regs with bOff := v.setWidth 32 } } ∧
    hostWrite 13 v s = .next { s with regs := { s.regs with bStride := v.setWidth 32 } } ∧
    hostWrite 14 v s = .next { s with regs := { s.regs with width := v.setWidth 32 } } ∧
    hostWrite 15 v s = .next { s with regs := { s.regs with height := v.setWidth 32 } } ∧
    hostWrite 16 v s = .next { s with regs := { s.regs with biasBase := v } } ∧
    hostWrite 18 v s = .next { s with regs := { s.regs with intra := v.setWidth 1 } } ∧
    hostWrite 19 v s = .next { s with regs := { s.regs with tlayer := v.setWidth 32 } } ∧
    ∀ n : BitVec 5, n.toNat ∈ [1, 2, 3, 17] ∨ 20 ≤ n.toNat → hostWrite n v s = .next s) ∧
  (∀ (s : State) (n : BitVec 5) (v : Word), s.isIdle = true → n ≠ 0 →
    ∃ t, hostWrite n v s = .next t ∧
      (writableBits n ≠ 0 → regRead t n = v &&& writableBits n) ∧
      (writableBits n = 0 → regRead t n = regRead s n) ∧
      (∀ m, m ≠ n → regRead t m = regRead s m) ∧ t.run = s.run ∧ sameSurroundings s t)

/-- 10_state.md R27, R48, 60_exceptions.md R261: the value of STATUS in each run state and for each cause; at most one of
BUSY, DONE and FAULT is 1, bits 7:3 are zero, and CAUSE is zero unless FAULT is. 30_encoding.md R101: `WAIT` reads STATUS
and is done once BUSY is 0, and stays to be done again while BUSY is 1 (as an action of the host's list, log entry 8).
That each such read counts the BUSY window down by one, and that a window that has passed ends with the command's
completion before the host acts again, is the model's choice of log entries 7 and 16. -/
def Obligations.StatusShowsOneFlag : Prop :=
  (∀ s : State,
    (s.run = .idle false → s.status = 0) ∧ (s.run = .idle true → s.status = 2) ∧
    (∀ i left, s.run = .busy i left → s.status = 1) ∧
    (s.run = .faulted .illegalCommand → s.status = 0x0104) ∧ (s.run = .faulted .geometry → s.status = 0x0204) ∧
    (s.run = .faulted .misaligned → s.status = 0x0304) ∧ (s.run = .faulted .memError → s.status = 0x0404) ∧
    (s.run = .faulted .numeric → s.status = 0x0504) ∧
    s.status.getLsbD 0 = busyFlag s.run ∧ s.status.getLsbD 1 = doneFlag s.run ∧
    s.status.getLsbD 2 = faultFlag s.run ∧
    (busyFlag s.run).toNat + (doneFlag s.run).toNat + (faultFlag s.run).toNat ≤ 1 ∧
    s.status.extractLsb' 3 5 = 0 ∧
    (s.status.getLsbD 2 = false → s.status.extractLsb' 8 8 = 0) ∧
    regRead s 1 = s.status.setWidth 64) ∧
  (∀ (s : State) (rest : List HostAction), s.host = .wait :: rest →
    (s.status.getLsbD 0 = false →
      step s = .next { s with host := rest, readData := s.status.setWidth 64 }) ∧
    (∀ i k, s.run = .busy i (some (k + 1)) →
      step s = .next { s with run := .busy i (some k), readData := 1 }) ∧
    (∀ i, s.run = .busy i none → step s = .next { s with readData := 1 }) ∧
    (∀ i, s.run = .busy i (some 0) → step s = exec i { s with run := .idle false }))

/-- 10_state.md R36: a byte-mapped access of 64 bits at offset 8n is the access of register n; one that is narrower,
wider or not aligned is refused. -/
def Obligations.OnlyWholeRegistersAreAccessible : Prop :=
  (∀ (n : BitVec 5) (v : Word) (s : State),
    perform (.windowRead (8 * n.toNat) 8) s = perform (.read n) s ∧
    perform (.windowWrite (8 * n.toNat) 8 v) s = perform (.write n v) s) ∧
  (∀ (offset size : Nat) (v : Word) (s : State), offset < 256 → (size ≠ 8 ∨ offset % 8 ≠ 0) →
    perform (.windowRead offset size) s = .refused (.partialAccess offset size) ∧
    perform (.windowWrite offset size v) s = .refused (.partialAccess offset size))

/-! ### System commands and reset (45_system.md, 70_reset_and_hazards.md) -/

/-- 45_system.md R251: `NOP` completes and changes nothing but STATUS; it is dropped while BUSY or FAULTED; from the
reset state STATUS becomes 2. -/
def Obligations.NopChangesOnlyStatus : Prop :=
  encode .nop = 0 ∧
  (∀ s : State, s.isIdle = true → exec .nop s = .next { s with run := .idle true, earlier := [] }) ∧
  (∀ s : State, s.isIdle = false → exec .nop s = .next s) ∧
  (∃ t, step (State.reset.withFetchWord 32 0) = .next t ∧ t.status = 2)

/-- 45_system.md R252: `RST` zeroes every register and leaves the unit IDLE with DONE = 0, from IDLE and from FAULTED;
it touches nothing outside the unit; while BUSY it is dropped; it takes effect within its CMD write, whatever the
platform's latency; it is the only write with an effect while FAULTED; and no other word with op = 15 is `RST`. -/
def Obligations.RstResetsTheUnit : Prop :=
  encode .rst = 0x0000000F#32 ∧
  (∀ s : State, busyFlag s.run = false →
    exec .rst s = .next { s with regs := Regs.zero, run := .idle false, earlier := [] }) ∧
  (∀ s : State, busyFlag s.run = true → exec .rst s = .next s) ∧
  (∀ (s : State) (v : Word), busyFlag s.run = false → v.setWidth 32 = 0x0000000F#32 →
    ∃ t, hostWrite 0 v s = .next t ∧ (∀ n, regRead t n = 0) ∧ t.run = .idle false ∧ t.status = 0 ∧ t.mem = s.mem) ∧
  (∀ (s : State) (c : Cause) (n : BitVec 5) (v : Word), s.run = .faulted c →
    ¬(n = 0 ∧ v.setWidth 32 = 0x0000000F#32) → hostWrite n v s = .next s) ∧
  (∀ v : Word, v.extractLsb' 0 4 = 15#4 → v.setWidth 32 ≠ 0x0000000F#32 →
    (∀ s : State, s.isIdle = true → ∃ t, hostWrite 0 v s = .next t ∧ t.run = .faulted .illegalCommand) ∧
    (∀ (s : State) (c : Cause), s.run = .faulted c → hostWrite 0 v s = .next s))

/-- 70_reset_and_hazards.md R290, R291: after reset every register number reads zero and the unit is IDLE; hard reset is
taken in every run state, BUSY included, and leaves the unit so, the running command writing nothing, while memory and
the rest of the world stay. -/
def Obligations.ResetLeavesEveryRegisterZero : Prop :=
  (∀ n, regRead State.reset n = 0) ∧ State.reset.run = .idle false ∧ State.reset.status = 0 ∧
  (∀ s : State, ∃ t, perform .hardReset s = .next t ∧ t.run = .idle false ∧ (∀ n, regRead t n = 0) ∧
    sameSurroundings s t)

/-! ### ABS2 and HAD4 (40_packed_abs.md, 41_hadamard4.md) -/

/-- 40_packed_abs.md R123: every backing word stands for exactly one pair of signed lanes, and adding or subtracting
words adds or subtracts their lanes as long as the lane results fit. -/
def Obligations.EveryWordIsOnePairOfLanes : Prop :=
  (∀ a : BitVec 32, laneFits 16 (loLane 16 a) ∧ laneFits 16 (hiLane 16 a) ∧
    BitVec.ofInt 32 (loLane 16 a + hiLane 16 a * 2 ^ 16) = a) ∧
  (∀ lo hi : Int, laneFits 16 lo → laneFits 16 hi →
    loLane 16 (BitVec.ofInt 32 (lo + hi * 2 ^ 16)) = lo ∧ hiLane 16 (BitVec.ofInt 32 (lo + hi * 2 ^ 16)) = hi) ∧
  (∀ a b : BitVec 32,
    (laneFits 16 (loLane 16 a + loLane 16 b) → laneFits 16 (hiLane 16 a + hiLane 16 b) →
      loLane 16 (a + b) = loLane 16 a + loLane 16 b ∧ hiLane 16 (a + b) = hiLane 16 a + hiLane 16 b) ∧
    (laneFits 16 (loLane 16 a - loLane 16 b) → laneFits 16 (hiLane 16 a - hiLane 16 b) →
      loLane 16 (a - b) = loLane 16 a - loLane 16 b ∧ hiLane 16 (a - b) = hiLane 16 a - hiLane 16 b)) ∧
  (∀ a : BitVec 64, laneFits 32 (loLane 32 a) ∧ laneFits 32 (hiLane 32 a) ∧
    BitVec.ofInt 64 (loLane 32 a + hiLane 32 a * 2 ^ 32) = a) ∧
  (∀ lo hi : Int, laneFits 32 lo → laneFits 32 hi →
    loLane 32 (BitVec.ofInt 64 (lo + hi * 2 ^ 32)) = lo ∧ hiLane 32 (BitVec.ofInt 64 (lo + hi * 2 ^ 32)) = hi) ∧
  (∀ a b : BitVec 64,
    (laneFits 32 (loLane 32 a + loLane 32 b) → laneFits 32 (hiLane 32 a + hiLane 32 b) →
      loLane 32 (a + b) = loLane 32 a + loLane 32 b ∧ hiLane 32 (a + b) = hiLane 32 a + hiLane 32 b) ∧
    (laneFits 32 (loLane 32 a - loLane 32 b) → laneFits 32 (hiLane 32 a - hiLane 32 b) →
      loLane 32 (a - b) = loLane 32 a - loLane 32 b ∧ hiLane 32 (a - b) = hiLane 32 a - hiLane 32 b))

/-- 40_packed_abs.md R124, the lane law: for every word, the packed absolute value is the magnitude of the low lane
plus 2^W times the magnitude of the high lane, the lanes -2^(W-1) included. -/
def Obligations.PackedAbsIsTheLaneMagnitudes : Prop :=
  (∀ a : BitVec 32, (abs2 16 a).toNat = (loLane 16 a).natAbs + (hiLane 16 a).natAbs * 2 ^ 16 ∧
    (loLane 16 a).natAbs ≤ 2 ^ 15 ∧ (hiLane 16 a).natAbs ≤ 2 ^ 15) ∧
  (∀ a : BitVec 64, (abs2 32 a).toNat = (loLane 32 a).natAbs + (hiLane 32 a).natAbs * 2 ^ 32 ∧
    (loLane 32 a).natAbs ≤ 2 ^ 31 ∧ (hiLane 32 a).natAbs ≤ 2 ^ 31)

/-- 40_packed_abs.md R126: `ABS2.L16` completes, writes to W[rd] the magnitudes of the two 16-bit lanes of the low
half of W[rs], zero above bit 31, and changes nothing else but STATUS; rd and rs may be equal. -/
def Obligations.Abs2L16WritesTheLaneMagnitudes : Prop :=
  (∀ rd rs : WReg, (encode (.abs2L16 rd rs)).toNat = 0x001 + 0x040 * wregIndex rd + 0x100 * wregIndex rs) ∧
  ∀ (rd rs : WReg) (s : State), s.isIdle = true →
    ∃ v : Word, exec (.abs2L16 rd rs) s =
        .next { s with regs := s.regs.setW rd v, run := .idle true, earlier := [] } ∧
      v.toNat = (loLane 16 ((s.regs.getW rs).setWidth 32)).natAbs +
        (hiLane 16 ((s.regs.getW rs).setWidth 32)).natAbs * 2 ^ 16

/-- 40_packed_abs.md R127: `ABS2.L32` completes, writes to W[rd] the magnitudes of the two 32-bit lanes of W[rs], and
changes nothing else but STATUS. -/
def Obligations.Abs2L32WritesTheLaneMagnitudes : Prop :=
  (∀ rd rs : WReg, (encode (.abs2L32 rd rs)).toNat = 0x011 + 0x040 * wregIndex rd + 0x100 * wregIndex rs) ∧
  ∀ (rd rs : WReg) (s : State), s.isIdle = true →
    ∃ v : Word, exec (.abs2L32 rd rs) s =
        .next { s with regs := s.regs.setW rd v, run := .idle true, earlier := [] } ∧
      v.toNat = (loLane 32 (s.regs.getW rs)).natAbs + (hiLane 32 (s.regs.getW rs)).natAbs * 2 ^ 32

/-- 41_hadamard4.md R141: the outputs of the butterfly are the exact signed sums reduced mod 2^N, and applying it
twice multiplies each word by 4 mod 2^N. -/
def Obligations.ButterflyIsExactModTwoToTheN : Prop :=
  ∀ (N : Nat) (w x y z : BitVec N),
    (had4 w x y z).a = BitVec.ofInt N ((w.toNat : Int) + x.toNat + y.toNat + z.toNat) ∧
    (had4 w x y z).b = BitVec.ofInt N ((w.toNat : Int) + x.toNat - y.toNat - z.toNat) ∧
    (had4 w x y z).c = BitVec.ofInt N ((w.toNat : Int) - x.toNat + y.toNat - z.toNat) ∧
    (had4 w x y z).d = BitVec.ofInt N ((w.toNat : Int) - x.toNat - y.toNat + z.toNat) ∧
    had4 (had4 w x y z).a (had4 w x y z).b (had4 w x y z).c (had4 w x y z).d =
      ⟨BitVec.ofNat N (4 * w.toNat), BitVec.ofNat N (4 * x.toNat), BitVec.ofNat N (4 * y.toNat),
        BitVec.ofNat N (4 * z.toNat)⟩

/-- 41_hadamard4.md R143: read as packed words, the butterfly acts lane by lane while every intermediate and final
lane value fits its lane. -/
def Obligations.ButterflyActsLaneByLane : Prop :=
  (∀ w x y z : BitVec 32,
    (∀ lane ∈ [loLane (N := 32) 16, hiLane 16],
      laneFits 16 (lane w + lane x) ∧ laneFits 16 (lane w - lane x) ∧
      laneFits 16 (lane y + lane z) ∧ laneFits 16 (lane y - lane z) ∧
      laneFits 16 (lane w + lane x + lane y + lane z) ∧ laneFits 16 (lane w + lane x - lane y - lane z) ∧
      laneFits 16 (lane w - lane x + lane y - lane z) ∧ laneFits 16 (lane w - lane x - lane y + lane z)) →
    ∀ lane ∈ [loLane (N := 32) 16, hiLane 16],
      lane (had4 w x y z).a = lane w + lane x + lane y + lane z ∧
      lane (had4 w x y z).b = lane w + lane x - lane y - lane z ∧
      lane (had4 w x y z).c = lane w - lane x + lane y - lane z ∧
      lane (had4 w x y z).d = lane w - lane x - lane y + lane z) ∧
  (∀ w x y z : BitVec 64,
    (∀ lane ∈ [loLane (N := 64) 32, hiLane 32],
      laneFits 32 (lane w + lane x) ∧ laneFits 32 (lane w - lane x) ∧
      laneFits 32 (lane y + lane z) ∧ laneFits 32 (lane y - lane z) ∧
      laneFits 32 (lane w + lane x + lane y + lane z) ∧ laneFits 32 (lane w + lane x - lane y - lane z) ∧
      laneFits 32 (lane w - lane x + lane y - lane z) ∧ laneFits 32 (lane w - lane x - lane y + lane z)) →
    ∀ lane ∈ [loLane (N := 64) 32, hiLane 32],
      lane (had4 w x y z).a = lane w + lane x + lane y + lane z ∧
      lane (had4 w x y z).b = lane w + lane x - lane y - lane z ∧
      lane (had4 w x y z).c = lane w - lane x + lane y - lane z ∧
      lane (had4 w x y z).d = lane w - lane x - lane y + lane z)

/-- 41_hadamard4.md R144: `HAD4.B32` completes; W0 to W3 receive the four signed sums of their low halves mod 2^32,
zero-extended, all sources read first; nothing else but STATUS changes. -/
def Obligations.Had4B32WritesTheFourSums : Prop :=
  encode .had4B32 = 0x00000002#32 ∧
  ∀ (s : State) (w x y z : Int), s.isIdle = true →
    w = (s.regs.w0.toNat % 2 ^ 32 : Nat) → x = (s.regs.w1.toNat % 2 ^ 32 : Nat) →
    y = (s.regs.w2.toNat % 2 ^ 32 : Nat) → z = (s.regs.w3.toNat % 2 ^ 32 : Nat) →
    exec .had4B32 s = .next { s with
      regs := { s.regs with
        w0 := BitVec.ofInt 64 ((w + x + y + z) % 2 ^ 32)
        w1 := BitVec.ofInt 64 ((w + x - y - z) % 2 ^ 32)
        w2 := BitVec.ofInt 64 ((w - x + y - z) % 2 ^ 32)
        w3 := BitVec.ofInt 64 ((w - x - y + z) % 2 ^ 32) }
      run := .idle true
      earlier := [] }

/-- 41_hadamard4.md R145: `HAD4.B64` completes; W0 to W3 receive their four signed sums mod 2^64; nothing else but
STATUS changes. -/
def Obligations.Had4B64WritesTheFourSums : Prop :=
  encode .had4B64 = 0x00000012#32 ∧
  ∀ (s : State) (w x y z : Int), s.isIdle = true →
    w = (s.regs.w0.toNat : Int) → x = (s.regs.w1.toNat : Int) →
    y = (s.regs.w2.toNat : Int) → z = (s.regs.w3.toNat : Int) →
    exec .had4B64 s = .next { s with
      regs := { s.regs with
        w0 := BitVec.ofInt 64 (w + x + y + z)
        w1 := BitVec.ofInt 64 (w + x - y - z)
        w2 := BitVec.ofInt 64 (w - x + y - z)
        w3 := BitVec.ofInt 64 (w - x - y + z) }
      run := .idle true
      earlier := [] }

/-! ### Block energy (42_block_energy.md) -/

/-- 42_block_energy.md R162, the matrix law: for every pair of tiles of storable samples, the packed 4x4 estimator is
half the sum of the magnitudes of the coefficients H4 * D * H4 (with the second row stage) or H4 * D * G (without),
rounded down, at both depths. -/
def Obligations.Satd4IsTheTransformEnergy : Prop :=
  (∀ (stage2 : Bool) (S R : Tile), S.boundedBy 4 255 → R.boundedBy 4 255 →
    (satd4 (N := 32) 16 stage2 S R).toNat = magnitudeSum (coefficients4 stage2 S R) / 2) ∧
  (∀ (stage2 : Bool) (S R : Tile), S.boundedBy 4 65535 → R.boundedBy 4 65535 →
    (satd4 (N := 64) 32 stage2 S R).toNat = magnitudeSum (coefficients4 stage2 S R) / 2)

/-- 42_block_energy.md R171, the matrix law of the 8x8 estimator: a quarter of the sum of the magnitudes of the
coefficients H8 * D * H8^T, rounded half up, at both depths. -/
def Obligations.Sa8dIsTheTransformEnergy : Prop :=
  (∀ S R : Tile, S.boundedBy 8 255 → R.boundedBy 8 255 →
    (sa8d (N := 32) 16 S R).toNat = (magnitudeSum (coefficients8 S R) + 2) / 4) ∧
  (∀ S R : Tile, S.boundedBy 8 65535 → R.boundedBy 8 65535 →
    (sa8d (N := 64) 32 S R).toNat = (magnitudeSum (coefficients8 S R) + 2) / 4)

/-- 42_block_energy.md R163: the 4x4 estimator with its second row stage is zero on equal tiles, symmetric, the same
at both lane widths for samples up to 255, at most 32 * SMAX, 8v on a flat tile, on a single sample and on the
checkerboard, and at least half the sum of the samples against ZERO. -/
def Obligations.Satd4Consequences : Prop :=
  (∀ S : Tile, satd4 (N := 32) 16 true S S = 0 ∧ satd4 (N := 64) 32 true S S = 0) ∧
  (∀ S R : Tile, S.boundedBy 4 255 → R.boundedBy 4 255 →
    satd4 (N := 32) 16 true S R = satd4 16 true R S ∧
    (satd4 (N := 32) 16 true S R).toNat = (satd4 (N := 64) 32 true S R).toNat ∧
    (satd4 (N := 32) 16 true S R).toNat ≤ 8160 ∧
    ((tileSamples S 4).sum) / 2 ≤ (satd4 (N := 32) 16 true S zeroTile).toNat) ∧
  (∀ S R : Tile, S.boundedBy 4 65535 → R.boundedBy 4 65535 →
    satd4 (N := 64) 32 true S R = satd4 32 true R S ∧
    (satd4 (N := 64) 32 true S R).toNat ≤ 2097120 ∧
    ((tileSamples S 4).sum) / 2 ≤ (satd4 (N := 64) 32 true S zeroTile).toNat) ∧
  (∀ v ≤ 65535, ∀ r0 < 4, ∀ c0 < 4,
    ∀ T ∈ [(fun _ _ => v : Tile), (fun r c => if r = r0 ∧ c = c0 then v else 0),
      (fun r c => if (r + c) % 2 = 1 then v else 0)],
      (satd4 (N := 64) 32 true T zeroTile).toNat = 8 * v ∧
      (v ≤ 255 → (satd4 (N := 32) 16 true T zeroTile).toNat = 8 * v))

/-- 42_block_energy.md R172: the 8x8 estimator is zero on equal tiles, symmetric, the same at both lane widths for
samples up to 255, at most 32640 (standard) and 8388480 (high), 16v on a flat tile and on a single sample, and at
least a quarter of the sum of the samples against ZERO, rounded half up. -/
def Obligations.Sa8dConsequences : Prop :=
  (∀ S : Tile, sa8d (N := 32) 16 S S = 0 ∧ sa8d (N := 64) 32 S S = 0) ∧
  (∀ S R : Tile, S.boundedBy 8 255 → R.boundedBy 8 255 →
    sa8d (N := 32) 16 S R = sa8d 16 R S ∧
    (sa8d (N := 32) 16 S R).toNat = (sa8d (N := 64) 32 S R).toNat ∧
    (sa8d (N := 32) 16 S R).toNat ≤ 32640 ∧
    ((tileSamples S 8).sum + 2) / 4 ≤ (sa8d (N := 32) 16 S zeroTile).toNat) ∧
  (∀ S R : Tile, S.boundedBy 8 65535 → R.boundedBy 8 65535 →
    sa8d (N := 64) 32 S R = sa8d 32 R S ∧
    (sa8d (N := 64) 32 S R).toNat ≤ 8388480 ∧
    ((tileSamples S 8).sum + 2) / 4 ≤ (sa8d (N := 64) 32 S zeroTile).toNat) ∧
  (∀ v ≤ 65535, ∀ r0 < 8, ∀ c0 < 8,
    ∀ T ∈ [(fun _ _ => v : Tile), (fun r c => if r = r0 ∧ c = c0 then v else 0)],
      (sa8d (N := 64) 32 T zeroTile).toNat = 16 * v ∧
      (v ≤ 255 → (sa8d (N := 32) 16 T zeroTile).toNat = 16 * v))

/-- 42_block_energy.md R173: the 8x8 checkerboard of 0 and v, and its complement, have energy 16v against ZERO, and
8v after the DC correction under SadExact; the golden constants are 4080, 16368 and 65520. -/
def Obligations.CheckerboardConstants : Prop :=
  (∀ v ≤ 65535, ∀ p < 2,
    (sa8d (N := 64) 32 (fun r c => if (r + c) % 2 = p then v else 0) zeroTile).toNat = 16 * v ∧
    energy .exact (fun r c => if (r + c) % 2 = p then v else 0) 8 .high = 8 * v ∧
    (v ≤ 255 →
      (sa8d (N := 32) 16 (fun r c => if (r + c) % 2 = p then v else 0) zeroTile).toNat = 16 * v ∧
      energy .exact (fun r c => if (r + c) % 2 = p then v else 0) 8 .standard = 8 * v)) ∧
  (sa8d (N := 32) 16 (fun r c => if (r + c) % 2 = 1 then 255 else 0) zeroTile).toNat = 4080 ∧
  (sa8d (N := 64) 32 (fun r c => if (r + c) % 2 = 1 then 1023 else 0) zeroTile).toNat = 16368 ∧
  (sa8d (N := 64) 32 (fun r c => if (r + c) % 2 = 1 then 4095 else 0) zeroTile).toNat = 65520

/-- 42_block_energy.md R181: the acceptance checks of the four tile commands, in their order; a check that fails
faults with the named cause and changes nothing but STATUS and FINFO; with z = 1 nothing of view B is checked. -/
def Obligations.TileCommandsCheckInOrder : Prop :=
  ∀ p ∈ tileCommands, ∀ (ref : RefSel) (s : State), s.isIdle = true →
    (¬viewFits s.regs p.2.2 .a (p.2.1 - 1) (p.2.1 - 1) →
      endsInFault (p.1 ref) s .geometry 5) ∧
    (viewFits s.regs p.2.2 .a (p.2.1 - 1) (p.2.1 - 1) → ref = .b →
      ¬viewFits s.regs p.2.2 .b (p.2.1 - 1) (p.2.1 - 1) →
      endsInFault (p.1 ref) s .geometry 5) ∧
    (viewFits s.regs p.2.2 .a (p.2.1 - 1) (p.2.1 - 1) →
      (ref = .b → viewFits s.regs p.2.2 .b (p.2.1 - 1) (p.2.1 - 1)) →
      p.2.2 = .high → ¬baseEven s.regs .a →
      endsInFault (p.1 ref) s .misaligned s.regs.aBase) ∧
    (viewFits s.regs p.2.2 .a (p.2.1 - 1) (p.2.1 - 1) → ref = .b →
      viewFits s.regs p.2.2 .b (p.2.1 - 1) (p.2.1 - 1) →
      p.2.2 = .high → baseEven s.regs .a → ¬baseEven s.regs .b →
      endsInFault (p.1 ref) s .misaligned s.regs.bBase) ∧
    (acceptanceFault (p.1 ref) s.regs = none ↔ tileAccepted p.2.1 p.2.2 ref s.regs)

/-- 42_block_energy.md R182, R183: on an IDLE unit whose tile is accepted and readable, `SATD4.S` and `SATD4.H`
complete; RESULT is the 4x4 estimator of R160 of the samples as memory holds them, with the second row stage (R161 with
SATD4_ROW_STAGE2 = true, log entry 12), and nothing else but STATUS changes. -/
def Obligations.Satd4CommandsWriteTheEstimate : Prop :=
  (∀ (ref : RefSel) (s : State), s.isIdle = true → tileAccepted 4 .standard ref s.regs →
    s.samplesReady .standard (tileReads 4 ref) →
    exec (.satd4S ref) s = .next { s with
      regs := { s.regs with
        result := (satd4 (N := 32) 16 true (memSample s.mem s.regs .standard .a)
          (memReference s.mem s.regs .standard ref)).setWidth 64 }
      run := .idle true
      earlier := [] }) ∧
  (∀ (ref : RefSel) (s : State), s.isIdle = true → tileAccepted 4 .high ref s.regs →
    s.samplesReady .high (tileReads 4 ref) →
    exec (.satd4H ref) s = .next { s with
      regs := { s.regs with
        result := satd4 32 true (memSample s.mem s.regs .high .a) (memReference s.mem s.regs .high ref) }
      run := .idle true
      earlier := [] })

/-- 42_block_energy.md R184, R185: the same for `SA8D.S` and `SA8D.H` and the 8x8 estimator. -/
def Obligations.Sa8dCommandsWriteTheEstimate : Prop :=
  (∀ (ref : RefSel) (s : State), s.isIdle = true → tileAccepted 8 .standard ref s.regs →
    s.samplesReady .standard (tileReads 8 ref) →
    exec (.sa8dS ref) s = .next { s with
      regs := { s.regs with
        result := (sa8d (N := 32) 16 (memSample s.mem s.regs .standard .a)
          (memReference s.mem s.regs .standard ref)).setWidth 64 }
      run := .idle true
      earlier := [] }) ∧
  (∀ (ref : RefSel) (s : State), s.isIdle = true → tileAccepted 8 .high ref s.regs →
    s.samplesReady .high (tileReads 8 ref) →
    exec (.sa8dH ref) s = .next { s with
      regs := { s.regs with
        result := sa8d 32 (memSample s.mem s.regs .high .a) (memReference s.mem s.regs .high ref) }
      run := .idle true
      earlier := [] })

/-! ### The aggregator (43_aggregator.md) -/

/-- 43_aggregator.md R192, 60_exceptions.md R271: the acceptance checks of the four region commands, in their order;
the first that fails decides the fault, which changes nothing but STATUS and FINFO. The tile size n is 8 exactly when
WIDTH and HEIGHT are at least 8, else 4 (R191), with R192's examples: 12 x 8 and 6 x 8 fault with Geometry(1), 8 x 12
with Geometry(2), and 4 x 12 and 12 x 4 pass the checks of the dimensions. -/
def Obligations.RegionCommandsCheckInOrder : Prop :=
  (∀ r : Regs, tileSize r = if 8 ≤ r.width.toNat ∧ 8 ≤ r.height.toNat then 8 else 4) ∧
  ∀ p ∈ regionCommands, ∀ s : State, s.isIdle = true →
    (s.regs.width = 12 → s.regs.height = 8 → endsInFault p.1 s .geometry 1) ∧
    (s.regs.width = 8 → s.regs.height = 12 → endsInFault p.1 s .geometry 2) ∧
    (s.regs.width = 6 → s.regs.height = 8 → endsInFault p.1 s .geometry 1) ∧
    ((s.regs.width = 4 ∧ s.regs.height = 12) ∨ (s.regs.width = 12 ∧ s.regs.height = 4) → tileSize s.regs = 4 ∧
      tileSize s.regs ∣ s.regs.width.toNat ∧ tileSize s.regs ∣ s.regs.height.toNat) ∧
    (¬tileSize s.regs ∣ s.regs.width.toNat → endsInFault p.1 s .geometry 1) ∧
    (tileSize s.regs ∣ s.regs.width.toNat → ¬tileSize s.regs ∣ s.regs.height.toNat → endsInFault p.1 s .geometry 2) ∧
    (tileSize s.regs ∣ s.regs.width.toNat → tileSize s.regs ∣ s.regs.height.toNat →
      s.regs.aStride.toNat < s.regs.width.toNat → endsInFault p.1 s .geometry 3) ∧
    (tileSize s.regs ∣ s.regs.width.toNat → tileSize s.regs ∣ s.regs.height.toNat →
      s.regs.width.toNat ≤ s.regs.aStride.toNat → s.regs.bStride.toNat < s.regs.width.toNat →
      endsInFault p.1 s .geometry 4) ∧
    (tileSize s.regs ∣ s.regs.width.toNat → tileSize s.regs ∣ s.regs.height.toNat →
      s.regs.width.toNat ≤ s.regs.aStride.toNat → s.regs.width.toNat ≤ s.regs.bStride.toNat →
      0 < s.regs.width.toNat → 0 < s.regs.height.toNat →
      (¬viewFits s.regs p.2 .a (s.regs.height.toNat - 1) (s.regs.width.toNat - 1) ∨
        ¬viewFits s.regs p.2 .b (s.regs.height.toNat - 1) (s.regs.width.toNat - 1)) → endsInFault p.1 s .geometry 5) ∧
    (tileSize s.regs ∣ s.regs.width.toNat → tileSize s.regs ∣ s.regs.height.toNat →
      s.regs.width.toNat ≤ s.regs.aStride.toNat → s.regs.width.toNat ≤ s.regs.bStride.toNat →
      (0 < s.regs.width.toNat → 0 < s.regs.height.toNat →
        viewFits s.regs p.2 .a (s.regs.height.toNat - 1) (s.regs.width.toNat - 1) ∧
        viewFits s.regs p.2 .b (s.regs.height.toNat - 1) (s.regs.width.toNat - 1)) →
      p.2 = .high →
      (¬baseEven s.regs .a → endsInFault p.1 s .misaligned s.regs.aBase) ∧
      (baseEven s.regs .a → ¬baseEven s.regs .b → endsInFault p.1 s .misaligned s.regs.bBase)) ∧
    (acceptanceFault p.1 s.regs = none ↔ regionAccepted p.2 s.regs)

/-- 43_aggregator.md R200, R201: on an IDLE unit whose region is accepted and readable, `PSYD.S` and `PSYD.H`
complete; RESULT is the total of the absolute energy differences of the tiles, shifted down by 1 or up by 2, and
nothing else but STATUS changes. -/
def Obligations.PsydWritesTheRegionDistortion : Prop :=
  (∀ s : State, s.isIdle = true → regionAccepted .standard s.regs → s.regionReady .standard →
    exec .psydS s = .next { s with
      regs := { s.regs with result := regionDistortion s .standard }, run := .idle true, earlier := [] }) ∧
  (∀ s : State, s.isIdle = true → regionAccepted .high s.regs → s.regionReady .high →
    exec .psydH s = .next { s with
      regs := { s.regs with result := regionDistortion s .high }, run := .idle true, earlier := [] })

/-- 43_aggregator.md R193, R199 item 2, 44_bias_and_entry.md R234 item 1: an accepted region of width 0 or height 0
completes with RESULT 0 and reads nothing, whatever memory, the memory port and the SAD collaborator are; the entry
point does so for a finite bias, and raises Numeric with the canonical NaN for any other. -/
def Obligations.EmptyRegionGivesZero : Prop :=
  ∀ s : State, s.isIdle = true → (s.regs.width = 0 ∨ s.regs.height = 0) →
    ∀ p ∈ regionCommands, regionAccepted p.2 s.regs →
      (isFinite s.regs.biasBase = true ∨ p.1 = .psydS ∨ p.1 = .psydH → exec p.1 s = .next { s with
        regs := { s.regs with result := 0 }, run := .idle true, earlier := [] }) ∧
      (isFinite s.regs.biasBase = false → p.1 = .fdistS ∨ p.1 = .fdistH →
        endsInFault p.1 s .numeric 0x7FF8000000000000#64)

/-- 43_aggregator.md R191, R193: the tile size is 8 exactly when WIDTH and HEIGHT are both at least 8, and 4 exactly
otherwise; the tiles of an accepted region do not overlap and cover it exactly, ty outer and tx inner; a region of
4 x 12 is three 4 x 4 tiles (T6), and a region of width or height 0 has none. -/
def Obligations.TilesCoverTheRegionExactly : Prop :=
  (∀ r : Regs, (tileSize r = 8 ↔ 8 ≤ r.width.toNat ∧ 8 ≤ r.height.toNat) ∧
    (tileSize r = 4 ↔ r.width.toNat < 8 ∨ r.height.toNat < 8) ∧
    (r.width = 4 → r.height = 12 → tilePositions r = [(0, 0), (1, 0), (2, 0)]) ∧
    (r.width = 0 ∨ r.height = 0 → tilePositions r = [])) ∧
  ∀ (d : Depth) (r : Regs), regionAccepted d r →
    (tilePositions r).Pairwise (fun p q => p.1 < q.1 ∨ (p.1 = q.1 ∧ p.2 < q.2)) ∧
    (∀ row < r.height.toNat, ∀ col < r.width.toNat, ∃! p : Nat × Nat, p ∈ tilePositions r ∧
      tileSize r * p.1 ≤ row ∧ row < tileSize r * p.1 + tileSize r ∧
      tileSize r * p.2 ≤ col ∧ col < tileSize r * p.2 + tileSize r) ∧
    (∀ p ∈ tilePositions r, tileSize r * p.1 + tileSize r ≤ r.height.toNat ∧
      tileSize r * p.2 + tileSize r ≤ r.width.toNat) ∧
    (tilePositions r).Nodup ∧
    (tilePositions r).length = (r.height.toNat / tileSize r) * (r.width.toNat / tileSize r)

/-- 43_aggregator.md R196: the energy of a tile is the estimator of its size and depth against the zero tile (the 4x4
one of 42_block_energy.md R160 with the second row stage, log entry 12, or the 8x8 one of R170) minus a quarter, rounded
down, of the SAD collaborator's answer, which is the sum of the samples under SadExact, and a function of the samples,
the size and the depth for an arbitrary collaborator (log entry 6); the subtraction is exact. R199 items 4 and 5, under
SadExact: the energy of a tile of storable samples is never negative and at most the bounds of R196; a flat 8x8 tile of
value v has energy 0, a flat 4x4 tile 4v. -/
def Obligations.EnergyIsNonNegativeAndFlatTilesVanish : Prop :=
  (∀ (T : Tile) (n : Nat) (d : Depth) (est : Nat), n = 4 ∨ n = 8 →
    (n = 4 → d = .standard → est = (satd4 (N := 32) 16 true T fun _ _ => 0).toNat) →
    (n = 4 → d = .high → est = (satd4 (N := 64) 32 true T fun _ _ => 0).toNat) →
    (n = 8 → d = .standard → est = (sa8d (N := 32) 16 T fun _ _ => 0).toNat) →
    (n = 8 → d = .high → est = (sa8d (N := 64) 32 T fun _ _ => 0).toNat) →
    (energy .exact T n d =
      est - (((∑ r ∈ Finset.range n, ∑ c ∈ Finset.range n, T r c) % 2 ^ 32 / 4 : Nat) : Int)) ∧
    (energy .arbitrary T n d =
      est - (((Config.sadArbitrary ((List.range (n * n)).map fun k => T (k / n) (k % n)) n (d == .high)).toNat / 4 :
        Nat) : Int))) ∧
  (∀ T : Tile, (T.boundedBy 4 255 → 0 ≤ energy .exact T 4 .standard ∧ energy .exact T 4 .standard ≤ 8160) ∧
    (T.boundedBy 8 255 → 0 ≤ energy .exact T 8 .standard ∧ energy .exact T 8 .standard ≤ 32640) ∧
    (T.boundedBy 4 65535 → 0 ≤ energy .exact T 4 .high ∧ energy .exact T 4 .high ≤ 2097120) ∧
    (T.boundedBy 8 65535 → 0 ≤ energy .exact T 8 .high ∧ energy .exact T 8 .high ≤ 8388480)) ∧
  (∀ v ≤ 65535, energy .exact (fun _ _ => v) 8 .high = 0 ∧ energy .exact (fun _ _ => v) 4 .high = 4 * v) ∧
  (∀ v ≤ 255, energy .exact (fun _ _ => v) 8 .standard = 0 ∧ energy .exact (fun _ _ => v) 4 .standard = 4 * v)

/-- 43_aggregator.md R204: under SadExact, a region of at most 2^40 samples has a total below 2^59, so that neither
the accumulation nor the high-depth shift loses a bit, and one of at most 2^30 samples has a result below 2^49. -/
def Obligations.NoWrapForRealRegions : Prop :=
  ∀ (s : State) (d : Depth), s.sadPort = .exact →
    s.regs.width.toNat * s.regs.height.toNat ≤ 2 ^ 40 →
    exactTotal s d < 2 ^ 59 ∧
    (d = .standard → (regionDistortion s d).toNat = exactTotal s d / 2) ∧
    (d = .high → (regionDistortion s d).toNat = 4 * exactTotal s d) ∧
    (s.regs.width.toNat * s.regs.height.toNat ≤ 2 ^ 30 → (regionDistortion s d).toNat < 2 ^ 49)

/-- 43_aggregator.md R199 items 1 and 3: exchanging the contents of the two regions does not change the distortion,
and regions that hold the same samples have distortion 0 (whatever pure function the SAD collaborator computes). -/
def Obligations.DistortionIsSymmetricAndZeroOnEqualRegions : Prop :=
  (∀ (s : State) (d : Depth), tileSize s.regs ∣ s.regs.width.toNat → tileSize s.regs ∣ s.regs.height.toNat →
    sameRegions s d → exactTotal s d = 0 ∧ regionDistortion s d = 0) ∧
  (∀ (s t : State) (d : Depth), tileSize s.regs ∣ s.regs.width.toNat → tileSize s.regs ∣ s.regs.height.toNat →
    t.regs.width = s.regs.width → t.regs.height = s.regs.height → t.sadPort = s.sadPort →
    (∀ row < s.regs.height.toNat, ∀ col < s.regs.width.toNat,
      memSample t.mem t.regs d .a row col = memSample s.mem s.regs d .b row col ∧
      memSample t.mem t.regs d .b row col = memSample s.mem s.regs d .a row col) →
    regionDistortion t d = regionDistortion s d)

/-! ### Scalars, bias and the entry point (44_bias_and_entry.md) -/

/-- 44_bias_and_entry.md R217: `fmul64` answers the canonical NaN for a NaN operand and for zero times infinity, else
the signed infinity, the signed zero, or the exact product correctly rounded, with the exclusive-or of the signs; it
is commutative. -/
def Obligations.ProductIsCorrectlyRounded : Prop :=
  ∀ x y : Word,
    fmul64 x y = fmul64 y x ∧
    ((isNaN x = true ∨ isNaN y = true ∨ (isInf x = true ∧ isZero y = true) ∨ (isZero x = true ∧ isInf y = true)) →
      fmul64 x y = 0x7FF8000000000000#64) ∧
    (isNaN x = false → isNaN y = false → isZero x = false → isZero y = false → (isInf x = true ∨ isInf y = true) →
      isInf (fmul64 x y) = true ∧ signBit (fmul64 x y) = (signBit x ^^ signBit y)) ∧
    (isFinite x = true → isFinite y = true → (isZero x = true ∨ isZero y = true) →
      isZero (fmul64 x y) = true ∧ signBit (fmul64 x y) = (signBit x ^^ signBit y)) ∧
    (isFinite x = true → isFinite y = true →
      isRoundingOf (signBit x ^^ signBit y) (realValue x * realValue y) (fmul64 x y))

/-- 44_bias_and_entry.md R218: the conversion of a 64-bit total is its rounding; it is exact below 2^53, and 0 gives
the pattern 0. -/
def Obligations.ConversionIsCorrectlyRounded : Prop :=
  ∀ D : Word, isRoundingOf false (D.toNat : ℚ) (cvtU64 D) ∧ (D.toNat < 2 ^ 53 → realValue (cvtU64 D) = D.toNat) ∧
    (D = 0 → cvtU64 D = 0)

/-- 44_bias_and_entry.md R219: `rha` of a finite pattern is its sign times floor(|p| + 1/2), exactly; ties go away
from zero; from 2^52 on it is the value itself. -/
def Obligations.RoundingIsHalfAwayFromZero : Prop :=
  ∀ p : Word, isFinite p = true →
    rha p = (if signBit p then -1 else 1) * ⌊|realValue p| + 1 / 2⌋ ∧
    ((2 : ℚ) ^ 52 ≤ |realValue p| → (rha p : ℚ) = realValue p)

/-- 44_bias_and_entry.md R221, R226: `BIAS` completes for every pattern of BIAS_BASE; BIAS_EFF is the base times the
constant that INTRA and TLAYER select, INTRA first, and the base unchanged from layer 3 on; nothing else but STATUS
changes. -/
def Obligations.BiasWritesTheEffectiveBias : Prop :=
  encode .bias = 0x00000006#32 ∧
  ∀ (s : State) (e : Word), s.isIdle = true →
    (s.regs.intra = 1 → e = fmul64 s.regs.biasBase 0x3FD999999999999A#64) →
    (s.regs.intra = 0 → s.regs.tlayer.toNat = 0 → e = fmul64 s.regs.biasBase 0x3FE8000000000000#64) →
    (s.regs.intra = 0 → s.regs.tlayer.toNat = 1 → e = fmul64 s.regs.biasBase 0x3FECCCCCCCCCCCCD#64) →
    (s.regs.intra = 0 → s.regs.tlayer.toNat = 2 → e = fmul64 s.regs.biasBase 0x3FEE666666666666#64) →
    (s.regs.intra = 0 → 3 ≤ s.regs.tlayer.toNat → e = s.regs.biasBase) →
    exec .bias s = .next { s with
      regs := { s.regs with biasEff := e }, run := .idle true, earlier := [] }

/-- 44_bias_and_entry.md R222, the ordering law: for every finite base of at least 2^(-1020) the five effective
biases increase strictly up to the base itself; from layer 3 on the base comes back bit for bit; at the smallest
subnormal and at infinity strictness fails as the rule says. -/
def Obligations.EffectiveBiasesIncrease : Prop :=
  (∀ (b : Word) (l : Half), isFinite b = true → (1 : ℚ) / 2 ^ 1020 ≤ realValue b →
    realValue (effectiveBias b 1 l) < realValue (effectiveBias b 0 0) ∧
    realValue (effectiveBias b 0 0) < realValue (effectiveBias b 0 1) ∧
    realValue (effectiveBias b 0 1) < realValue (effectiveBias b 0 2) ∧
    realValue (effectiveBias b 0 2) < realValue (effectiveBias b 0 3) ∧
    (∀ x ∈ [effectiveBias b 1 l, effectiveBias b 0 0, effectiveBias b 0 1, effectiveBias b 0 2],
      isFinite x = true ∧ expField x ≠ 0)) ∧
  (∀ (b : Word) (l : Half), 3 ≤ l.toNat → effectiveBias b 0 l = b) ∧
  (∀ l : Half, effectiveBias 1 1 l = 0 ∧ effectiveBias 1 0 l = 1) ∧
  (∀ (intra : BitVec 1) (l : Half), effectiveBias 0x7FF0000000000000#64 intra l = 0x7FF0000000000000#64)

/-- 44_bias_and_entry.md R230 to R232: on an IDLE unit whose region is accepted and readable, and whose product is a
number that rounds into the signed 64-bit range, `FDIST.S` and `FDIST.H` complete; RESULT is the rounded product of
the region's distortion and BIAS_BASE, in two's complement, and nothing else but STATUS changes. -/
def Obligations.FdistWritesTheRoundedProduct : Prop :=
  (∀ (s : State) (p : Word), s.isIdle = true → regionAccepted .standard s.regs → s.regionReady .standard →
    p = fmul64 (cvtU64 (regionDistortion s .standard)) s.regs.biasBase →
    isFinite p = true → -(2 ^ 63 : Int) ≤ rha p → rha p ≤ 2 ^ 63 - 1 →
    exec .fdistS s = .next { s with
      regs := { s.regs with result := BitVec.ofInt 64 (rha p) }, run := .idle true, earlier := [] }) ∧
  (∀ (s : State) (p : Word), s.isIdle = true → regionAccepted .high s.regs → s.regionReady .high →
    p = fmul64 (cvtU64 (regionDistortion s .high)) s.regs.biasBase →
    isFinite p = true → -(2 ^ 63 : Int) ≤ rha p → rha p ≤ 2 ^ 63 - 1 →
    exec .fdistH s = .next { s with
      regs := { s.regs with result := BitVec.ofInt 64 (rha p) }, run := .idle true, earlier := [] })

/-- 60_exceptions.md R267: when the product is a NaN, an infinity, or rounds outside the signed 64-bit range, `FDIST.S`
and `FDIST.H` raise Numeric with the product's pattern in FINFO, and nothing but STATUS and FINFO changes. -/
def Obligations.FdistFaultsWhereTheProductHasNoValue : Prop :=
  (∀ (s : State) (p : Word), s.isIdle = true → regionAccepted .standard s.regs → s.regionReady .standard →
    p = fmul64 (cvtU64 (regionDistortion s .standard)) s.regs.biasBase →
    (isFinite p = false ∨ rha p < -(2 ^ 63 : Int) ∨ 2 ^ 63 - 1 < rha p) →
    endsInFault .fdistS s .numeric p) ∧
  (∀ (s : State) (p : Word), s.isIdle = true → regionAccepted .high s.regs → s.regionReady .high →
    p = fmul64 (cvtU64 (regionDistortion s .high)) s.regs.biasBase →
    (isFinite p = false ∨ rha p < -(2 ^ 63 : Int) ∨ 2 ^ 63 - 1 < rha p) →
    endsInFault .fdistH s .numeric p)

/-- 44_bias_and_entry.md R234 item 1, T1: the entry point gives 0 on two regions that hold the same samples, for every
finite bias of either sign, at both depths; for an infinite or NaN bias it raises Numeric. -/
def Obligations.EntryPointIsZeroOnEqualRegions : Prop :=
  ∀ p ∈ [(Instr.fdistS, Depth.standard), (Instr.fdistH, Depth.high)], ∀ s : State, s.isIdle = true →
    regionAccepted p.2 s.regs → s.regionReady p.2 → sameRegions s p.2 →
    (isFinite s.regs.biasBase = true → exec p.1 s = .next { s with
      regs := { s.regs with result := 0 }, run := .idle true, earlier := [] }) ∧
    (isFinite s.regs.biasBase = false → exec p.1 s = .next { s with
      regs := { s.regs with finfo := 0x7FF8000000000000#64 }, run := .faulted .numeric, earlier := [] })

/-- 44_bias_and_entry.md R234 items 3 and 4: with BIAS_BASE = 1.0 and a distortion below 2^53 the entry point's integer
is the distortion; and the sign of a non-zero integer is the sign of BIAS_BASE. -/
def Obligations.UnitBiasKeepsTheDistortion : Prop :=
  (∀ D : Word, D.toNat < 2 ^ 53 → representable (biasedProduct D 0x3FF0000000000000#64) = true ∧
    rha (biasedProduct D 0x3FF0000000000000#64) = D.toNat) ∧
  (∀ D b : Word, representable (biasedProduct D b) = true →
    (0 < rha (biasedProduct D b) → signBit b = false) ∧ (rha (biasedProduct D b) < 0 → signBit b = true))

/-- 44_bias_and_entry.md R234 item 2, T7: for a finite bias and its double, if the product is not subnormal (it may be
zero: an empty distortion, or a zero bias) and its double is finite, doubling the bias doubles the product exactly and
the rounded output up to 1. -/
def Obligations.DoublingTheBiasDoublesTheOutput : Prop :=
  ∀ D b b' : Word, isFinite b = true → isFinite b' = true → realValue b' = 2 * realValue b →
    (expField (biasedProduct D b) ≠ 0 ∨ fracField (biasedProduct D b) = 0) →
    isFinite (biasedProduct D b') = true →
    realValue (biasedProduct D b') = 2 * realValue (biasedProduct D b) ∧
    |rha (biasedProduct D b') - 2 * rha (biasedProduct D b)| ≤ 1

/-! ### Faults (60_exceptions.md) -/

/-- 60_exceptions.md R266: a memory-reading command on an answering port, under the memory contract and with no sample of
its own on a device, ends in MemError with FINFO the address of an unreadable sample of its own if it has one, whatever
the SAD collaborator is (log entry 13), and never otherwise; nothing but STATUS and FINFO changes, and the model's counter
`fresh` (log entries 3 and 4). 20_memory.md R66: the samples of its own are those of its tiles or regions, each read once. -/
def Obligations.MemErrorNamesAnUnreadableSample : Prop :=
  (∀ (n : Nat) (ref : RefSel), (tileReads n ref).Nodup ∧
    ∀ x, x ∈ tileReads n ref ↔ (x.view = .a ∨ ref = .b) ∧ x.row < n ∧ x.col < n) ∧
  (∀ r : Regs, (regionReads r).Nodup ∧ ∀ x, x ∈ regionReads r ↔ x.row < r.height.toNat ∧ x.col < r.width.toNat) ∧
  ∀ (i : Instr) (d : Depth) (reads : List SampleRef) (s : State),
    ((∃ p ∈ tileCommands, ∃ ref, i = p.1 ref ∧ d = p.2.2 ∧ reads = tileReads p.2.1 ref) ∨
      ((i, d) ∈ regionCommands ∧ reads = regionReads s.regs)) →
    s.isIdle = true → acceptanceFault i s.regs = none → s.memAnswers = true → s.earlier = [] →
    (∀ x ∈ reads, ∀ k < depthBytes d, inDevice s.devices (addressOf s.regs d x.view x.row x.col + k) = false) →
    ((∃ x ∈ reads, ∃ k < depthBytes d, s.mem.read (addressOf s.regs d x.view x.row x.col + k) = none) →
      ∃ x ∈ reads, (∃ k < depthBytes d, s.mem.read (addressOf s.regs d x.view x.row x.col + k) = none) ∧
        exec i s = .next { s with
          regs := { s.regs with finfo := BitVec.ofNat 64 (addressOf s.regs d x.view x.row x.col) }
          run := .faulted .memError
          fresh := s.fresh + 1 }) ∧
    ((∀ x ∈ reads, ∀ k < depthBytes d, s.mem.read (addressOf s.regs d x.view x.row x.col + k) ≠ none) →
      ∀ t, exec i s = .next t → t.run ≠ .faulted .memError)

/-- 20_memory.md R65, the model's choice of log entry 11: a memory-reading command that passes its acceptance checks on
an answering port is refused exactly when a byte of one of its samples is a device's, and names such a sample; no
other command is ever refused, and no command ends in a fault of the model. -/
def Obligations.DeviceSamplesAreRefused : Prop :=
  (∀ (i : Instr) (d : Depth) (reads : List SampleRef) (s : State),
    ((∃ p ∈ tileCommands, ∃ ref, i = p.1 ref ∧ d = p.2.2 ∧ reads = tileReads p.2.1 ref) ∨
      ((i, d) ∈ regionCommands ∧ reads = regionReads s.regs)) →
    s.isIdle = true → acceptanceFault i s.regs = none → s.memAnswers = true →
    ((∃ r, exec i s = .refused r) ↔
      ∃ x ∈ reads, ∃ k < depthBytes d, inDevice s.devices (addressOf s.regs d x.view x.row x.col + k) = true) ∧
    (∀ r, exec i s = .refused r →
      ∃ x ∈ reads, (∃ k < depthBytes d,
        inDevice s.devices (addressOf s.regs d x.view x.row x.col + k) = true) ∧
        r = .deviceRead (addressOf s.regs d x.view x.row x.col))) ∧
  (∀ (i : Instr) (s : State), (readsMemory i = false ∨ s.devices = []) → ∃ t, exec i s = .next t) ∧
  (∀ (i : Instr) (s : State) (f : Fault), exec i s ≠ .fault f)

/-- 60_exceptions.md R272, R273: a fault is precise: whatever the command and the cause, it leaves every register but
FINFO and everything outside the unit as it was, and STATUS is 4 + 256 * code. -/
def Obligations.FaultsArePrecise : Prop :=
  ∀ (i : Instr) (s t : State) (c : Cause), s.isIdle = true → exec i s = .next t → t.run = .faulted c →
    t.regs = { s.regs with finfo := t.regs.finfo } ∧ sameSurroundings s t ∧
      t.status.toNat = 4 + 256 * causeCode c

/-- 60_exceptions.md R268: which command can raise what, and the subcodes it can record. -/
def Obligations.EachCommandRaisesOnlyItsFaults : Prop :=
  ∀ (i : Instr) (s t : State) (c : Cause), s.isIdle = true → exec i s = .next t → t.run = .faulted c →
    mayRaise i c t.regs.finfo

/-- 60_exceptions.md R262: a word that does not decode, written to CMD while IDLE, raises IllegalCommand: FINFO is the
word, STATUS 0x0104, and no other register changes; no command raises it; and a word written while BUSY or FAULTED
is dropped (the `RST` word apart). -/
def Obligations.IllegalCommandRecordsTheWord : Prop :=
  (∀ (s : State) (v : Word) (e : DecodeError), s.isIdle = true → decode (v.setWidth 32) = .error e →
    hostWrite 0 v s = .next { s with
      regs := { s.regs with finfo := (v.setWidth 32).setWidth 64 }
      run := .faulted .illegalCommand
      earlier := [] } ∧ statusWord (.faulted .illegalCommand) = 0x0104) ∧
  (∀ (i : Instr) (s t : State), s.isIdle = true → exec i s = .next t → t.run ≠ .faulted .illegalCommand) ∧
  (∀ (s : State) (v : Word), s.isIdle = false → v.setWidth 32 ≠ 0x0000000F#32 → hostWrite 0 v s = .next s)

/-- 60_exceptions.md R275, R276: a FAULTED unit stays FAULTED with its registers through every step whose host action is
neither hard reset nor the `RST` word; and a step whose action is one of these makes it IDLE with every register zero. -/
def Obligations.OnlyResetLeavesTheFaultedState : Prop :=
  (∀ (s : State) (c : Cause) (a : HostAction) (rest : List HostAction), s.run = .faulted c → s.host = a :: rest →
    (a = .hardReset ∨ ∃ v : Word, v.setWidth 32 = 0x0000000F#32 ∧ (a = .write 0 v ∨ a = .windowWrite 0 8 v)) →
    step s = .next { s with host := rest, regs := Regs.zero, run := .idle false, earlier := [] }) ∧
  ∀ (s t : State) (c : Cause), s.run = .faulted c → step s = .next t →
    (t.run = .faulted c ∧ t.regs = s.regs) ∨
    (t.run = .idle false ∧ t.regs = Regs.zero ∧
      ∃ a rest, s.host = a :: rest ∧ (a = .hardReset ∨
        ∃ v : Word, v.setWidth 32 = 0x0000000F#32 ∧ (a = .write 0 v ∨ a = .windowWrite 0 8 v)))

/-- 70_reset_and_hazards.md R303: a command that reads a sample through a port that never answers stays BUSY, and from
then on no step but hard reset changes a register or the run state. -/
def Obligations.SilentPortKeepsTheUnitBusy : Prop :=
  (∀ p ∈ tileCommands, ∀ (ref : RefSel) (s : State), s.isIdle = true → acceptanceFault (p.1 ref) s.regs = none →
    s.memAnswers = false → exec (p.1 ref) s = .next { s with run := .busy (p.1 ref) none }) ∧
  (∀ p ∈ regionCommands, ∀ s : State, s.isIdle = true → acceptanceFault p.1 s.regs = none →
    s.regs.width ≠ 0 → s.regs.height ≠ 0 →
    (s.memAnswers = false ∨ (s.samplesReady p.2 (regionReads s.regs) ∧ s.sadPort = .silent)) →
    exec p.1 s = .next { s with run := .busy p.1 none }) ∧
  (∀ (i : Instr) (s t : State), s.run = .busy i none → step s = .next t →
    (t.run = .busy i none ∧ t.regs = s.regs) ∨
      (t.run = .idle false ∧ t.regs = Regs.zero ∧ ∃ rest, s.host = .hardReset :: rest))

/-! ### The whole machine -/

/-- 10_state.md R22, R30, R33: a command that completes has written its destination registers alone: ABS2 the register
rd, HAD4 W0 to W3, the estimator, aggregator and entry-point commands RESULT, `BIAS` BIAS_EFF, `NOP` nothing; every
byte of memory and everything else outside the unit is as before. -/
def Obligations.CommandsWriteOnlyTheirDestinations : Prop :=
  ∀ (i : Instr) (s t : State), s.isIdle = true → i ≠ .rst → exec i s = .next t → t.run = .idle true →
    writesOnly i s.regs t.regs ∧ sameSurroundings s t ∧ ∀ a, t.mem.read a = s.mem.read a

/-- 10_state.md R41, 20_memory.md R64: no step changes a byte of sample memory but the host's own change of that
byte. -/
def Obligations.OnlyTheHostChangesMemory : Prop :=
  (∀ (i : Instr) (s t : State), exec i s = .next t → t.mem = s.mem) ∧
  (∀ (s t : State) (a : Nat), step s = .next t → t.mem.read a ≠ s.mem.read a →
    ∃ rest, (∃ (w : Word) (b : Byte), s.host = .memWrite w b :: rest ∧ a = w.toNat ∧ t.mem.read a = some b) ∨
      (∃ w : Word, s.host = .memUnback w :: rest ∧ a = w.toNat))

/-- 00_scope.md R14, 44_bias_and_entry.md R233: the region commands do not look at INTRA, TLAYER, BIAS_EFF, W0 to W3,
RESULT or FINFO: two units that differ in these alone come to the same run state, and to the same RESULT or the same
FINFO. -/
def Obligations.RegionCommandsIgnoreOtherRegisters : Prop :=
  ∀ p ∈ regionCommands, ∀ (s : State) (r : Regs), s.isIdle = true →
    r.aBase = s.regs.aBase → r.aOff = s.regs.aOff → r.aStride = s.regs.aStride →
    r.bBase = s.regs.bBase → r.bOff = s.regs.bOff → r.bStride = s.regs.bStride →
    r.width = s.regs.width → r.height = s.regs.height → r.biasBase = s.regs.biasBase →
    ∀ t, exec p.1 s = .next t → ∃ u, exec p.1 { s with regs := r } = .next u ∧ u.run = t.run ∧
      (t.run = .idle true → u.regs.result = t.regs.result) ∧
      (∀ c, t.run = .faulted c → u.regs.finfo = t.regs.finfo)

/-- 20_memory.md R70: under the read-only contract for the samples a command reads, its result is a function of the
memory at acceptance: if every earlier moment agrees with memory now on those samples, the moments do not matter. -/
def Obligations.UnchangedSamplesMakeMomentsIrrelevant : Prop :=
  ∀ (i : Instr) (d : Depth) (reads : List SampleRef) (s : State),
    ((∃ p ∈ tileCommands, ∃ ref, i = p.1 ref ∧ d = p.2.2 ∧ reads = tileReads p.2.1 ref) ∨
      ((i, d) ∈ regionCommands ∧ reads = regionReads s.regs)) →
    s.isIdle = true → s.memAnswers = true → s.sadPort ≠ .silent →
    acceptanceFault i s.regs = none →
    (∀ m ∈ s.earlier, ∀ x ∈ reads, ∀ k < depthBytes d,
      Memory.read m (addressOf s.regs d x.view x.row x.col + k) =
        s.mem.read (addressOf s.regs d x.view x.row x.col + k)) →
    exec i s = exec i { s with earlier := [] }

/-- 70_reset_and_hazards.md R299: acceptance, a BUSY window of any length with any register writes of the host in it,
and completion end exactly where the command run as one atomic step ends: the writes are lost, and only the model's
own counter `fresh` has moved. -/
def Obligations.BusyWindowRefinesTheAtomicCommand : Prop :=
  ∀ (s : State) (v : Word) (i : Instr) (k : Nat) (later : List Nat) (lost : List (BitVec 5 × Word)),
    s.isIdle = true → decode (v.setWidth 32) = .ok i → entersBusy i s = true → s.latency = k :: later →
    0 < k → lost.length < k →
    s.host = .write 0 v :: lost.map (fun p => HostAction.write p.1 p.2) →
    core.run (k + 1) s = exec i { s with host := [], latency := later, fresh := s.fresh + 1 }

/-- The invariant of the machine is kept by every step, of the unit and of its host: memory canonical, FINFO what the
recorded cause says (60_exceptions.md R261) and zero where none is recorded, a running command accepted with its
operands still in place (10_state.md R37), moments of memory kept only while a command runs. -/
def Obligations.StepKeepsTheInvariant : Prop :=
  ∀ s t : State, s.Inv → step s = .next t → t.Inv

/-- The state after reset meets the invariant. -/
def Obligations.ResetMeetsTheInvariant : Prop := State.reset.Inv
end

