-- ==== Sys2Proof/Laws/State.lean ====
section
/-! SUPPORT. The small lemmas of the state's updates: one per field per update, so that no later proof unfolds a
record update. -/

namespace Sys2Proof.Machine

/-! ### General registers -/

@[simp] theorem getW_setW_same (r : Regs) (i : WReg) (v : Word) : (r.setW i v).getW i = v := by cases i <;> rfl

theorem getW_setW_other (r : Regs) {i j : WReg} (v : Word) (h : j ≠ i) : (r.setW i v).getW j = r.getW j := by
  cases i <;> cases j <;> first | rfl | exact absurd rfl h

theorem setW_w0 (r : Regs) (v : Word) : r.setW .w0 v = { r with w0 := v } := rfl
theorem setW_w1 (r : Regs) (v : Word) : r.setW .w1 v = { r with w1 := v } := rfl
theorem setW_w2 (r : Regs) (v : Word) : r.setW .w2 v = { r with w2 := v } := rfl
theorem setW_w3 (r : Regs) (v : Word) : r.setW .w3 v = { r with w3 := v } := rfl

@[simp] theorem setW_finfo (r : Regs) (i : WReg) (v : Word) : (r.setW i v).finfo = r.finfo := by cases i <;> rfl
@[simp] theorem setW_result (r : Regs) (i : WReg) (v : Word) : (r.setW i v).result = r.result := by cases i <;> rfl
@[simp] theorem setW_aBase (r : Regs) (i : WReg) (v : Word) : (r.setW i v).aBase = r.aBase := by cases i <;> rfl
@[simp] theorem setW_aOff (r : Regs) (i : WReg) (v : Word) : (r.setW i v).aOff = r.aOff := by cases i <;> rfl
@[simp] theorem setW_aStride (r : Regs) (i : WReg) (v : Word) : (r.setW i v).aStride = r.aStride := by cases i <;> rfl
@[simp] theorem setW_bBase (r : Regs) (i : WReg) (v : Word) : (r.setW i v).bBase = r.bBase := by cases i <;> rfl
@[simp] theorem setW_bOff (r : Regs) (i : WReg) (v : Word) : (r.setW i v).bOff = r.bOff := by cases i <;> rfl
@[simp] theorem setW_bStride (r : Regs) (i : WReg) (v : Word) : (r.setW i v).bStride = r.bStride := by cases i <;> rfl
@[simp] theorem setW_width (r : Regs) (i : WReg) (v : Word) : (r.setW i v).width = r.width := by cases i <;> rfl
@[simp] theorem setW_height (r : Regs) (i : WReg) (v : Word) : (r.setW i v).height = r.height := by cases i <;> rfl
@[simp] theorem setW_biasBase (r : Regs) (i : WReg) (v : Word) : (r.setW i v).biasBase = r.biasBase := by cases i <;> rfl
@[simp] theorem setW_biasEff (r : Regs) (i : WReg) (v : Word) : (r.setW i v).biasEff = r.biasEff := by cases i <;> rfl
@[simp] theorem setW_intra (r : Regs) (i : WReg) (v : Word) : (r.setW i v).intra = r.intra := by cases i <;> rfl
@[simp] theorem setW_tlayer (r : Regs) (i : WReg) (v : Word) : (r.setW i v).tlayer = r.tlayer := by cases i <;> rfl

/-! ### Reset of the unit (70_reset_and_hazards.md R290) -/

@[simp] theorem zero_finfo : Regs.zero.finfo = 0 := rfl
@[simp] theorem zero_result : Regs.zero.result = 0 := rfl
@[simp] theorem zero_w0 : Regs.zero.w0 = 0 := rfl
@[simp] theorem zero_w1 : Regs.zero.w1 = 0 := rfl
@[simp] theorem zero_w2 : Regs.zero.w2 = 0 := rfl
@[simp] theorem zero_w3 : Regs.zero.w3 = 0 := rfl
@[simp] theorem zero_aBase : Regs.zero.aBase = 0 := rfl
@[simp] theorem zero_aOff : Regs.zero.aOff = 0 := rfl
@[simp] theorem zero_aStride : Regs.zero.aStride = 0 := rfl
@[simp] theorem zero_bBase : Regs.zero.bBase = 0 := rfl
@[simp] theorem zero_bOff : Regs.zero.bOff = 0 := rfl
@[simp] theorem zero_bStride : Regs.zero.bStride = 0 := rfl
@[simp] theorem zero_width : Regs.zero.width = 0 := rfl
@[simp] theorem zero_height : Regs.zero.height = 0 := rfl
@[simp] theorem zero_biasBase : Regs.zero.biasBase = 0 := rfl
@[simp] theorem zero_biasEff : Regs.zero.biasEff = 0 := rfl
@[simp] theorem zero_intra : Regs.zero.intra = 0 := rfl
@[simp] theorem zero_tlayer : Regs.zero.tlayer = 0 := rfl
@[simp] theorem resetUnit_regs (s : State) : (resetUnit s).regs = Regs.zero := rfl
@[simp] theorem resetUnit_run (s : State) : (resetUnit s).run = .idle false := rfl
@[simp] theorem resetUnit_mem (s : State) : (resetUnit s).mem = s.mem := rfl
@[simp] theorem resetUnit_earlier (s : State) : (resetUnit s).earlier = [] := rfl
@[simp] theorem resetUnit_memAnswers (s : State) : (resetUnit s).memAnswers = s.memAnswers := rfl
@[simp] theorem resetUnit_devices (s : State) : (resetUnit s).devices = s.devices := rfl
@[simp] theorem resetUnit_sadPort (s : State) : (resetUnit s).sadPort = s.sadPort := rfl
@[simp] theorem resetUnit_latency (s : State) : (resetUnit s).latency = s.latency := rfl
@[simp] theorem resetUnit_host (s : State) : (resetUnit s).host = s.host := rfl
@[simp] theorem resetUnit_readData (s : State) : (resetUnit s).readData = s.readData := rfl
@[simp] theorem resetUnit_fresh (s : State) : (resetUnit s).fresh = s.fresh := rfl

/-! ### Changing memory (20_memory.md R70, R71) -/

@[simp] theorem changeMemory_regs (m : Memory) (s : State) : (changeMemory m s).regs = s.regs := rfl
@[simp] theorem changeMemory_run (m : Memory) (s : State) : (changeMemory m s).run = s.run := rfl
@[simp] theorem changeMemory_mem (m : Memory) (s : State) : (changeMemory m s).mem = m := rfl
@[simp] theorem changeMemory_earlier (m : Memory) (s : State) : (changeMemory m s).earlier = if busyFlag s.run then s.mem :: s.earlier else s.earlier := rfl
@[simp] theorem changeMemory_memAnswers (m : Memory) (s : State) : (changeMemory m s).memAnswers = s.memAnswers := rfl
@[simp] theorem changeMemory_devices (m : Memory) (s : State) : (changeMemory m s).devices = s.devices := rfl
@[simp] theorem changeMemory_sadPort (m : Memory) (s : State) : (changeMemory m s).sadPort = s.sadPort := rfl
@[simp] theorem changeMemory_latency (m : Memory) (s : State) : (changeMemory m s).latency = s.latency := rfl
@[simp] theorem changeMemory_host (m : Memory) (s : State) : (changeMemory m s).host = s.host := rfl
@[simp] theorem changeMemory_readData (m : Memory) (s : State) : (changeMemory m s).readData = s.readData := rfl
@[simp] theorem changeMemory_fresh (m : Memory) (s : State) : (changeMemory m s).fresh = s.fresh := rfl

/-! ### Offering a command (10_state.md R28) -/

@[simp] theorem offerCommand_regs (w : Half) (s : State) : (offerCommand w s).regs = s.regs := rfl
@[simp] theorem offerCommand_run (w : Half) (s : State) : (offerCommand w s).run = if s.isIdle then s.run else .idle false := rfl
@[simp] theorem offerCommand_mem (w : Half) (s : State) : (offerCommand w s).mem = s.mem := rfl
@[simp] theorem offerCommand_earlier (w : Half) (s : State) : (offerCommand w s).earlier = [] := rfl
@[simp] theorem offerCommand_memAnswers (w : Half) (s : State) : (offerCommand w s).memAnswers = s.memAnswers := rfl
@[simp] theorem offerCommand_devices (w : Half) (s : State) : (offerCommand w s).devices = s.devices := rfl
@[simp] theorem offerCommand_sadPort (w : Half) (s : State) : (offerCommand w s).sadPort = s.sadPort := rfl
@[simp] theorem offerCommand_latency (w : Half) (s : State) : (offerCommand w s).latency = [] := rfl
@[simp] theorem offerCommand_host (w : Half) (s : State) : (offerCommand w s).host = .write 0 (w.setWidth 64) :: s.host := rfl
@[simp] theorem offerCommand_readData (w : Half) (s : State) : (offerCommand w s).readData = s.readData := rfl
@[simp] theorem offerCommand_fresh (w : Half) (s : State) : (offerCommand w s).fresh = s.fresh := rfl

/-! ### Host reads (10_state.md R37) -/

@[simp] theorem hostRead_regs (n : BitVec 5) (s : State) : (hostRead n s).regs = s.regs := by
  unfold hostRead; split <;> rfl
@[simp] theorem hostRead_run (n : BitVec 5) (s : State) : (hostRead n s).run = s.run := by
  unfold hostRead; split <;> rfl
@[simp] theorem hostRead_mem (n : BitVec 5) (s : State) : (hostRead n s).mem = s.mem := by
  unfold hostRead; split <;> rfl
@[simp] theorem hostRead_earlier (n : BitVec 5) (s : State) : (hostRead n s).earlier = s.earlier := by
  unfold hostRead; split <;> rfl
@[simp] theorem hostRead_memAnswers (n : BitVec 5) (s : State) : (hostRead n s).memAnswers = s.memAnswers := by
  unfold hostRead; split <;> rfl
@[simp] theorem hostRead_devices (n : BitVec 5) (s : State) : (hostRead n s).devices = s.devices := by
  unfold hostRead; split <;> rfl
@[simp] theorem hostRead_sadPort (n : BitVec 5) (s : State) : (hostRead n s).sadPort = s.sadPort := by
  unfold hostRead; split <;> rfl
@[simp] theorem hostRead_latency (n : BitVec 5) (s : State) : (hostRead n s).latency = s.latency := by
  unfold hostRead; split <;> rfl
@[simp] theorem hostRead_host (n : BitVec 5) (s : State) : (hostRead n s).host = s.host := by
  unfold hostRead; split <;> rfl

/-! ### The state after reset (10_state.md R47) -/

@[simp] theorem reset_regs : State.reset.regs = Regs.zero := rfl
@[simp] theorem reset_run : State.reset.run = .idle false := rfl
@[simp] theorem reset_mem : State.reset.mem = [] := rfl
@[simp] theorem reset_earlier : State.reset.earlier = [] := rfl
@[simp] theorem reset_memAnswers : State.reset.memAnswers = true := rfl
@[simp] theorem reset_devices : State.reset.devices = [] := rfl
@[simp] theorem reset_sadPort : State.reset.sadPort = .exact := rfl
@[simp] theorem reset_latency : State.reset.latency = [] := rfl
@[simp] theorem reset_host : State.reset.host = [] := rfl
@[simp] theorem reset_readData : State.reset.readData = 0 := rfl
@[simp] theorem reset_fresh : State.reset.fresh = 0 := rfl

end Sys2Proof.Machine
end

