-- ==== Sys2Proof/Laws/Memory.lean ====
section
/-! SUPPORT. Sample memory: reading after a change, and the canonical form that every change keeps. -/

namespace Sys2Proof.Machine

@[simp] theorem memory_read_nil (x : Nat) : Memory.read [] x = none := rfl

theorem memory_read_cons (a : Nat) (b : Byte) (m : Memory) (x : Nat) :
    Memory.read ((a, b) :: m) x = if x = a then some b else Memory.read m x := rfl

@[simp] theorem memory_read_write_same (m : Memory) (x : Nat) (v : Byte) : (m.write x v).read x = some v := by
  induction m with
  | nil => simp [Memory.write, Memory.read]
  | cons c m ih =>
    obtain ⟨a, b⟩ := c
    simp only [Memory.write]
    split
    · simp [Memory.read]
    · split
      · simp [Memory.read]
      · simp [Memory.read, *]

theorem memory_read_write_other (m : Memory) {x y : Nat} (v : Byte) (h : y ≠ x) :
    (m.write x v).read y = m.read y := by
  induction m with
  | nil => simp [Memory.write, Memory.read, h, Config.unlistedByte]
  | cons c m ih =>
    obtain ⟨a, b⟩ := c
    simp only [Memory.write]
    split
    · simp [Memory.read, h]
    · split
      · subst_vars; simp [Memory.read, h]
      · simp [Memory.read, ih]

theorem memory_risesFrom_le {lo lo' : Nat} (m : Memory) (h : lo ≤ lo') (hm : Memory.risesFrom lo' m = true) :
    Memory.risesFrom lo m = true := by
  cases m with
  | nil => rfl
  | cons c m =>
    simp only [Memory.risesFrom, Bool.and_eq_true, decide_eq_true_eq] at hm ⊢
    exact ⟨⟨h.trans hm.1.1, hm.1.2⟩, hm.2⟩

theorem memory_read_below {lo : Nat} (m : Memory) (hm : Memory.risesFrom lo m = true) {x : Nat} (hx : x < lo) :
    m.read x = none := by
  induction m generalizing lo with
  | nil => rfl
  | cons c m ih =>
    obtain ⟨a, b⟩ := c
    simp only [Memory.risesFrom, Bool.and_eq_true, decide_eq_true_eq] at hm
    rw [memory_read_cons, if_neg (by omega)]
    exact ih hm.2 (by omega)

theorem memory_risesFrom_write {lo : Nat} (m : Memory) (hm : Memory.risesFrom lo m = true) {x : Nat} (v : Byte)
    (hlo : lo ≤ x) (hx : x < 2 ^ 64) : Memory.risesFrom lo (m.write x v) = true := by
  induction m generalizing lo with
  | nil => simp [Memory.write, Memory.risesFrom, hlo]; omega
  | cons c m ih =>
    obtain ⟨a, b⟩ := c
    simp only [Memory.risesFrom, Bool.and_eq_true, decide_eq_true_eq] at hm
    simp only [Memory.write]
    split
    · simp only [Memory.risesFrom, Bool.and_eq_true, decide_eq_true_eq]
      exact ⟨⟨hlo, hx⟩, ⟨by omega, hm.1.2⟩, hm.2⟩
    · split
      · subst_vars
        simp only [Memory.risesFrom, Bool.and_eq_true, decide_eq_true_eq]
        exact ⟨⟨hlo, hx⟩, hm.2⟩
      · simp only [Memory.risesFrom, Bool.and_eq_true, decide_eq_true_eq]
        exact ⟨hm.1, ih hm.2 (by omega)⟩

theorem memory_risesFrom_unback {lo : Nat} (m : Memory) (hm : Memory.risesFrom lo m = true) (x : Nat) :
    Memory.risesFrom lo (m.unback x) = true := by
  induction m generalizing lo with
  | nil => rfl
  | cons c m ih =>
    obtain ⟨a, b⟩ := c
    simp only [Memory.risesFrom, Bool.and_eq_true, decide_eq_true_eq] at hm
    simp only [Memory.unback]
    split
    · exact memory_risesFrom_le m (by omega) hm.2
    · simp only [Memory.risesFrom, Bool.and_eq_true, decide_eq_true_eq]
      exact ⟨hm.1, ih hm.2⟩

theorem memory_wf_nil : Memory.wf [] = true := rfl

theorem memory_wf_write (m : Memory) (hm : m.wf = true) (a : Word) (v : Byte) : (m.write a.toNat v).wf = true :=
  memory_risesFrom_write m hm v (Nat.zero_le _) a.isLt

theorem memory_wf_unback (m : Memory) (hm : m.wf = true) (x : Nat) : (m.unback x).wf = true :=
  memory_risesFrom_unback m hm x

theorem memory_read_unback_same (m : Memory) (hm : m.wf = true) (x : Nat) : (m.unback x).read x = none := by
  unfold Memory.wf at hm
  generalize hlo : 0 = lo at hm
  clear hlo
  induction m generalizing lo with
  | nil => rfl
  | cons c m ih =>
    obtain ⟨a, b⟩ := c
    simp only [Memory.risesFrom, Bool.and_eq_true, decide_eq_true_eq] at hm
    simp only [Memory.unback]
    split
    · subst_vars; exact memory_read_below m hm.2 (by omega)
    · rw [memory_read_cons, if_neg (by assumption)]
      exact ih _ hm.2

theorem memory_read_unback_other (m : Memory) {x y : Nat} (h : y ≠ x) : (m.unback x).read y = m.read y := by
  induction m with
  | nil => rfl
  | cons c m ih =>
    obtain ⟨a, b⟩ := c
    simp only [Memory.unback]
    split
    · subst_vars; rw [memory_read_cons, if_neg h]
    · simp [memory_read_cons, ih]

/-- Equal memories are equal lists: the canonical form is determined by what each address reads as. -/
theorem memory_ext {lo : Nat} (m m' : Memory) (hm : Memory.risesFrom lo m = true)
    (hm' : Memory.risesFrom lo m' = true) (h : ∀ x, m.read x = m'.read x) : m = m' := by
  induction m generalizing lo m' with
  | nil =>
    cases m' with
    | nil => rfl
    | cons c m' => have := h c.1; simp [Memory.read, Config.unlistedByte] at this
  | cons c m ih =>
    obtain ⟨a, b⟩ := c
    cases m' with
    | nil => have := h a; simp [Memory.read, Config.unlistedByte] at this
    | cons c' m' =>
      obtain ⟨a', b'⟩ := c'
      simp only [Memory.risesFrom, Bool.and_eq_true, decide_eq_true_eq] at hm hm'
      have haa : a = a' := by
        rcases Nat.lt_trichotomy a a' with hlt | heq | hgt
        · have := h a
          rw [memory_read_cons, if_pos rfl, memory_read_cons, if_neg (by omega),
            memory_read_below m' hm'.2 (by omega)] at this
          cases this
        · exact heq
        · have := h a'
          rw [memory_read_cons, if_neg (by omega), memory_read_cons, if_pos rfl,
            memory_read_below m hm.2 (by omega)] at this
          cases this
      subst haa
      have hb := h a
      simp only [memory_read_cons, if_pos, Option.some.injEq] at hb
      subst hb
      congr 1
      refine ih m' hm.2 hm'.2 fun x => ?_
      by_cases hx : x = a
      · subst hx
        rw [memory_read_below m hm.2 (by omega), memory_read_below m' hm'.2 (by omega)]
      · have := h x
        rwa [memory_read_cons, if_neg hx, memory_read_cons, if_neg hx] at this

end Sys2Proof.Machine
end

