-- ==== Sys2Proof/Laws/Ops.lean ====
section
/-! SUPPORT. What each shared operation can do, said once: a later proof cites these lemmas instead of unfolding the
operations. -/

namespace Sys2Proof.Machine

/-! ### STATUS (10_state.md R27) -/

@[simp] theorem statusWord_idle (done : Bool) : statusWord (.idle done) = if done then 2 else 0 := by
  cases done <;> rfl

@[simp] theorem statusWord_busy (i : Instr) (l : Option Nat) : statusWord (.busy i l) = 1 := rfl

theorem statusWord_faulted (c : Cause) : statusWord (.faulted c) = BitVec.ofNat 16 (4 + 256 * causeCode c) := by
  cases c <;> rfl

@[simp] theorem isIdle_iff (s : State) : s.isIdle = true ↔ ∃ done, s.run = .idle done := by
  unfold State.isIdle
  split <;> simp_all

/-! ### Commands only while IDLE (10_state.md R37, R38) -/

theorem whenIdle_of_idle {s : State} (h : s.isIdle = true) (e : Result) : whenIdle s e = e := by
  obtain ⟨done, h⟩ := (isIdle_iff s).1 h
  simp [whenIdle, h]

theorem whenIdle_of_not_idle {s : State} (h : s.isIdle = false) (e : Result) : whenIdle s e = .next s := by
  unfold State.isIdle at h
  unfold whenIdle
  split at h <;> simp_all

theorem whenIdle_cases (s : State) (e : Result) :
    (s.isIdle = true ∧ whenIdle s e = e) ∨ (s.isIdle = false ∧ whenIdle s e = .next s) := by
  cases h : s.isIdle
  · exact .inr ⟨rfl, whenIdle_of_not_idle h e⟩
  · exact .inl ⟨rfl, whenIdle_of_idle h e⟩

/-! ### Addresses and alignment (20_memory.md R60, R63): the machine's forms are the spec's -/

@[simp] theorem depthBytes_standard : depthBytes .standard = 1 := rfl

@[simp] theorem depthBytes_high : depthBytes .high = 2 := rfl

@[simp] theorem sampleBytes_eq_depthBytes (d : Depth) : sampleBytes d = depthBytes d := by cases d <;> rfl

@[simp] theorem sampleAddr_eq_addressOf (r : Regs) (d : Depth) (v : View) (row col : Nat) :
    sampleAddr r d v row col = addressOf r d v row col := by
  cases v <;> simp [sampleAddr, addressOf, viewBase, viewOff, viewStride]

theorem addrFits_iff (r : Regs) (d : Depth) (v : View) (row col : Nat) :
    addrFits r d v row col = true ↔ viewFits r d v row col := by
  simp [addrFits, viewFits]

theorem misaligned_iff (r : Regs) (d : Depth) (v : View) :
    misaligned r d v = true ↔ d = .high ∧ ¬baseEven r v := by
  cases v <;> simp [misaligned, baseEven, viewBase]

/-! ### Reading samples (20_memory.md R68, R71) -/

theorem momentSeen_of_contract {s : State} (h : s.earlier = []) (x : SampleRef) : momentSeen s x = s.mem := by
  simp [momentSeen, h]

theorem momentSeen_mem (s : State) (x : SampleRef) : momentSeen s x ∈ s.mem :: s.earlier := by
  unfold momentSeen
  split
  · simp [*]
  · rename_i e es he
    have hlt : Config.freeMoment s.fresh (x.view == .b) x.row x.col % (es.length + 2) < (s.mem :: e :: es).length := by
      exact Nat.mod_lt _ (Nat.succ_pos _)
    rw [List.getD_eq_getElem _ _ hlt, he]
    exact List.getElem_mem hlt

/-- A sample that is ready is read as memory holds it (R61, R62). -/
theorem sampleAnswer_of_ready {s : State} {d : Depth} {reads : List SampleRef} (h : s.samplesReady d reads)
    {x : SampleRef} (hx : x ∈ reads) :
    sampleAnswer s d x = .ok (memSample s.mem s.regs d x.view x.row x.col) := by
  obtain ⟨_, hc, h⟩ := h
  have hx := h x hx
  unfold sampleAnswer
  rw [momentSeen_of_contract hc]
  cases d with
  | standard =>
    have h0 := hx 0 (by decide)
    obtain ⟨b, hb⟩ := Option.isSome_iff_exists.1 h0.2
    simp only [Nat.add_zero] at h0 hb
    simp [memRead, h0.1, hb, memSample, byteAt]
  | high =>
    have h0 := hx 0 (by decide)
    have h1 := hx 1 (by decide)
    obtain ⟨b0, hb0⟩ := Option.isSome_iff_exists.1 h0.2
    obtain ⟨b1, hb1⟩ := Option.isSome_iff_exists.1 h1.2
    simp only [Nat.add_zero] at h0 hb0
    simp [memRead, h0.1, h1.1, hb0, hb1, memSample, byteAt, List.range_succ]

theorem sampleValue_of_ready {s : State} {d : Depth} {reads : List SampleRef} (h : s.samplesReady d reads)
    {v : View} {row col : Nat} (hx : ⟨v, row, col⟩ ∈ reads) :
    sampleValue s d v row col = memSample s.mem s.regs d v row col := by
  simp [sampleValue, sampleAnswer_of_ready h hx]

theorem mem_rectangle {v : View} {h w : Nat} {x : SampleRef} :
    x ∈ rectangle v h w ↔ x.view = v ∧ x.row < h ∧ x.col < w := by
  obtain ⟨v', r, c⟩ := x
  simp only [rectangle, List.mem_flatMap, List.mem_range, List.mem_map, SampleRef.mk.injEq]
  constructor
  · rintro ⟨r', hr, c', hc, rfl, rfl, rfl⟩; exact ⟨rfl, hr, hc⟩
  · rintro ⟨rfl, hr, hc⟩; exact ⟨r, hr, c, hc, rfl, rfl, rfl⟩

theorem mem_tileReads {n : Nat} {ref : RefSel} {x : SampleRef} :
    x ∈ tileReads n ref ↔ (x.view = .a ∨ ref = .b) ∧ x.row < n ∧ x.col < n := by
  obtain ⟨v, r, c⟩ := x
  cases ref <;> cases v <;> simp [tileReads, mem_rectangle]

theorem mem_regionReads {r : Regs} {x : SampleRef} :
    x ∈ regionReads r ↔ x.row < r.height.toNat ∧ x.col < r.width.toNat := by
  obtain ⟨v, row, col⟩ := x
  unfold regionReads
  split
  · simp [*]
  · cases v <;> simp [mem_rectangle]

theorem mem_tilePositions {r : Regs} {p : Nat × Nat} :
    p ∈ tilePositions r ↔ p.1 < r.height.toNat / tileSize r ∧ p.2 < r.width.toNat / tileSize r := by
  obtain ⟨ty, tx⟩ := p
  unfold tilePositions
  split
  · simp [*]
  · simp

theorem tileSize_cases (r : Regs) : tileSize r = 4 ∨ tileSize r = 8 := by
  unfold tileSize; split <;> simp

/-- The tile size of R191 is 8 exactly when both dimensions are at least 8. -/
theorem tileSize_eq_eight_iff (r : Regs) : tileSize r = 8 ↔ 8 ≤ r.width.toNat ∧ 8 ≤ r.height.toNat := by
  unfold tileSize; split <;> omega

/-- What SadExact answers, as a double sum (43_aggregator.md R195). -/
theorem sum_tileSamples (T : Tile) (n : Nat) :
    (tileSamples T n).sum = ∑ r ∈ Finset.range n, ∑ c ∈ Finset.range n, T r c := by
  have sum_range : ∀ (m : Nat) (f : Nat → Nat), ((List.range m).map f).sum = ∑ k ∈ Finset.range m, f k := by
    intro m f
    induction m with
    | zero => rfl
    | succ m ih => rw [List.range_succ, List.map_append, List.sum_append, ih, Finset.sum_range_succ]; simp
  simp only [tileSamples, List.flatMap_def, List.sum_flatten, List.map_map, Function.comp_def, sum_range]

/-! ### The outcomes of a memory-reading command -/

/-- All that the reads of a command can lead to. -/
theorem withSamples_cases (i : Instr) (d : Depth) (reads : List SampleRef) (s : State) (go : Result) :
    (s.memAnswers = false ∧ reads ≠ [] ∧ withSamples i d reads s go = hang i s) ∨
    (∃ a, withSamples i d reads s go = .refused (.deviceRead a)) ∨
    (∃ a ∈ unreadable s d reads,
      withSamples i d reads s go = raise .memError (BitVec.ofNat 64 a) { s with fresh := s.fresh + 1 }) ∨
    (onDevice s d reads = [] ∧ unreadable s d reads = [] ∧ withSamples i d reads s go = go) := by
  unfold withSamples
  split
  · rename_i h
    simp only [Bool.and_eq_true, Bool.not_eq_true', List.isEmpty_eq_false_iff] at h
    exact .inl ⟨h.2, h.1, rfl⟩
  · split
    · exact .inr (.inl ⟨_, rfl⟩)
    · rename_i hdev
      split
      · exact .inr (.inr (.inr ⟨hdev, by assumption, rfl⟩))
      · rename_i hbad
        refine .inr (.inr (.inl ⟨chooseAddress s.fresh (unreadable s d reads), ?_, rfl⟩))
        generalize unreadable s d reads = bad at hbad
        match bad, hbad with
        | [], hbad => exact absurd rfl hbad
        | [a], _ => exact List.mem_singleton.2 rfl
        | a :: b :: l, _ =>
          have hlt : Config.freeIndex s.fresh % (a :: b :: l).length < (a :: b :: l).length :=
            Nat.mod_lt _ (by simp)
          show (a :: b :: l).getD _ 0 ∈ _
          rw [List.getD_eq_getElem _ _ hlt]
          exact List.getElem_mem hlt

theorem not_unreadable_of_ready {s : State} {d : Depth} {reads : List SampleRef} (h : s.samplesReady d reads) :
    unreadable s d reads = [] ∧ onDevice s d reads = [] := by
  unfold unreadable onDevice
  constructor <;>
  · rw [List.map_eq_nil_iff, List.filter_eq_nil_iff]
    intro x hx
    simp [sampleAnswer_of_ready h hx]

/-- Reads that are ready let the command go on. -/
theorem withSamples_of_ready {i : Instr} {s : State} {d : Depth} {reads : List SampleRef}
    (h : s.samplesReady d reads) (go : Result) : withSamples i d reads s go = go := by
  obtain ⟨hu, ho⟩ := not_unreadable_of_ready h
  simp [withSamples, h.1, hu, ho]

/-- A memory-reading command: dropped unless IDLE, then the acceptance fault, then its reads. -/
theorem readingCommand_cases (i : Instr) (d : Depth) (reads : List SampleRef) (s : State) (go : Result) :
    (s.isIdle = false ∧ readingCommand i d reads s go = .next s) ∨
    (s.isIdle = true ∧ ∃ c info, acceptanceFault i s.regs = some (c, info) ∧
      readingCommand i d reads s go = raise c info s) ∨
    (s.isIdle = true ∧ acceptanceFault i s.regs = none ∧
      readingCommand i d reads s go = withSamples i d reads s go) := by
  unfold readingCommand
  cases hi : s.isIdle
  · exact .inl ⟨rfl, whenIdle_of_not_idle hi _⟩
  · rw [whenIdle_of_idle hi]
    cases ha : acceptanceFault i s.regs with
    | some ci => exact .inr (.inl ⟨rfl, ci.1, ci.2, rfl, rfl⟩)
    | none => exact .inr (.inr ⟨rfl, rfl, rfl⟩)

theorem readingCommand_of_ready {i : Instr} {d : Depth} {reads : List SampleRef} {s : State} (hi : s.isIdle = true)
    (ha : acceptanceFault i s.regs = none) (h : s.samplesReady d reads) (go : Result) :
    readingCommand i d reads s go = go := by
  rw [readingCommand, whenIdle_of_idle hi, ha]
  exact withSamples_of_ready h go

theorem needsSad_of_answering {i : Instr} {s : State} (h : s.sadPort ≠ .silent) (go : Result) :
    needsSad i s go = go := by simp [needsSad, h]

theorem needsSad_cases (i : Instr) (s : State) (go : Result) :
    (s.sadPort = .silent ∧ tilePositions s.regs ≠ [] ∧ needsSad i s go = hang i s) ∨ needsSad i s go = go := by
  unfold needsSad
  split
  · exact .inl ⟨(by assumption : _ ∧ _).1, (by assumption : _ ∧ _).2, rfl⟩
  · exact .inr rfl

theorem finishDistortion_cases (D : Word) (s : State) :
    (representable (biasedProduct D s.regs.biasBase) = true ∧ finishDistortion D s =
      complete { s.regs with result := BitVec.ofInt 64 (rha (biasedProduct D s.regs.biasBase)) } s) ∨
    (representable (biasedProduct D s.regs.biasBase) = false ∧
      finishDistortion D s = raise .numeric (biasedProduct D s.regs.biasBase) s) := by
  unfold finishDistortion
  cases h : representable (biasedProduct D s.regs.biasBase)
  · exact .inr ⟨rfl, if_neg (by simp [h])⟩
  · exact .inl ⟨rfl, if_pos h⟩

end Sys2Proof.Machine
end

