-- ==== Sys2Proof/Laws/Exec.lean ====
section
/-! SUPPORT. What a command can do, said once (30_encoding.md R92, 60_exceptions.md R268, R272, R273): every proof about
all commands goes through `exec_effect`. -/

namespace Sys2Proof.Machine

/-- Everything a command can do to the state it is given. -/
inductive CommandEffect (i : Instr) (s : State) : Result → Prop where
  /-- the unit was not IDLE: the word is dropped -/
  | dropped (h : s.isIdle = false) : CommandEffect i s (.next s)
  /-- the command completed, and wrote its destination registers -/
  | completed (h : s.isIdle = true) (ha : acceptanceFault i s.regs = none) (r : Regs)
      (hr : writesOnly i s.regs r) : CommandEffect i s (complete r s)
  /-- an acceptance check failed -/
  | rejected (h : s.isIdle = true) (c : Cause) (info : Word) (ha : acceptanceFault i s.regs = some (c, info)) :
      CommandEffect i s (raise c info s)
  /-- a sample was unreadable -/
  | memError (h : s.isIdle = true) (ha : acceptanceFault i s.regs = none) (hi : readsMemory i = true) (a : Nat) :
      CommandEffect i s (raise .memError (BitVec.ofNat 64 a) { s with fresh := s.fresh + 1 })
  /-- the product of the entry point has no representable value -/
  | numeric (h : s.isIdle = true) (ha : acceptanceFault i s.regs = none) (hi : i = .fdistS ∨ i = .fdistH)
      (p : Word) (hp : representable p = false) : CommandEffect i s (raise .numeric p s)
  /-- a port never answers -/
  | hung (h : s.isIdle = true) (ha : acceptanceFault i s.regs = none) (hi : readsMemory i = true) :
      CommandEffect i s (hang i s)
  /-- a sample lies on a device -/
  | device (h : s.isIdle = true) (hi : readsMemory i = true) (a : Nat) :
      CommandEffect i s (.refused (.deviceRead a))
  /-- `RST` -/
  | reset (h : busyFlag s.run = false) (hi : i = .rst) : CommandEffect i s (.next (resetUnit s))

theorem effect_whenIdle {i : Instr} {s : State} {r : Regs} (ha : acceptanceFault i s.regs = none)
    (hr : writesOnly i s.regs r) : CommandEffect i s (whenIdle s (complete r s)) := by
  rcases whenIdle_cases s (complete r s) with ⟨h, e⟩ | ⟨h, e⟩ <;> rw [e]
  · exact .completed h ha r hr
  · exact .dropped h

theorem effect_reading {i : Instr} {d : Depth} {reads : List SampleRef} {s : State} {go : Result}
    (hi : readsMemory i = true)
    (hgo : s.isIdle = true → acceptanceFault i s.regs = none → CommandEffect i s go) :
    CommandEffect i s (readingCommand i d reads s go) := by
  rcases readingCommand_cases i d reads s go with ⟨h, e⟩ | ⟨h, c, info, ha, e⟩ | ⟨h, ha, e⟩
  · rw [e]; exact .dropped h
  · rw [e]; exact .rejected h c info ha
  · rw [e]
    rcases withSamples_cases i d reads s go with ⟨_, _, e⟩ | ⟨a, e⟩ | ⟨a, _, e⟩ | ⟨_, _, e⟩ <;> rw [e]
    · exact .hung h ha hi
    · exact .device h hi a
    · exact .memError h ha hi a
    · exact hgo h ha

theorem effect_needsSad {i : Instr} {s : State} {go : Result} (h : s.isIdle = true)
    (ha : acceptanceFault i s.regs = none) (hi : readsMemory i = true) (hgo : CommandEffect i s go) :
    CommandEffect i s (needsSad i s go) := by
  rcases needsSad_cases i s go with ⟨_, _, e⟩ | e <;> rw [e]
  · exact .hung h ha hi
  · exact hgo

/-- What the command does is one of the cases of `CommandEffect`. -/
theorem exec_effect (i : Instr) (s : State) : CommandEffect i s (exec i s) := by
  cases i with
  | nop => exact effect_whenIdle rfl rfl
  | abs2L16 rd rs => exact effect_whenIdle rfl ⟨_, rfl⟩
  | abs2L32 rd rs => exact effect_whenIdle rfl ⟨_, rfl⟩
  | had4B32 => exact effect_whenIdle rfl ⟨_, _, _, _, rfl⟩
  | had4B64 => exact effect_whenIdle rfl ⟨_, _, _, _, rfl⟩
  | satd4S ref => exact effect_reading rfl fun h ha => .completed h ha _ ⟨_, rfl⟩
  | satd4H ref => exact effect_reading rfl fun h ha => .completed h ha _ ⟨_, rfl⟩
  | sa8dS ref => exact effect_reading rfl fun h ha => .completed h ha _ ⟨_, rfl⟩
  | sa8dH ref => exact effect_reading rfl fun h ha => .completed h ha _ ⟨_, rfl⟩
  | psydS => exact effect_reading rfl fun h ha => effect_needsSad h ha rfl (.completed h ha _ ⟨_, rfl⟩)
  | psydH => exact effect_reading rfl fun h ha => effect_needsSad h ha rfl (.completed h ha _ ⟨_, rfl⟩)
  | bias => exact effect_whenIdle rfl ⟨_, rfl⟩
  | fdistS =>
    refine effect_reading rfl fun h ha => effect_needsSad h ha rfl ?_
    rcases finishDistortion_cases (psyd s .standard) s with ⟨_, e⟩ | ⟨hp, e⟩ <;> rw [e]
    · exact .completed h ha _ ⟨_, rfl⟩
    · exact .numeric h ha (.inl rfl) _ hp
  | fdistH =>
    refine effect_reading rfl fun h ha => effect_needsSad h ha rfl ?_
    rcases finishDistortion_cases (psyd s .high) s with ⟨_, e⟩ | ⟨hp, e⟩ <;> rw [e]
    · exact .completed h ha _ ⟨_, rfl⟩
    · exact .numeric h ha (.inr rfl) _ hp
  | rst =>
    show CommandEffect .rst s (execRst s)
    unfold execRst
    split
    · exact .dropped (by simp [State.isIdle, *])
    · rename_i h
      refine .reset ?_ rfl
      cases hr : s.run with
      | busy i l => exact absurd hr (h i l)
      | idle d => rfl
      | faulted c => rfl

/-- The registers but the destination registers keep their values when a command completes. -/
theorem writesOnly_finfo {i : Instr} {r r' : Regs} (h : writesOnly i r r') : r'.finfo = r.finfo := by
  cases i <;> simp only [writesOnly] at h <;> first
    | (obtain ⟨_, _, _, _, rfl⟩ := h; rfl)
    | (obtain ⟨_, rfl⟩ := h; first | rfl | simp)

/-- A command that fails its acceptance checks fails with what R181 and R192 say of it. -/
theorem tileCheck_some {n : Nat} {d : Depth} {ref : RefSel} {r : Regs} {c : Cause} {info : Word}
    (h : tileCheck n d ref r = some (c, info)) :
    (c = .geometry ∧ info = 5) ∨
      (c = .misaligned ∧ d = .high ∧ ((info = r.aBase ∧ misaligned r d .a = true) ∨
        (ref = .b ∧ info = r.bBase ∧ misaligned r d .b = true))) := by
  unfold tileCheck at h
  split at h
  · simp_all
  split at h
  · simp_all
  split at h
  · simp only [Option.some.injEq, Prod.mk.injEq] at h
    rename_i hm
    refine .inr ⟨h.1.symm, ?_, .inl ⟨h.2.symm, hm⟩⟩
    simp only [misaligned, Bool.and_eq_true, beq_iff_eq] at hm
    exact hm.1
  split at h
  · simp only [Option.some.injEq, Prod.mk.injEq] at h
    rename_i hm
    simp only [Bool.and_eq_true, beq_iff_eq] at hm
    refine .inr ⟨h.1.symm, ?_, .inr ⟨hm.1, h.2.symm, hm.2⟩⟩
    have := hm.2
    simp only [misaligned, Bool.and_eq_true, beq_iff_eq] at this
    exact this.1
  · cases h

theorem regionCheck_some {d : Depth} {r : Regs} {c : Cause} {info : Word} (h : regionCheck d r = some (c, info)) :
    (c = .geometry ∧ 1 ≤ info.toNat ∧ info.toNat ≤ 5) ∨
      (c = .misaligned ∧ d = .high ∧ ((info = r.aBase ∧ misaligned r d .a = true) ∨
        (info = r.bBase ∧ misaligned r d .b = true))) := by
  unfold regionCheck at h
  simp only at h
  iterate 6
    split at h
    · simp only [Option.some.injEq, Prod.mk.injEq] at h
      exact .inl ⟨h.1.symm, by rw [← h.2]; decide, by rw [← h.2]; decide⟩
  split at h
  · simp only [Option.some.injEq, Prod.mk.injEq] at h
    rename_i hm
    refine .inr ⟨h.1.symm, ?_, .inl ⟨h.2.symm, hm⟩⟩
    simp only [misaligned, Bool.and_eq_true, beq_iff_eq] at hm
    exact hm.1
  split at h
  · simp only [Option.some.injEq, Prod.mk.injEq] at h
    rename_i hm
    refine .inr ⟨h.1.symm, ?_, .inr ⟨h.2.symm, hm⟩⟩
    simp only [misaligned, Bool.and_eq_true, beq_iff_eq] at hm
    exact hm.1
  · cases h

end Sys2Proof.Machine
end

