-- ==== Sys2Proof/Tests/Slice0.lean ====
section
/-! SUPPORT. The model's own tests. Expected values are the spec's (95_test_vectors.md, named V10 and on, or the rule
named beside a test). The theorems `witness_<Statement>` show operands and states that meet the hypotheses of a
statement, clause by clause. -/

namespace Sys2Proof.Machine

/-! ### Helpers -/

/-- The state a result answers; the reset state where it answers none. -/
def after : Result → State
  | .next s => s
  | _ => State.reset

/-- What STATUS, FINFO and RESULT show after a result. -/
def shows (r : Result) : Nat × Nat × Nat :=
  ((after r).status.toNat, (after r).regs.finfo.toNat, (after r).regs.result.toNat)

/-- Bytes at an address and on. -/
def bytesAt (base : Nat) (l : List Nat) : Memory := l.mapIdx fun k b => (base + k, BitVec.ofNat 8 b)

/-- The unit after reset, with memory and operand registers of a region of `size` x `size` samples in two views. -/
def regionState (m : Memory) (a b stride size : Nat) (bias : Word) : State :=
  { State.reset with
    mem := m
    regs := { Regs.zero with
      aBase := BitVec.ofNat 64 a, aStride := BitVec.ofNat 32 stride, bBase := BitVec.ofNat 64 b,
      bStride := BitVec.ofNat 32 stride, width := BitVec.ofNat 32 size, height := BitVec.ofNat 32 size,
      biasBase := bias } }

/-- The four general registers and the operand of `BIAS`. -/
def wordsState (a b c d : Word) : State :=
  { State.reset with regs := { Regs.zero with w0 := a, w1 := b, w2 := c, w3 := d } }

/-- A unit that waits in front of memory holding two 4 x 4 regions of either depth, 32 bytes each. -/
def small : State :=
  regionState (bytesAt 0x1000 (List.replicate 32 7) ++ bytesAt 0x2000 (List.replicate 32 7)) 0x1000 0x2000 4 4
    0x3FF0000000000000#64

/-- The same with other operand registers. -/
def smallWith (f : Regs → Regs) : State := { small with regs := f small.regs }

def faultedUnit : State := { State.reset with run := .faulted .geometry, regs := { Regs.zero with finfo := 1 } }

def busyUnit : State := { State.reset with run := .busy .psydS (some 2) }

/-! ### Well-formedness (30_encoding.md R98) -/

/-- Fields that are those of `NOP`. -/
def nopFields : Fields := ⟨0, 0, 0, 0, 0, 0⟩

theorem test_wellFormed_nop : nopFields.wellFormed = true := by decide
theorem test_refuse_reserved_bits : { nopFields with reserved := 1 }.error? = some .reservedBits := by decide
theorem test_refuse_top_bit : { nopFields with reserved := 0x200000#22 }.error? = some .reservedBits := by decide
theorem test_refuse_reserved_op :
    { nopFields with op := 8 }.error? = some .reservedOp ∧ { nopFields with op := 14 }.error? = some .reservedOp := by
  decide
theorem test_refuse_unused_d : { nopFields with op := 6, d := 1 }.error? = some .unusedField := by decide
theorem test_refuse_unused_z : { nopFields with op := 1, z := 1 }.error? = some .unusedField := by decide
theorem test_refuse_unused_rd : { nopFields with op := 3, rd := 1 }.error? = some .unusedField := by decide
theorem test_refuse_unused_rs : { nopFields with op := 2, rs := 2 }.error? = some .unusedField := by decide
theorem test_accept_used_fields : (Fields.mk 1 1 0 2 3 0).wellFormed = true := by decide

/-! ### Decoding: words written out bit by bit, reserved(22) rs(2) rd(2) z d op(4), from R91 and R93 -/

theorem test_decode_nop : decode 0b0000000000000000000000_00_00_0_0_0000#32 = .ok .nop := by decide
theorem test_decode_abs2L16 : decode 0b0000000000000000000000_10_11_0_0_0001#32 = .ok (.abs2L16 .w3 .w2) := by decide
theorem test_decode_abs2L32 : decode 0b0000000000000000000000_11_10_0_1_0001#32 = .ok (.abs2L32 .w2 .w3) := by decide
theorem test_decode_abs2L16_other :
    decode 0b0000000000000000000000_00_01_0_0_0001#32 = .ok (.abs2L16 .w1 .w0) := by decide
theorem test_decode_had4B32 : decode 0b0000000000000000000000_00_00_0_0_0010#32 = .ok .had4B32 := by decide
theorem test_decode_had4B64 : decode 0b0000000000000000000000_00_00_0_1_0010#32 = .ok .had4B64 := by decide
theorem test_decode_satd4S_b : decode 0b0000000000000000000000_00_00_0_0_0011#32 = .ok (.satd4S .b) := by decide
theorem test_decode_satd4S_zero : decode 0b0000000000000000000000_00_00_1_0_0011#32 = .ok (.satd4S .zero) := by decide
theorem test_decode_satd4H : decode 0b0000000000000000000000_00_00_1_1_0011#32 = .ok (.satd4H .zero) := by decide
theorem test_decode_sa8dS : decode 0b0000000000000000000000_00_00_1_0_0100#32 = .ok (.sa8dS .zero) := by decide
theorem test_decode_sa8dH : decode 0b0000000000000000000000_00_00_0_1_0100#32 = .ok (.sa8dH .b) := by decide
theorem test_decode_psydS : decode 0b0000000000000000000000_00_00_0_0_0101#32 = .ok .psydS := by decide
theorem test_decode_psydH : decode 0b0000000000000000000000_00_00_0_1_0101#32 = .ok .psydH := by decide
theorem test_decode_bias : decode 0b0000000000000000000000_00_00_0_0_0110#32 = .ok .bias := by decide
theorem test_decode_fdistS : decode 0b0000000000000000000000_00_00_0_0_0111#32 = .ok .fdistS := by decide
theorem test_decode_fdistH : decode 0b0000000000000000000000_00_00_0_1_0111#32 = .ok .fdistH := by decide
theorem test_decode_rst : decode 0b0000000000000000000000_00_00_0_0_1111#32 = .ok .rst := by decide

/-- The illegal words that 95_test_vectors.md lists. -/
theorem test_decode_illegal : ([0x8, 0x9, 0xA, 0xB, 0xC, 0xD, 0xE, 0x10, 0x20, 0x40, 0x100, 0x21, 0x22, 0x42, 0x102,
    0x43, 0x103, 0x44, 0x25, 0x16, 0x26, 0x27, 0x1F, 0x2F, 0x400, 0x401, 0x80000000, 0xFFFFFFFF].all
      fun w => (decodeTableWord 32 w).isNone) = true := by decide

/-! ### The commands -/

/-- V94. -/
theorem test_nop : shows (step (State.reset.withFetchWord 32 0)) = (2, 0, 0) := by decide

/-- V15: the destination's upper half is zero, the source keeps all its bits. -/
theorem test_abs2L16 :
    after (step ((wordsState 0 0 0xDEADBEEF0004FFFD#64 0xFFFFFFFFFFFFFFFF#64).withFetchWord 32 0x2C1)) =
      { wordsState 0 0 0xDEADBEEF0004FFFD#64 0x0000000000050003#64 with run := .idle true } := by decide

/-- V12, and the out-of-range lane under V19. -/
theorem test_abs2_words : abs2 16 0xFF00FF01#32 = 0x00FF00FF#32 ∧ abs2 16 0x7FFF8000#32 = 0x80008000#32 ∧
    abs2 16 0xFFFFFFFF#32 = 0x00000001#32 := by decide

/-- V17: W3 into W2. -/
theorem test_abs2L32 : (after (exec (.abs2L32 .w2 .w3) (wordsState 0 0 0 0xFFFFFFFEFFFFFFFF#64))).regs.w2 =
    0x0000000100000001#64 := by decide

/-- V19. -/
theorem test_abs2L32_mixed : (after (exec (.abs2L32 .w0 .w0) (wordsState 0x00000FEFFFFFFC04#64 0 0 0))).regs.w0 =
    0x00000FF0000003FC#64 := by decide

/-- V23, with bits in the upper halves, which are ignored and cleared. -/
theorem test_had4B32 : after (exec .had4B32 (wordsState 0xAAAAAAAA00000001#64 2 3 0xFFFFFFFF00000004#64)) =
    { wordsState 0xA 0xFFFFFFFC 0xFFFFFFFE 0 with run := .idle true } := by decide

/-- V25. -/
theorem test_had4B32_carry : after (exec .had4B32 (wordsState 0x7FFFFFFF 1 0 0)) =
    { wordsState 0x80000000 0x80000000 0x7FFFFFFE 0x7FFFFFFE with run := .idle true } := by decide

/-- V29. -/
theorem test_had4B64 : after (exec .had4B64 (wordsState 0xFFFFFC01000003FF#64 0x000003FEFFFFFC01#64
    0x000003FF000003FF#64 0xFFFFFC00FFFFFC01#64)) =
    { wordsState 0 0 0x0000000000000FFC#64 0xFFFFF00400000000#64 with run := .idle true } := by decide

/-- V28. -/
theorem test_had4B64_wrap : after (exec .had4B64 (wordsState 0x8000000000000000#64 0x8000000000000000#64 0 0)) =
    { wordsState 0 0 0 0 with run := .idle true } := by decide

/-- The memory and operands of P2 (offset 2, stride 6 in view A). -/
def p2 : State :=
  { State.reset with
    mem := bytesAt 0x1000 [0xEE, 0xEE, 10, 20, 30, 40, 0xEE, 0xEE, 50, 60, 70, 80, 0xEE, 0xEE, 90, 100, 110, 120,
        0xEE, 0xEE, 130, 140, 150, 160] ++
      bytesAt 0x2000 [12, 18, 33, 37, 50, 65, 70, 75, 91, 99, 112, 118, 128, 141, 149, 163]
    regs := { Regs.zero with aBase := 0x1000, aOff := 2, aStride := 6, bBase := 0x2000, bStride := 4 } }

/-- V31, on the memory of P2. -/
theorem test_satd4S_b : shows (step (p2.withFetchWord 32 0x03)) = (2, 0, 65) := by decide +kernel

/-- V32, on the memory of P2. -/
theorem test_satd4S_zero : shows (step (p2.withFetchWord 32 0x23)) = (2, 0, 1280) := by decide +kernel

/-- V34b: cb(4, 1023) in view A, 16-bit little-endian samples. -/
theorem test_satd4H : shows (exec (.satd4H .zero) (regionState (bytesAt 0x1000
    [0, 0, 255, 3, 0, 0, 255, 3, 255, 3, 0, 0, 255, 3, 0, 0, 0, 0, 255, 3, 0, 0, 255, 3, 255, 3, 0, 0, 255, 3, 0, 0])
    0x1000 0x2001 4 4 0)) = (2, 0, 8184) := by decide +kernel

/-- cb(n, 255) as a tile. -/
def checkerTile : Tile := fun r c => if (r + c) % 2 = 1 then 255 else 0

/-- The 64 bytes of cb(8, 255). -/
def checkerboard : List Nat := (List.range 64).map fun k => if (k / 8 + k) % 2 = 1 then 255 else 0

/-- The 128 bytes of cb(8, 1023) as 16-bit samples. -/
def checkerboardHigh : List Nat :=
  (List.range 128).map fun k => if (k / 16 + k / 2) % 2 = 1 then (if k % 2 = 0 then 255 else 3) else 0

/-- V41: cb(8, 255) against flat(8, 128). -/
def v41 (bias : Word) : State :=
  regionState (bytesAt 0x6000 checkerboard ++ bytesAt 0x7000 (List.replicate 64 128)) 0x6000 0x7000 8 8 bias

/-- V42b, P3: cb(8, 1023) against flat(8, 512). -/
def v42b (bias : Word) : State :=
  regionState (bytesAt 0x4000 checkerboardHigh ++
    bytesAt 0x5000 ((List.range 128).map fun k => if k % 2 = 1 then 2 else 0)) 0x4000 0x5000 8 8 bias

/-- V35. -/
theorem test_sa8dS : shows (exec (.sa8dS .zero) (v41 0)) = (2, 0, 4080) := by decide +kernel

/-- V36. -/
theorem test_sa8dH : shows (exec (.sa8dH .zero) (v42b 0)) = (2, 0, 16368) := by decide +kernel

/-- V37: sample (r, c) = 8r + c, and one sample 3. -/
theorem test_sa8d_tiles : (sa8d (N := 32) 16 (fun r c => 8 * r + c) zeroTile).toNat = 1008 ∧
    (sa8d (N := 32) 16 (fun r c => if r = 2 ∧ c = 5 then 3 else 0) zeroTile).toNat = 48 := by decide +kernel

/-- V41. -/
theorem test_psydS : shows (exec .psydS (v41 0)) = (2, 0, 1020) := by decide +kernel

/-- V42b. -/
theorem test_psydH : shows (exec .psydH (v42b 0)) = (2, 0, 32736) := by decide +kernel

/-- V54 and V57, INTRA = 1; V58 at layer 1. -/
theorem test_bias_products : effectiveBias 0x3FB999999999999A#64 1 0 = 0x3FA47AE147AE147C#64 ∧
    effectiveBias 0x7FE1CCF385EBC8A0#64 1 2 = 0x7FCC7B1F3CAC7434#64 ∧ effectiveBias 1 0 1 = 1 := by decide +kernel

/-- V52 at layer 2, and at layer 0xFFFFFFFF. -/
theorem test_bias :
    (after (exec .bias { State.reset with
      regs := { Regs.zero with biasBase := 0x4008000000000000#64, tlayer := 2 } })).regs.biasEff =
        0x4006CCCCCCCCCCCC#64 ∧
    (after (exec .bias { State.reset with
      regs := { Regs.zero with biasBase := 0x4008000000000000#64, tlayer := 0xFFFFFFFF } })).regs.biasEff =
        0x4008000000000000#64 := by decide +kernel

/-- V74: a negative bias. -/
theorem test_fdistS : shows (step ((v41 0xBFF0000000000000#64).withFetchWord 32 7)) =
    (2, 0, 0xFFFFFFFFFFFFFC04) := by decide +kernel

/-- V78, V77, V79b and V68 on the product and its rounding alone. -/
theorem test_fdist_products : rha (biasedProduct 1020 0x433FF973CAFA8000#64) = 9180000000000000000 ∧
    biasedProduct 1020 0x4341C37937E08000#64 = 0x43E1B1B5BEA89F80#64 ∧
    representable (biasedProduct 1020 0x4341C37937E08000#64) = false ∧
    rha (biasedProduct 64 0xC380000000000000#64) = -(2 ^ 63) ∧
    representable (biasedProduct 64 0xC380000000000000#64) = true ∧
    representable (biasedProduct 64 0x4380000000000000#64) = false ∧
    rha (biasedProduct 15 0x3FECCCCCCCCCCCCD#64) = 14 := by decide +kernel

/-- P3: bias 1.8. -/
theorem test_fdistH : shows (step ((v42b 0x3FFCCCCCCCCCCCCD#64).withFetchWord 32 0x17)) = (2, 0, 58925) := by
  decide +kernel

/-- V75: infinite bias on an empty region. -/
theorem test_fdistS_numeric : shows (exec .fdistS (regionState [] 0 0 0 0 0x7FF0000000000000#64)) =
    (0x504, 0x7FF8000000000000, 0) := by decide +kernel

/-- V101. -/
theorem test_rst : after (hostWrite 0 0xF { faultedUnit with regs := { Regs.zero with finfo := 1, width := 12 } }) =
    State.reset := by decide

/-! ### Faults and the host port -/

/-- V81, V83, V87. -/
theorem test_geometry_width :
    shows (exec .psydS (smallWith fun r => { r with width := 12, height := 8, aStride := 16, bStride := 16 })) =
      (0x204, 1, 0) ∧
    shows (exec .psydH (smallWith fun r => { r with aBase := 0x4001, width := 12, height := 8 })) = (0x204, 1, 0) := by
  decide +kernel

/-- V88 and V88b: the last byte at 2^64 + 0x2F, and at 2^64 - 1. -/
theorem test_geometry_span :
    acceptanceFault .psydS (v41 0).regs = none ∧
    acceptanceFault .psydS { (v41 0).regs with aBase := 0xFFFFFFFFFFFFFFF0#64 } = some (.geometry, 5) ∧
    acceptanceFault .psydS { (v41 0).regs with aBase := 0xFFFFFFFFFFFFFFC0#64 } = none ∧
    acceptanceFault (.satd4S .zero) { Regs.zero with aBase := 0xFFFFFFFFFFFFFFFF#64 } = some (.geometry, 5) := by
  decide +kernel

/-- V89b and V89c. -/
theorem test_misaligned :
    acceptanceFault .psydH { (v41 0).regs with aBase := 0x4000, bBase := 0x5001 } = some (.misaligned, 0x5001) ∧
    acceptanceFault (.satd4H .zero) { (v41 0).regs with aBase := 0x4000, bBase := 0x5001 } = none := by decide +kernel

/-- P2's last sentence: one unreadable byte of view B. -/
theorem test_memError : shows (exec (.satd4S .b) { p2 with mem := p2.mem.unback 0x2005 }) = (0x404, 0x2005, 0) := by
  decide +kernel

/-- V80. -/
theorem test_illegal_word : shows (step (State.reset.withFetchWord 32 8)) = (0x104, 8, 0) := by decide

/-- V95 to V97. -/
theorem test_narrow_registers :
    regRead (after (hostWrite 9 0x0000000100000005#64 State.reset)) 9 = 5 ∧
    regRead (after (hostWrite 18 0xFFFFFFFFFFFFFFFE#64 State.reset)) 18 = 0 ∧
    regRead (after (hostWrite 18 3 State.reset)) 18 = 1 ∧
    regRead (after (hostWrite 19 0x0000000100000002#64 State.reset)) 19 = 2 := by decide

/-- V100: everything but the exact `RST` word is dropped while FAULTED. -/
theorem test_faulted_drops : after (hostWrite 14 8 faultedUnit) = faultedUnit ∧
    after (hostWrite 0 0 faultedUnit) = faultedUnit ∧ after (hostWrite 0 0x1F faultedUnit) = faultedUnit := by decide

/-- The decoding note of 95_test_vectors.md: the upper half of a value written to CMD is ignored. -/
theorem test_upper_half_ignored : (after (hostWrite 0 0xFFFFFFFF00000000#64 State.reset)).run = .idle true := by decide

/-! ### Witnesses: the hypotheses of the statements can be met -/

theorem witness_DecodeAndEncodeAreInverse :
    (15 < 16 ∧ 1 < 2 ∧ 3 < 4) ∧ (Instr.rst).wellFormed = true ∧ decode 0x3D1 = .ok (.abs2L32 .w3 .w3) := by decide

theorem witness_OpcodeMapDescribesDecode :
    (⟨"RST", 0x0000000F, 0xFFFFFFFF⟩ : OpcodeRow) ∈ opcodeMap ∧ ∀ row ∈ opcodeMap, row.selects 0x1F = false := by
  decide

theorem witness_IllegalWordsAreThoseOfTheThreeClauses :
    State.reset.isIdle = true ∧ decode 0x400 = .error .reservedBits ∧ decode 0xE = .error .reservedOp ∧
      decode 0x1F = .error .unusedField := by decide

theorem witness_StepRunsTheWrittenCommand :
    (let s : State := { State.reset with host := [.write 0 0xFFFFFFFF0000000F#64] };
      s.isIdle = true ∧ s.host = .write 0 0xFFFFFFFF0000000F#64 :: [] ∧
      decode ((0xFFFFFFFF0000000F#64 : Word).setWidth 32) = .ok .rst ∧ (Instr.rst).wellFormed = true ∧
      s.latency = []) ∧
    (let s : State := { State.reset with host := [.write 0 0], latency := [0, 3] };
      s.isIdle = true ∧ s.host = .write 0 0 :: [] ∧ decode ((0 : Word).setWidth 32) = .ok .nop ∧
      s.latency = 0 :: [3]) ∧
    (State.reset.isIdle = true ∧ decode (BitVec.ofNat 32 0x3D1) = .ok (.abs2L32 .w3 .w3) ∧ 0x3D1 < 2 ^ 32) := by decide

theorem witness_BusyUnitDropsWrites : busyUnit.run = .busy .psydS (some 2) ∧ (31 : BitVec 5) ≠ 1 := by decide

theorem witness_FaultedUnitTakesOnlyTheResetWord :
    faultedUnit.run = .faulted .geometry ∧ (0xFFFFFFFF0000000F#64 : Word).setWidth 32 = 0x0000000F#32 ∧
      ¬((0 : BitVec 5) = 0 ∧ (0x1F#64 : Word).setWidth 32 = 0x0000000F#32) ∧
      ¬((1 : BitVec 5) = 0 ∧ (0xF#64 : Word).setWidth 32 = 0x0000000F#32) := by decide

theorem witness_HostWriteStoresTheImplementedBits :
    State.reset.isIdle = true ∧ (4 : BitVec 5) ≠ 0 ∧ writableBits 4 ≠ 0 ∧ writableBits 18 = 1 ∧ writableBits 19 ≠ 0 ∧
      writableBits 17 = 0 ∧ writableBits 20 = 0 ∧ writableBits 31 = 0 ∧ (18 : BitVec 5) ≠ 19 ∧
      20 ≤ (20 : BitVec 5).toNat ∧ 20 ≤ (31 : BitVec 5).toNat ∧ (17 : BitVec 5).toNat ∈ [1, 2, 3, 17] := by decide

theorem witness_StatusShowsOneFlag :
    (State.reset.run = .idle false ∧ busyUnit.run = .busy .psydS (some (1 + 1)) ∧ faultedUnit.run = .faulted .geometry ∧
      State.reset.status.getLsbD 2 = false) ∧
    (let s : State := { faultedUnit with host := [.wait] }; s.host = .wait :: [] ∧ s.status.getLsbD 0 = false) ∧
    (let s : State := { busyUnit with host := [.wait, .read 3] };
      s.host = .wait :: [.read 3] ∧ s.run = .busy .psydS (some (1 + 1))) := by decide

theorem witness_OnlyWholeRegistersAreAccessible :
    (252 < 256 ∧ (4 ≠ 8 ∨ 252 % 8 ≠ 0)) ∧ (255 < 256 ∧ (8 ≠ 8 ∨ 255 % 8 ≠ 0)) := by decide

theorem witness_NopChangesOnlyStatus : State.reset.isIdle = true ∧ busyUnit.isIdle = false ∧
    faultedUnit.isIdle = false := by decide

theorem witness_RstResetsTheUnit :
    busyFlag faultedUnit.run = false ∧ busyFlag State.reset.run = false ∧ busyFlag busyUnit.run = true ∧
      (0xF#64 : Word).setWidth 32 = 0x0000000F#32 ∧
      ((0x1F#64 : Word).extractLsb' 0 4 = 15#4 ∧ (0x1F#64 : Word).setWidth 32 ≠ 0x0000000F#32) ∧
      ¬((14 : BitVec 5) = 0 ∧ (0xF#64 : Word).setWidth 32 = 0x0000000F#32) ∧
      ¬((0 : BitVec 5) = 0 ∧ (0#64 : Word).setWidth 32 = 0x0000000F#32) ∧
      State.reset.isIdle = true ∧ faultedUnit.run = .faulted .geometry := by decide

theorem witness_EveryWordIsOnePairOfLanes :
    (laneFits 16 (-32768) ∧ laneFits 16 32767) ∧ (laneFits 32 (-2147483648) ∧ laneFits 32 2147483647) ∧
    (laneFits 16 (loLane 16 0xFFFAFFFD#32 + loLane 16 0x0004FFFD#32) ∧
      laneFits 16 (hiLane 16 0xFFFAFFFD#32 + hiLane 16 0x0004FFFD#32)) ∧
    (laneFits 32 (loLane 32 0xFFFFFFFAFFFFFFFD#64 - loLane 32 0x00000004FFFFFFFD#64) ∧
      laneFits 32 (hiLane 32 0xFFFFFFFAFFFFFFFD#64 - hiLane 32 0x00000004FFFFFFFD#64)) := by
  unfold laneFits; decide

theorem witness_Abs2L16WritesTheLaneMagnitudes : (wordsState 1 2 3 4).isIdle = true := by decide

theorem witness_Abs2L32WritesTheLaneMagnitudes : (wordsState 1 2 3 4).isIdle = true := by decide

/-- The words of V26 and V29. -/
theorem witness_ButterflyActsLaneByLane :
    (let w := 0xFF0100FF#32; let x := 0x00FEFF01#32; let y := 0x00FF00FF#32; let z := 0xFF00FF01#32;
      ∀ lane ∈ [loLane (N := 32) 16, hiLane 16],
        laneFits 16 (lane w + lane x) ∧ laneFits 16 (lane w - lane x) ∧
        laneFits 16 (lane y + lane z) ∧ laneFits 16 (lane y - lane z) ∧
        laneFits 16 (lane w + lane x + lane y + lane z) ∧ laneFits 16 (lane w + lane x - lane y - lane z) ∧
        laneFits 16 (lane w - lane x + lane y - lane z) ∧ laneFits 16 (lane w - lane x - lane y + lane z)) ∧
    (let w := 0xFFFFFC01000003FF#64; let x := 0x000003FEFFFFFC01#64;
     let y := 0x000003FF000003FF#64; let z := 0xFFFFFC00FFFFFC01#64;
      ∀ lane ∈ [loLane (N := 64) 32, hiLane 32],
        laneFits 32 (lane w + lane x) ∧ laneFits 32 (lane w - lane x) ∧
        laneFits 32 (lane y + lane z) ∧ laneFits 32 (lane y - lane z) ∧
        laneFits 32 (lane w + lane x + lane y + lane z) ∧ laneFits 32 (lane w + lane x - lane y - lane z) ∧
        laneFits 32 (lane w - lane x + lane y - lane z) ∧ laneFits 32 (lane w - lane x - lane y + lane z)) := by
  unfold laneFits; decide

theorem witness_Had4B32WritesTheFourSums :
    (wordsState 1 2 3 0xFFFFFFFF00000004#64).isIdle = true ∧
      (4 : Int) = ((wordsState 1 2 3 0xFFFFFFFF00000004#64).regs.w3.toNat % 2 ^ 32 : Nat) := by decide

theorem witness_Had4B64WritesTheFourSums :
    (wordsState 1 2 3 4).isIdle = true ∧ (4 : Int) = ((wordsState 1 2 3 4).regs.w3.toNat : Int) := by decide

theorem witness_Satd4IsTheTransformEnergy :
    (Tile.boundedBy (fun r c => 60 * r + 25 * c) 4 255 ∧ Tile.boundedBy zeroTile 4 255) ∧
      (Tile.boundedBy (fun _ _ => 65535) 4 65535 ∧ Tile.boundedBy zeroTile 4 65535) := by
  unfold Tile.boundedBy; decide

theorem witness_Sa8dIsTheTransformEnergy :
    (Tile.boundedBy (fun r c => 8 * r + c) 8 255 ∧ Tile.boundedBy zeroTile 8 255) ∧
      (Tile.boundedBy (fun _ _ => 65535) 8 65535 ∧ Tile.boundedBy zeroTile 8 65535) := by
  unfold Tile.boundedBy; decide

theorem witness_Satd4Consequences :
    Tile.boundedBy (fun _ _ => 255) 4 255 ∧ Tile.boundedBy (fun _ _ => 65535) 4 65535 ∧ 65535 ≤ 65535 ∧ 3 < 4 := by
  unfold Tile.boundedBy; decide

theorem witness_Sa8dConsequences :
    Tile.boundedBy (fun _ _ => 255) 8 255 ∧ Tile.boundedBy (fun _ _ => 65535) 8 65535 ∧ 65535 ≤ 65535 ∧ 7 < 8 := by
  unfold Tile.boundedBy; decide

theorem witness_CheckerboardConstants : 65535 ≤ 65535 ∧ 1 < 2 ∧ 255 ≤ 255 := by decide

/-- One state for each clause, at the edge of the address space. -/
theorem witness_TileCommandsCheckInOrder :
    (Instr.satd4H, 4, Depth.high) ∈ tileCommands ∧ small.isIdle = true ∧
    ¬viewFits { small.regs with aBase := 0xFFFFFFFFFFFFFFE1#64 } .high .a 3 3 ∧
    (viewFits small.regs .high .a 3 3 ∧ ¬viewFits { small.regs with bBase := 0xFFFFFFFFFFFFFFE1#64 } .high .b 3 3) ∧
    (let r := { small.regs with aBase := 0x1001 };
      viewFits r .high .a 3 3 ∧ viewFits r .high .b 3 3 ∧ ¬baseEven r .a) ∧
    (let r := { small.regs with bBase := 0xFFFFFFFFFFFFFFDF#64 };
      viewFits r .high .a 3 3 ∧ viewFits r .high .b 3 3 ∧ baseEven r .a ∧ ¬baseEven r .b) := by
  unfold viewFits baseEven; exact ⟨by simp [tileCommands], by decide +kernel⟩

/-- Two 4 x 4 tiles of either depth, accepted and readable. -/
theorem witness_Satd4CommandsWriteTheEstimate :
    (small.isIdle = true ∧ tileAccepted 4 .standard .b small.regs ∧ small.samplesReady .standard (tileReads 4 .b)) ∧
    (small.isIdle = true ∧ tileAccepted 4 .high .zero small.regs ∧ small.samplesReady .high (tileReads 4 .zero)) := by
  unfold tileAccepted State.samplesReady viewFits baseEven; decide +kernel

/-- 8 x 8 tiles whose rows are all the same eight samples (stride 0). -/
theorem witness_Sa8dCommandsWriteTheEstimate :
    (let s := smallWith fun r => { r with aStride := 0, bStride := 0 };
      (s.isIdle = true ∧ tileAccepted 8 .standard .b s.regs ∧ s.samplesReady .standard (tileReads 8 .b)) ∧
      (s.isIdle = true ∧ tileAccepted 8 .high .zero s.regs ∧ s.samplesReady .high (tileReads 8 .zero))) := by
  unfold tileAccepted State.samplesReady viewFits baseEven; decide +kernel

/-- One set of registers for each clause. -/
theorem witness_RegionCommandsCheckInOrder :
    (∀ w h : Half, (smallWith fun r => { r with width := w, height := h }).isIdle = true) ∧
    (Instr.psydH, Depth.high) ∈ regionCommands ∧ small.isIdle = true ∧
    (let r := { small.regs with width := 6 }; ¬tileSize r ∣ r.width.toNat) ∧
    (let r := { small.regs with height := 6 }; tileSize r ∣ r.width.toNat ∧ ¬tileSize r ∣ r.height.toNat) ∧
    (let r := { small.regs with aStride := 3 };
      tileSize r ∣ r.width.toNat ∧ tileSize r ∣ r.height.toNat ∧ r.aStride.toNat < r.width.toNat) ∧
    (let r := { small.regs with bStride := 3 };
      tileSize r ∣ r.width.toNat ∧ tileSize r ∣ r.height.toNat ∧ r.width.toNat ≤ r.aStride.toNat ∧
        r.bStride.toNat < r.width.toNat) ∧
    (let r := { small.regs with bBase := 0xFFFFFFFFFFFFFFE1#64 };
      tileSize r ∣ r.width.toNat ∧ tileSize r ∣ r.height.toNat ∧ r.width.toNat ≤ r.aStride.toNat ∧
        r.width.toNat ≤ r.bStride.toNat ∧ 0 < r.width.toNat ∧ 0 < r.height.toNat ∧
        ¬viewFits r .high .b (r.height.toNat - 1) (r.width.toNat - 1)) ∧
    (let r := { small.regs with bBase := 0xFFFFFFFFFFFFFFDF#64 };
      tileSize r ∣ r.width.toNat ∧ tileSize r ∣ r.height.toNat ∧ r.width.toNat ≤ r.aStride.toNat ∧
        r.width.toNat ≤ r.bStride.toNat ∧ viewFits r .high .a (r.height.toNat - 1) (r.width.toNat - 1) ∧
        viewFits r .high .b (r.height.toNat - 1) (r.width.toNat - 1) ∧ baseEven r .a ∧ ¬baseEven r .b) ∧
    (let r := { small.regs with aBase := 0x1001 };
      tileSize r ∣ r.width.toNat ∧ tileSize r ∣ r.height.toNat ∧ r.width.toNat ≤ r.aStride.toNat ∧
        r.width.toNat ≤ r.bStride.toNat ∧ viewFits r .high .a (r.height.toNat - 1) (r.width.toNat - 1) ∧
        viewFits r .high .b (r.height.toNat - 1) (r.width.toNat - 1) ∧ ¬baseEven r .a) := by
  refine ⟨fun _ _ => rfl, ?_⟩
  unfold viewFits baseEven; decide +kernel

/-- The two 4 x 4 regions of `small` are accepted and readable at both depths. -/
theorem witness_small_ready :
    small.isIdle = true ∧ regionAccepted .standard small.regs ∧ regionAccepted .high small.regs ∧
      small.regionReady .standard ∧ small.regionReady .high := by
  unfold regionAccepted State.regionReady State.samplesReady viewFits baseEven; decide +kernel

theorem witness_PsydWritesTheRegionDistortion :
    (small.isIdle = true ∧ regionAccepted .standard small.regs ∧ small.regionReady .standard) ∧
      (small.isIdle = true ∧ regionAccepted .high small.regs ∧ small.regionReady .high) :=
  ⟨⟨witness_small_ready.1, witness_small_ready.2.1, witness_small_ready.2.2.2.1⟩,
    witness_small_ready.1, witness_small_ready.2.2.1, witness_small_ready.2.2.2.2⟩

/-- A width of 0 and a finite bias, a height of 0 and an infinite one, with a memory port that never answers. -/
theorem witness_EmptyRegionGivesZero :
    (let s : State := { smallWith (fun r => { r with width := 0 }) with memAnswers := false };
      s.isIdle = true ∧ s.regs.width = 0 ∧ (Instr.psydH, Depth.high) ∈ regionCommands ∧
        regionAccepted .high s.regs ∧ isFinite s.regs.biasBase = true) ∧
    (let s : State := smallWith fun r => { r with height := 0, biasBase := 0x7FF0000000000000#64 };
      s.isIdle = true ∧ s.regs.height = 0 ∧ (Instr.fdistS, Depth.standard) ∈ regionCommands ∧
        regionAccepted .standard s.regs ∧ isFinite s.regs.biasBase = false) := by
  unfold regionAccepted viewFits baseEven; decide +kernel

theorem witness_TilesCoverTheRegionExactly :
    (regionAccepted .standard small.regs ∧ 3 < small.regs.height.toNat ∧ 3 < small.regs.width.toNat ∧
      (0, 0) ∈ tilePositions small.regs) ∧
    (let r := { small.regs with width := 4, height := 12 }; r.width = 4 ∧ r.height = 12) ∧
    (let r := { small.regs with height := 0 }; r.width = 0 ∨ r.height = 0) :=
  ⟨⟨witness_small_ready.2.1, by decide⟩, by decide⟩

theorem witness_EnergyIsNonNegativeAndFlatTilesVanish :
    ((4 = 4 ∨ 4 = 8) ∧ ∃ est, est = (satd4 (N := 32) 16 true checkerTile fun _ _ => 0).toNat) ∧
    ((8 = 4 ∨ 8 = 8) ∧ ∃ est, est = (sa8d (N := 64) 32 checkerTile fun _ _ => 0).toNat) ∧
    (Tile.boundedBy (fun _ _ => 255) 4 255 ∧ Tile.boundedBy (fun _ _ => 255) 8 255) ∧
      (Tile.boundedBy (fun _ _ => 65535) 4 65535 ∧ Tile.boundedBy (fun _ _ => 65535) 8 65535) := by
  refine ⟨⟨by decide, _, rfl⟩, ⟨by decide, _, rfl⟩, ?_⟩
  unfold Tile.boundedBy; decide

theorem witness_NoWrapForRealRegions :
    small.sadPort = .exact ∧ small.regs.width.toNat * small.regs.height.toNat ≤ 2 ^ 30 ∧
      (let r := { small.regs with width := 0x80000000#32, height := 512 }; r.width.toNat * r.height.toNat = 2 ^ 40) := by
  decide

/-- Every sample of `small` is 7 (0x0707 at high depth), in both views. -/
theorem witness_small_same : sameRegions small .standard ∧ sameRegions small .high := by
  unfold sameRegions; decide +kernel

/-- The second clause's two states may be one and the same, when its regions hold the same samples. -/
theorem witness_DistortionIsSymmetricAndZeroOnEqualRegions :
    tileSize small.regs ∣ small.regs.width.toNat ∧ tileSize small.regs ∣ small.regs.height.toNat ∧
      sameRegions small .standard ∧
    (let t : State := smallWith fun r => { r with aBase := r.bBase, bBase := r.aBase };
      t.regs.width = small.regs.width ∧ t.regs.height = small.regs.height ∧ t.sadPort = small.sadPort ∧
        ∀ row < small.regs.height.toNat, ∀ col < small.regs.width.toNat,
          memSample t.mem t.regs .standard .a row col = memSample small.mem small.regs .standard .b row col ∧
          memSample t.mem t.regs .standard .b row col = memSample small.mem small.regs .standard .a row col) :=
  ⟨by decide, by decide, witness_small_same.1, by decide +kernel⟩

/-- A NaN; zero times infinity; infinity times a number; minus zero; two finite numbers. -/
theorem witness_ProductIsCorrectlyRounded :
    isNaN 0x7FF8000000000001#64 = true ∧ (isInf 0x7FF0000000000000#64 = true ∧ isZero 0x8000000000000000#64 = true) ∧
    (isNaN 1 = false ∧ isZero 1 = false ∧ isZero 0x7FF0000000000000#64 = false ∧ isNaN 0x7FF0000000000000#64 = false) ∧
    (isFinite 0x8000000000000000#64 = true ∧ isFinite 0x7FEFFFFFFFFFFFFF#64 = true) := by decide

theorem witness_ConversionIsCorrectlyRounded : ((0x1FFFFFFFFFFFFF#64 : Word)).toNat < 2 ^ 53 := by decide

/-- All five settings of the selectors, layer 3 and the largest layer. -/
theorem witness_BiasWritesTheEffectiveBias :
    ∀ p ∈ [((1 : BitVec 1), (2 : Half)), (0, 0), (0, 1), (0, 2), (0, 3), (0, 0xFFFFFFFF)],
      ∃ s : State, ∃ e : Word, s.isIdle = true ∧
        (s.regs.intra = 1 → e = fmul64 s.regs.biasBase 0x3FD999999999999A#64) ∧
        (s.regs.intra = 0 → s.regs.tlayer.toNat = 0 → e = fmul64 s.regs.biasBase 0x3FE8000000000000#64) ∧
        (s.regs.intra = 0 → s.regs.tlayer.toNat = 1 → e = fmul64 s.regs.biasBase 0x3FECCCCCCCCCCCCD#64) ∧
        (s.regs.intra = 0 → s.regs.tlayer.toNat = 2 → e = fmul64 s.regs.biasBase 0x3FEE666666666666#64) ∧
        (s.regs.intra = 0 → 3 ≤ s.regs.tlayer.toNat → e = s.regs.biasBase) ∧
        s.regs.intra = p.1 ∧ s.regs.tlayer = p.2 := by
  intro p hp
  refine ⟨smallWith fun r => { r with intra := p.1, tlayer := p.2 },
    effectiveBias small.regs.biasBase p.1 p.2, rfl, ?_⟩
  simp only [List.mem_cons, List.not_mem_nil, or_false] at hp
  rcases hp with rfl | rfl | rfl | rfl | rfl | rfl <;>
    simp [smallWith, effectiveBias, Config.biasIntra, Config.biasLayer0, Config.biasLayer1, Config.biasLayer2]

theorem witness_FdistWritesTheRoundedProduct :
    (∃ p : Word, small.isIdle = true ∧ regionAccepted .standard small.regs ∧ small.regionReady .standard ∧
      p = fmul64 (cvtU64 (regionDistortion small .standard)) small.regs.biasBase ∧
      isFinite p = true ∧ -(2 ^ 63 : Int) ≤ rha p ∧ rha p ≤ 2 ^ 63 - 1) ∧
    (∃ p : Word, small.isIdle = true ∧ regionAccepted .high small.regs ∧ small.regionReady .high ∧
      p = fmul64 (cvtU64 (regionDistortion small .high)) small.regs.biasBase ∧
      isFinite p = true ∧ -(2 ^ 63 : Int) ≤ rha p ∧ rha p ≤ 2 ^ 63 - 1) := by
  have hs : regionDistortion small .standard = 0 := by decide +kernel
  have hh : regionDistortion small .high = 0 := by decide +kernel
  exact ⟨⟨_, witness_small_ready.1, witness_small_ready.2.1, witness_small_ready.2.2.2.1, rfl, by rw [hs]; decide +kernel,
      by rw [hs]; decide +kernel, by rw [hs]; decide +kernel⟩,
    ⟨_, witness_small_ready.1, witness_small_ready.2.2.1, witness_small_ready.2.2.2.2, rfl, by rw [hh]; decide +kernel,
      by rw [hh]; decide +kernel, by rw [hh]; decide +kernel⟩⟩

/-- Two empty regions, whose distortion is 0, with an infinite and a NaN bias. -/
theorem witness_FdistFaultsWhereTheProductHasNoValue :
    (let s := regionState [] 0 0 0 0 0x7FF0000000000000#64;
      s.isIdle = true ∧ regionAccepted .standard s.regs ∧ s.regionReady .standard ∧
      isFinite (fmul64 (cvtU64 (regionDistortion s .standard)) s.regs.biasBase) = false) ∧
    (let s := regionState [] 0 0 0 0 0x7FF8000000000001#64;
      s.isIdle = true ∧ regionAccepted .high s.regs ∧ s.regionReady .high ∧
      isFinite (fmul64 (cvtU64 (regionDistortion s .high)) s.regs.biasBase) = false) := by
  have hs : ∀ b, regionDistortion (regionState [] 0 0 0 0 b) .standard = 0 := fun b => by
    simp [regionDistortion, exactTotal, regionState]
  have hh : ∀ b, regionDistortion (regionState [] 0 0 0 0 b) .high = 0 := fun b => by
    simp [regionDistortion, exactTotal, regionState]
  simp only [hs, hh]
  unfold regionAccepted State.regionReady State.samplesReady viewFits baseEven
  decide +kernel

/-- The other two clauses of the same: a product above the signed range, one below it, and both ends of the range. -/
theorem witness_Fdist_range :
    2 ^ 63 - 1 < rha (biasedProduct 64 0x4380000000000000#64) ∧
    rha (biasedProduct 65 0xC380000000000000#64) < -(2 ^ 63 : Int) ∧
    -(2 ^ 63 : Int) ≤ rha (biasedProduct 64 0xC380000000000000#64) := by decide +kernel

theorem witness_EntryPointIsZeroOnEqualRegions :
    (Instr.fdistH, Depth.high) ∈ [(Instr.fdistS, Depth.standard), (Instr.fdistH, Depth.high)] ∧
      small.isIdle = true ∧ regionAccepted .high small.regs ∧ small.regionReady .high ∧ sameRegions small .high ∧
      isFinite small.regs.biasBase = true ∧ isFinite 0x7FF0000000000000#64 = false :=
  ⟨by decide, witness_small_ready.1, witness_small_ready.2.2.1, witness_small_ready.2.2.2.2, witness_small_same.2,
    by decide, by decide⟩

theorem witness_UnitBiasKeepsTheDistortion :
    (0x1FFFFFFFFFFFFF#64 : Word).toNat < 2 ^ 53 ∧
    (representable (biasedProduct 15 0x3FE0000000000000#64) = true ∧
      0 < rha (biasedProduct 15 0x3FE0000000000000#64)) ∧
    (representable (biasedProduct 15 0xBFE0000000000000#64) = true ∧
      rha (biasedProduct 15 0xBFE0000000000000#64) < 0) := by decide +kernel

/-- The biases 0.5 and 1.0 (V64, V65), a product that is zero, and one that is not subnormal. -/
theorem witness_DoublingTheBiasDoublesTheOutput :
    isFinite 0x3FE0000000000000#64 = true ∧ isFinite 0x3FF0000000000000#64 = true ∧
      realValue 0x3FF0000000000000#64 = 2 * realValue 0x3FE0000000000000#64 ∧
      (expField (biasedProduct 15 0x3FE0000000000000#64) ≠ 0 ∧ fracField (biasedProduct 0 0x3FE0000000000000#64) = 0) ∧
      isFinite (biasedProduct 15 0x3FF0000000000000#64) = true ∧
      isFinite (biasedProduct 0 0x3FF0000000000000#64) = true := by
  refine ⟨by decide, by decide, ?_, by decide +kernel, by decide +kernel, by decide +kernel⟩
  have h1 : signBit 0x3FF0000000000000#64 = false ∧ significand 0x3FF0000000000000#64 = 2 ^ 52 ∧
    scale 0x3FF0000000000000#64 = 1023 := by decide
  have h2 : signBit 0x3FE0000000000000#64 = false ∧ significand 0x3FE0000000000000#64 = 2 ^ 52 ∧
    scale 0x3FE0000000000000#64 = 1022 := by decide
  simp only [realValue, h1, h2, pow_succ (2 : ℚ) 1022]
  generalize (2 : ℚ) ^ 1022 = x
  generalize (2 : ℚ) ^ 1075 = y
  ring

/-- The least base of the ordering law, 2^(-1020). -/
theorem witness_EffectiveBiasesIncrease :
    isFinite 0x0030000000000000#64 = true ∧ (1 : ℚ) / 2 ^ 1020 ≤ realValue 0x0030000000000000#64 ∧
      3 ≤ (3 : Half).toNat ∧ 3 ≤ (0xFFFFFFFF : Half).toNat := by
  refine ⟨by decide, ?_, by decide, by decide⟩
  have h : signBit 0x0030000000000000#64 = false ∧ significand 0x0030000000000000#64 = 2 ^ 52 ∧
    scale 0x0030000000000000#64 = 3 := by decide
  simp only [realValue, h, show (1075 : Nat) = 55 + 1020 from rfl, pow_add]
  field_simp
  norm_num

/-- 2^52, from which on the value is its own rounding, and a negative tie. -/
theorem witness_RoundingIsHalfAwayFromZero :
    (isFinite 0x4330000000000000#64 = true ∧ (2 : ℚ) ^ 52 ≤ |realValue 0x4330000000000000#64|) ∧
      isFinite 0xC01E000000000000#64 = true := by
  refine ⟨⟨by decide, ?_⟩, by decide⟩
  have h : signBit 0x4330000000000000#64 = false ∧ significand 0x4330000000000000#64 = 2 ^ 52 ∧
    scale 0x4330000000000000#64 = 1075 := by decide
  simp only [realValue, h]
  norm_num

/-- P2 with and without one byte of view B; and the two regions of `small`. -/
theorem witness_MemErrorNamesAnUnreadableSample :
    (∃ p ∈ tileCommands, ∃ ref, Instr.satd4S .b = p.1 ref ∧ Depth.standard = p.2.2 ∧ tileReads 4 .b = tileReads p.2.1 ref) ∧
    (let s : State := { p2 with mem := p2.mem.unback 0x2005, devices := [(0x3000, 16)], sadPort := .silent };
      s.isIdle = true ∧ acceptanceFault (.satd4S .b) s.regs = none ∧ s.memAnswers = true ∧ s.earlier = [] ∧
      (∀ x ∈ tileReads 4 .b, ∀ k < depthBytes .standard,
        inDevice s.devices (addressOf s.regs .standard x.view x.row x.col + k) = false) ∧
      ∃ x ∈ tileReads 4 .b, ∃ k < depthBytes .standard,
        s.mem.read (addressOf s.regs .standard x.view x.row x.col + k) = none) ∧
    (∀ x ∈ tileReads 4 .b, ∀ k < depthBytes .standard,
      p2.mem.read (addressOf p2.regs .standard x.view x.row x.col + k) ≠ none) ∧
    ((Instr.psydS, Depth.standard) ∈ regionCommands ∧ regionReads small.regs = regionReads small.regs) :=
  ⟨⟨_, .head _, .b, rfl, rfl, rfl⟩, by decide +kernel, by decide +kernel, by decide, rfl⟩

/-- A device range that covers one byte of view A, an empty range, and no range. -/
theorem witness_DeviceSamplesAreRefused :
    (Instr.psydH, Depth.high) ∈ regionCommands ∧
    (let s : State := { small with devices := [(0x5000, 0), (0x1001, 1)] };
      s.isIdle = true ∧ acceptanceFault .psydH s.regs = none ∧ s.memAnswers = true ∧
      (exec .psydH s = .refused (.deviceRead 0x1000)) ∧
      ∃ x ∈ regionReads s.regs, ∃ k < depthBytes .high,
        inDevice s.devices (addressOf s.regs .high x.view x.row x.col + k) = true) ∧
    readsMemory .bias = false ∧ small.devices = [] :=
  ⟨by decide, ⟨rfl, by decide +kernel, rfl, rfl, by decide +kernel⟩, rfl, rfl⟩

theorem witness_FaultsArePrecise :
    (smallWith fun r => { r with width := 6 }).isIdle = true ∧
      ∃ t, exec .psydS (smallWith fun r => { r with width := 6 }) = .next t ∧ t.run = .faulted .geometry :=
  ⟨rfl, _, rfl, rfl⟩

theorem witness_EachCommandRaisesOnlyItsFaults :
    (∃ t, exec (.satd4S .zero) { State.reset with regs := { Regs.zero with aBase := 0xFFFFFFFFFFFFFFFF#64 } } =
      .next t ∧ t.run = .faulted .geometry) ∧
    (∃ t, exec (.sa8dH .zero) { State.reset with regs := { Regs.zero with aBase := 1 } } = .next t ∧
      t.run = .faulted .misaligned) ∧
    State.isIdle { State.reset with regs := { Regs.zero with aBase := 1 } } = true := ⟨⟨_, rfl, rfl⟩, ⟨_, rfl, rfl⟩, rfl⟩

theorem witness_IllegalCommandRecordsTheWord :
    (State.reset.isIdle = true ∧ decode ((0x1234567800000008#64 : Word).setWidth 32) = .error .reservedOp) ∧
    (∃ t, exec .nop State.reset = .next t) ∧
    (faultedUnit.isIdle = false ∧ (0x1F#64 : Word).setWidth 32 ≠ 0x0000000F#32) :=
  ⟨by decide, ⟨_, rfl⟩, by decide⟩

theorem witness_OnlyResetLeavesTheFaultedState :
    (faultedUnit.run = .faulted .geometry ∧ (0xFFFFFFFF0000000F#64 : Word).setWidth 32 = 0x0000000F#32 ∧
      ∃ t, step faultedUnit = .next t) ∧
    (∃ t, step { faultedUnit with host := [.hardReset] } = .next t ∧ t.run = .idle false) ∧
    (∃ t, step { faultedUnit with host := [.windowWrite 0 8 0xF] } = .next t ∧ t.run = .idle false) :=
  ⟨⟨rfl, rfl, _, rfl⟩, ⟨_, rfl, rfl⟩, _, rfl, rfl⟩

theorem witness_SilentPortKeepsTheUnitBusy :
    (let s : State := { State.reset with memAnswers := false };
      (Instr.sa8dH, 8, Depth.high) ∈ tileCommands ∧ s.isIdle = true ∧ acceptanceFault (.sa8dH .b) s.regs = none ∧
      s.memAnswers = false) ∧
    (let s : State := { small with sadPort := .silent };
      (Instr.fdistS, Depth.standard) ∈ regionCommands ∧ s.isIdle = true ∧ acceptanceFault .fdistS s.regs = none ∧
      s.regs.width ≠ 0 ∧ s.regs.height ≠ 0 ∧ s.samplesReady .standard (regionReads s.regs) ∧ s.sadPort = .silent) ∧
    (let s : State := { State.reset with run := .busy .psydS none, host := [.hardReset] };
      s.run = .busy .psydS none ∧ ∃ t, step s = .next t) :=
  ⟨⟨by simp [tileCommands], rfl, by decide +kernel, rfl⟩,
    ⟨by decide, rfl, by decide +kernel, by decide, by decide, witness_small_ready.2.2.2.1.1, rfl⟩, rfl, _, rfl⟩

theorem witness_CommandsWriteOnlyTheirDestinations :
    State.reset.isIdle = true ∧ Instr.had4B32 ≠ .rst ∧
      ∃ t, exec .had4B32 State.reset = .next t ∧ t.run = .idle true := ⟨rfl, by decide, _, rfl, rfl⟩

theorem witness_OnlyTheHostChangesMemory :
    (∃ t, exec .nop State.reset = .next t) ∧
    (∃ t, step { State.reset with host := [.memWrite 0xFFFFFFFFFFFFFFFF#64 5] } = .next t ∧
      t.mem.read 0xFFFFFFFFFFFFFFFF ≠ State.reset.mem.read 0xFFFFFFFFFFFFFFFF) ∧
    (∃ t, step { small with host := [.memUnback 0x1000] } = .next t ∧ t.mem.read 0x1000 ≠ small.mem.read 0x1000) :=
  ⟨⟨_, rfl⟩, ⟨_, rfl, by decide⟩, _, rfl, by decide⟩

theorem witness_RegionCommandsIgnoreOtherRegisters :
    (Instr.psydS, Depth.standard) ∈ regionCommands ∧ State.reset.isIdle = true ∧
    (let r := { Regs.zero with w0 := 1, intra := 1, biasEff := 5 };
      r.aBase = State.reset.regs.aBase ∧ r.width = State.reset.regs.width ∧
        r.biasBase = State.reset.regs.biasBase ∧ r ≠ State.reset.regs) ∧
    ∃ t, exec .psydS State.reset = .next t := ⟨by decide, rfl, by decide, _, rfl⟩

/-- A byte that the command does not read changed while it ran. -/
theorem witness_UnchangedSamplesMakeMomentsIrrelevant :
    (let s : State := { small with earlier := [small.mem.write 0x3000 1] };
      (Instr.psydS, Depth.standard) ∈ regionCommands ∧ s.isIdle = true ∧ s.memAnswers = true ∧
      s.sadPort ≠ .silent ∧ acceptanceFault .psydS s.regs = none ∧
      ∀ m ∈ s.earlier, ∀ x ∈ regionReads s.regs, ∀ k < depthBytes .standard,
        Memory.read m (addressOf s.regs .standard x.view x.row x.col + k) =
          s.mem.read (addressOf s.regs .standard x.view x.row x.col + k)) :=
  ⟨by decide, rfl, rfl, by decide, by decide +kernel, by decide +kernel⟩

/-- A window of three events with two lost writes in it, one of them the `RST` word. -/
theorem witness_BusyWindowRefinesTheAtomicCommand :
    (let lost : List (BitVec 5 × Word) := [(14, 5), (0, 0xF)];
      let s : State := { State.reset with latency := [3, 1], host := .write 0 2 :: lost.map fun p => .write p.1 p.2 };
      s.isIdle = true ∧ decode ((2 : Word).setWidth 32) = .ok .had4B32 ∧ entersBusy .had4B32 s = true ∧
      s.latency = 3 :: [1] ∧ 0 < 3 ∧ lost.length < 3 ∧
      s.host = .write 0 2 :: lost.map (fun p => HostAction.write p.1 p.2)) :=
  ⟨rfl, rfl, rfl, rfl, by decide, by decide, rfl⟩

/-- A running command with a changed memory behind it, and the step that completes it. -/
theorem witness_StepKeepsTheInvariant :
    State.Inv { State.reset with run := .busy .nop (some 0), mem := [(3, 7)], earlier := [[(3, 6)]] } ∧
    ∃ t, step { State.reset with run := .busy .nop (some 0), mem := [(3, 7)], earlier := [[(3, 6)]] } = .next t := by
  refine ⟨⟨by decide, by decide, rfl, ⟨by decide, rfl⟩, ?_⟩, _, rfl⟩
  intro h; simp [busyFlag] at h

end Sys2Proof.Machine
end

section
/-! PROOFS. O56: the region commands look at the two views, WIDTH, HEIGHT and BIAS_BASE, and at no other register
(00_scope.md R14, 44_bias_and_entry.md R233). First what each operation of the region walk reads, then that the
operations which end a command answer alike, then the four commands. -/

namespace Sys2Proof.Machine

/-! ### What the region walk reads -/

/-- Two register files agree on every register that a region command names: the views A and B, WIDTH, HEIGHT and
BIAS_BASE. -/
structure SameRegionInputs (r r' : Regs) : Prop where
  aBase : r.aBase = r'.aBase
  aOff : r.aOff = r'.aOff
  aStride : r.aStride = r'.aStride
  bBase : r.bBase = r'.bBase
  bOff : r.bOff = r'.bOff
  bStride : r.bStride = r'.bStride
  width : r.width = r'.width
  height : r.height = r'.height
  biasBase : r.biasBase = r'.biasBase

namespace SameRegionInputs

section
variable {r r' : Regs} (h : SameRegionInputs r r')
include h

theorem viewBase_eq (v : View) : viewBase r v = viewBase r' v := by
  cases v
  · exact h.aBase
  · exact h.bBase

theorem sampleAddr_eq (d : Depth) (v : View) (row col : Nat) :
    sampleAddr r d v row col = sampleAddr r' d v row col := by
  cases v
  · simp only [sampleAddr, viewBase, viewOff, viewStride, h.aBase, h.aOff, h.aStride]
  · simp only [sampleAddr, viewBase, viewOff, viewStride, h.bBase, h.bOff, h.bStride]

theorem addrFits_eq (d : Depth) (v : View) (row col : Nat) : addrFits r d v row col = addrFits r' d v row col := by
  simp only [addrFits, h.sampleAddr_eq]

theorem misaligned_eq (d : Depth) (v : View) : misaligned r d v = misaligned r' d v := by
  simp only [misaligned, h.viewBase_eq]

theorem tileSize_eq : tileSize r = tileSize r' := by
  simp only [tileSize, h.width, h.height]

theorem regionCheck_eq (d : Depth) : regionCheck d r = regionCheck d r' := by
  simp only [regionCheck, h.tileSize_eq, h.addrFits_eq, h.misaligned_eq, h.width, h.height, h.aStride, h.bStride,
    h.aBase, h.bBase]

theorem acceptanceFault_eq {p : Instr × Depth} (hp : p ∈ regionCommands) :
    acceptanceFault p.1 r = acceptanceFault p.1 r' := by
  simp only [regionCommands, List.mem_cons, List.not_mem_nil, or_false] at hp
  rcases hp with rfl | rfl | rfl | rfl
  · exact h.regionCheck_eq .standard
  · exact h.regionCheck_eq .high
  · exact h.regionCheck_eq .standard
  · exact h.regionCheck_eq .high

theorem regionReads_eq : regionReads r = regionReads r' := by
  simp only [regionReads, h.width, h.height]

theorem tilePositions_eq : tilePositions r = tilePositions r' := by
  simp only [tilePositions, h.tileSize_eq, h.width, h.height]

end

section
variable {s : State} {r : Regs} (h : SameRegionInputs r s.regs)
include h

theorem sampleAnswer_eq (d : Depth) (x : SampleRef) : sampleAnswer { s with regs := r } d x = sampleAnswer s d x := by
  unfold sampleAnswer
  rw [h.sampleAddr_eq]
  rfl

theorem onDevice_eq (d : Depth) (reads : List SampleRef) :
    onDevice { s with regs := r } d reads = onDevice s d reads := by
  simp only [onDevice, h.sampleAnswer_eq, h.sampleAddr_eq]

theorem unreadable_eq (d : Depth) (reads : List SampleRef) :
    unreadable { s with regs := r } d reads = unreadable s d reads := by
  simp only [unreadable, h.sampleAnswer_eq, h.sampleAddr_eq]

theorem tileAt_eq (d : Depth) (v : View) (n ty tx : Nat) :
    tileAt { s with regs := r } d v n ty tx = tileAt s d v n ty tx := by
  funext row col
  simp only [tileAt, sampleValue, h.sampleAnswer_eq]

theorem psyd_eq (d : Depth) : psyd { s with regs := r } d = psyd s d := by
  simp only [psyd, runningTotal, tileDelta, h.tilePositions_eq, h.tileSize_eq, h.tileAt_eq]

end

end SameRegionInputs

/-! ### Outcomes that agree in the run state and in RESULT or FINFO -/

/-- Where the first answer is a next state, the second is one too, in the same run state; RESULT agrees if the command
completed, and FINFO if it faulted. -/
def SameRegionOutcome (x y : Result) : Prop :=
  ∀ t, x = .next t → ∃ u, y = .next u ∧ u.run = t.run ∧
    (t.run = .idle true → u.regs.result = t.regs.result) ∧ (∀ c, t.run = .faulted c → u.regs.finfo = t.regs.finfo)

theorem sameRegionOutcome_refused (q : Refusal) (y : Result) : SameRegionOutcome (.refused q) y := by
  intro t ht
  cases ht

theorem sameRegionOutcome_complete {q q' : Regs} (hq : q'.result = q.result) (s s' : State) :
    SameRegionOutcome (complete q s) (complete q' s') := by
  rintro _ ⟨⟩
  exact ⟨_, rfl, rfl, fun _ => hq, nofun⟩

theorem sameRegionOutcome_raise (c : Cause) (info : Word) (s s' : State) :
    SameRegionOutcome (raise c info s) (raise c info s') := by
  rintro _ ⟨⟩
  exact ⟨_, rfl, rfl, nofun, fun _ _ => rfl⟩

theorem sameRegionOutcome_hang (i : Instr) (s s' : State) : SameRegionOutcome (hang i s) (hang i s') := by
  rintro _ ⟨⟩
  exact ⟨_, rfl, rfl, nofun, nofun⟩

/-! ### The operations of a region command -/

section
variable {s : State} {r : Regs} (h : SameRegionInputs r s.regs)
include h

theorem sameRegionOutcome_finishDistortion (D : Word) :
    SameRegionOutcome (finishDistortion D s) (finishDistortion D { s with regs := r }) := by
  simp only [finishDistortion, h.biasBase]
  split
  · exact sameRegionOutcome_complete (by rfl) _ _
  · exact sameRegionOutcome_raise _ _ _ _

theorem sameRegionOutcome_needsSad (i : Instr) {go go' : Result} (hgo : SameRegionOutcome go go') :
    SameRegionOutcome (needsSad i s go) (needsSad i { s with regs := r } go') := by
  simp only [needsSad, h.tilePositions_eq]
  split
  · exact sameRegionOutcome_hang _ _ _
  · exact hgo

theorem sameRegionOutcome_withSamples (i : Instr) (d : Depth) (reads : List SampleRef) {go go' : Result}
    (hgo : SameRegionOutcome go go') :
    SameRegionOutcome (withSamples i d reads s go) (withSamples i d reads { s with regs := r } go') := by
  simp only [withSamples, h.onDevice_eq, h.unreadable_eq]
  split
  · exact sameRegionOutcome_hang _ _ _
  · split
    · exact sameRegionOutcome_refused _ _
    · split
      · exact hgo
      · exact sameRegionOutcome_raise _ _ _ _

theorem sameRegionOutcome_readingCommand {p : Instr × Depth} (hp : p ∈ regionCommands) (hi : s.isIdle = true)
    {go go' : Result} (hgo : SameRegionOutcome go go') :
    SameRegionOutcome (readingCommand p.1 p.2 (regionReads s.regs) s go)
      (readingCommand p.1 p.2 (regionReads r) { s with regs := r } go') := by
  have hi' : State.isIdle { s with regs := r } = true := hi
  rw [readingCommand, readingCommand, whenIdle_of_idle hi, whenIdle_of_idle hi', h.regionReads_eq,
    h.acceptanceFault_eq hp]
  split
  · exact sameRegionOutcome_raise _ _ _ _
  · exact sameRegionOutcome_withSamples h _ _ _ hgo

/-- The four region commands: reads, SAD requests, then RESULT is the distortion (PSYD) or the biased distortion
(FDIST). -/
theorem sameRegionOutcome_exec {p : Instr × Depth} (hp : p ∈ regionCommands) (hi : s.isIdle = true) :
    SameRegionOutcome (exec p.1 s) (exec p.1 { s with regs := r }) := by
  have psydEnd (d : Depth) : SameRegionOutcome (complete { s.regs with result := psyd s d } s)
      (complete { r with result := psyd { s with regs := r } d } { s with regs := r }) :=
    sameRegionOutcome_complete (h.psyd_eq d) _ _
  have fdistEnd (d : Depth) : SameRegionOutcome (finishDistortion (psyd s d) s)
      (finishDistortion (psyd { s with regs := r } d) { s with regs := r }) := by
    rw [h.psyd_eq]
    exact sameRegionOutcome_finishDistortion h _
  have hp' := hp
  simp only [regionCommands, List.mem_cons, List.not_mem_nil, or_false] at hp'
  rcases hp' with rfl | rfl | rfl | rfl
  · exact sameRegionOutcome_readingCommand h hp hi (sameRegionOutcome_needsSad h _ (psydEnd .standard))
  · exact sameRegionOutcome_readingCommand h hp hi (sameRegionOutcome_needsSad h _ (psydEnd .high))
  · exact sameRegionOutcome_readingCommand h hp hi (sameRegionOutcome_needsSad h _ (fdistEnd .standard))
  · exact sameRegionOutcome_readingCommand h hp hi (sameRegionOutcome_needsSad h _ (fdistEnd .high))

end

/-- Settles O56: the walk, the acceptance checks and the final product are functions of the registers in
`SameRegionInputs`, so the two runs take the same branch of every operation. -/
theorem regionCommandsIgnoreOtherRegisters : Obligations.RegionCommandsIgnoreOtherRegisters := by
  intro p hp s r hi aBase aOff aStride bBase bOff bStride width height biasBase
  exact sameRegionOutcome_exec ⟨aBase, aOff, aStride, bBase, bOff, bStride, width, height, biasBase⟩ hp hi

end Sys2Proof.Machine
end

section
/-! PROOFS. O8, O6, O7, O10: the register map and the host port (10_state.md R26, R31 to R38). First what a write leaves
in the register map, then what a host read and a host write do in each run state, then the statements. -/

namespace Sys2Proof.Machine

/-! ### The register map (10_state.md R26) -/

theorem regRead_of_reserved {n : BitVec 5} (h : 20 ≤ n.toNat) (s : State) : regRead s n = 0 := by
  unfold regRead
  split <;> first | rfl | omega

/-- The numbers that store nothing: CMD, STATUS, FINFO, RESULT, BIAS_EFF and the reserved ones. -/
theorem writableBits_eq_zero_iff (n : BitVec 5) :
    writableBits n = 0 ↔ n.toNat ∈ [0, 1, 2, 3, 17] ∨ 20 ≤ n.toNat := by
  decide +revert

theorem regWrite_of_writableBits_eq_zero {n : BitVec 5} (h : writableBits n = 0) (r : Regs) (v : Word) :
    regWrite r n v = r := by
  rw [writableBits_eq_zero_iff] at h
  simp only [List.mem_cons, List.not_mem_nil, or_false] at h
  unfold regWrite
  split <;> first | rfl | omega

/-- Keeping the low `k` bits of a word is masking it with `k` ones. -/
theorem setWidth_setWidth_eq_and (k : Nat) (v : Word) :
    (v.setWidth k).setWidth 64 = v &&& (BitVec.allOnes k).setWidth 64 := by
  ext i hi
  simp [BitVec.getLsbD_eq_getElem hi, Bool.and_comm]

section
variable (s : State) (v : Word) {n : BitVec 5}

theorem regRead_regWrite_wide (h : n.toNat ∈ [4, 5, 6, 7, 8, 11, 16]) :
    regRead { s with regs := regWrite s.regs n v } n = v := by
  simp only [List.mem_cons, List.not_mem_nil, or_false] at h
  rcases h with h | h | h | h | h | h | h <;> simp only [regRead, regWrite, h]

theorem regRead_regWrite_narrow (h : n.toNat ∈ [9, 10, 12, 13, 14, 15, 19]) :
    regRead { s with regs := regWrite s.regs n v } n = (v.setWidth 32).setWidth 64 := by
  simp only [List.mem_cons, List.not_mem_nil, or_false] at h
  rcases h with h | h | h | h | h | h | h <;> simp only [regRead, regWrite, h]

theorem regRead_regWrite_intra (h : n.toNat = 18) :
    regRead { s with regs := regWrite s.regs n v } n = (v.setWidth 1).setWidth 64 := by
  simp only [regRead, regWrite, h]

/-- A written register shows the bits of the value that it implements. -/
theorem regRead_regWrite_same (h : writableBits n ≠ 0) :
    regRead { s with regs := regWrite s.regs n v } n = v &&& writableBits n := by
  unfold writableBits at h ⊢
  split_ifs at h ⊢ with wide narrow intra
  · exact (regRead_regWrite_wide s v wide).trans (BitVec.and_allOnes (x := v)).symm
  · exact (regRead_regWrite_narrow s v narrow).trans (setWidth_setWidth_eq_and 32 v)
  · exact (regRead_regWrite_intra s v intra).trans (setWidth_setWidth_eq_and 1 v)
  · exact absurd rfl h

/-- A write reaches the register of its own number alone: every other row of the map shows a field that it keeps. -/
theorem regRead_regWrite_other {m : BitVec 5} (h : m ≠ n) :
    regRead { s with regs := regWrite s.regs n v } m = regRead s m := by
  have hne : m.toNat ≠ n.toNat := fun e => h (BitVec.eq_of_toNat_eq e)
  unfold regWrite
  split
  all_goals
    unfold regRead
    split
  -- A row either shows a field the write keeps, or is row `n` itself, which `hne` excludes.
  all_goals first | rfl | omega

end

/-! ### The host port in each run state (10_state.md R36 to R38) -/

section
variable {s : State}

theorem busyFlag_of_idle (h : s.isIdle = true) : busyFlag s.run = false := by
  obtain ⟨done, h⟩ := (isIdle_iff s).1 h
  rw [h]
  rfl

theorem hostRead_of_not_busy (h : busyFlag s.run = false) (n : BitVec 5) :
    hostRead n s = { s with readData := regRead s n } := by
  simp [hostRead, h]

theorem hostRead_status (s : State) : hostRead 1 s = { s with readData := s.status.setWidth 64 } :=
  if_neg fun h => h.2 rfl

theorem hostRead_of_busy (h : busyFlag s.run = true) {n : BitVec 5} (hn : n ≠ 1) :
    hostRead n s = { s with readData := Config.freeWord s.fresh, fresh := s.fresh + 1 } :=
  if_pos ⟨h, hn⟩

theorem hostWrite_of_busy {i : Instr} {left : Option Nat} (h : s.run = .busy i left) (n : BitVec 5) (v : Word) :
    hostWrite n v s = .next s := by
  simp only [hostWrite, h]

theorem hostWrite_of_idle (h : s.isIdle = true) {n : BitVec 5} (hn : n ≠ 0) (v : Word) :
    hostWrite n v s = .next { s with regs := regWrite s.regs n v } := by
  obtain ⟨done, h⟩ := (isIdle_iff s).1 h
  simp only [hostWrite, h, if_neg hn]

theorem hostWrite_of_idle_of_writableBits_eq_zero (h : s.isIdle = true) {n : BitVec 5} (hn : n ≠ 0)
    (hbits : writableBits n = 0) (v : Word) : hostWrite n v s = .next s := by
  rw [hostWrite_of_idle h hn, regWrite_of_writableBits_eq_zero hbits]

theorem exec_rst_of_faulted {c : Cause} (h : s.run = .faulted c) : exec .rst s = .next (resetUnit s) := by
  show execRst s = _
  simp only [execRst, h]

theorem hostWrite_rst_of_faulted {c : Cause} (h : s.run = .faulted c) {v : Word}
    (hv : v.setWidth 32 = encode .rst) : hostWrite 0 v s = .next (resetUnit s) := by
  simp only [hostWrite, h, hv, and_self, if_true, exec_rst_of_faulted h]

theorem hostWrite_other_of_faulted {c : Cause} (h : s.run = .faulted c) {n : BitVec 5} {v : Word}
    (hv : ¬(n = 0 ∧ v.setWidth 32 = encode .rst)) : hostWrite n v s = .next s := by
  simp only [hostWrite, h, if_neg hv]

end

/-! ### Byte-mapped accesses (10_state.md R36) -/

theorem perform_windowRead (offset size : Nat) (s : State) :
    perform (.windowRead offset size) s = windowAccess offset size fun n => perform (.read n) s := rfl

theorem perform_windowWrite (offset size : Nat) (v : Word) (s : State) :
    perform (.windowWrite offset size v) s = windowAccess offset size fun n => perform (.write n v) s := rfl

theorem windowAccess_whole (n : BitVec 5) (go : BitVec 5 → Result) : windowAccess (8 * n.toNat) 8 go = go n := by
  have hn : ¬256 ≤ 8 * n.toNat := by have := n.isLt; omega
  have hdiv : 8 * n.toNat / 8 = n.toNat := Nat.mul_div_cancel_left _ (by decide)
  simp [windowAccess, hn, hdiv]

theorem windowAccess_partial {offset size : Nat} (h : offset < 256) (hp : size ≠ 8 ∨ offset % 8 ≠ 0)
    (go : BitVec 5 → Result) : windowAccess offset size go = .refused (.partialAccess offset size) := by
  rw [windowAccess, if_neg (by omega), if_neg (by omega)]

/-! ### The statements -/

/-- Settles O8: the map row by row is the two functions of the model; what a write stores and keeps is
`regRead_regWrite_same` and `regRead_regWrite_other`. -/
theorem hostWriteStoresTheImplementedBits : Obligations.HostWriteStoresTheImplementedBits := by
  refine ⟨fun s => ?_, fun s n h => hostRead_of_not_busy (busyFlag_of_idle h) n, fun s v h => ?_,
    fun s n v h hn => ?_⟩
  · iterate 20 refine ⟨rfl, ?_⟩
    exact fun n hn => regRead_of_reserved hn s
  · iterate 15 refine ⟨hostWrite_of_idle h (by decide) v, ?_⟩
    intro n hn
    have hbits : writableBits n = 0 := by rw [writableBits_eq_zero_iff, List.mem_cons]; tauto
    have hcmd : n ≠ 0 := by rintro rfl; revert hn; decide
    exact hostWrite_of_idle_of_writableBits_eq_zero h hcmd hbits v
  · refine ⟨_, hostWrite_of_idle h hn v, regRead_regWrite_same s v, fun hbits => ?_,
      fun m hm => regRead_regWrite_other s v hm, rfl, rfl, rfl, rfl, rfl, rfl, rfl, rfl⟩
    rw [regWrite_of_writableBits_eq_zero hbits]

/-- Settles O6. -/
theorem busyUnitDropsWrites : Obligations.BusyUnitDropsWrites := by
  intro s i left h
  have hbusy : busyFlag s.run = true := by rw [h]; rfl
  refine ⟨hostWrite_of_busy h, ?_, fun n hn => ⟨_, hostRead_of_busy hbusy hn⟩⟩
  rw [hostRead_status, State.status, h, statusWord_busy]
  rfl

/-- Settles O7: `0x0000000F` is the word of `RST`. -/
theorem faultedUnitTakesOnlyTheResetWord : Obligations.FaultedUnitTakesOnlyTheResetWord := by
  intro s c h
  have hbusy : busyFlag s.run = false := by rw [h]; rfl
  have hrst : encode .rst = 0x0000000F#32 := by decide
  rw [← hrst]
  exact ⟨hostRead_of_not_busy hbusy, fun v => hostWrite_rst_of_faulted h,
    fun n v => hostWrite_other_of_faulted h⟩

/-- Settles O10. -/
theorem onlyWholeRegistersAreAccessible : Obligations.OnlyWholeRegistersAreAccessible := by
  simp only [Obligations.OnlyWholeRegistersAreAccessible, perform_windowRead, perform_windowWrite]
  exact ⟨fun n _ _ => ⟨windowAccess_whole n _, windowAccess_whole n _⟩,
    fun _ _ _ _ h hp => ⟨windowAccess_partial h hp _, windowAccess_partial h hp _⟩⟩

end Sys2Proof.Machine
end

section
/-! PROOFS. O54, O55: what a command and a step leave in sample memory and around the unit (10_state.md R22, R41,
20_memory.md R64). The command part goes through `exec_effect`; the step part says what each layer of the host port does
to memory, and the one inversion of the step (`step_cases`) puts them together. -/

namespace Sys2Proof.Machine

/-! ### Commands -/

/-- Settles O54: of the effects of a command on an IDLE unit, `CommandEffect.completed` alone leaves it IDLE and
DONE. -/
theorem commandsWriteOnlyTheirDestinations : Obligations.CommandsWriteOnlyTheirDestinations := by
  intro i s t hidle hrst ht hdone
  have effect := exec_effect i s
  rw [ht] at effect
  cases effect with
  | dropped h => rw [hidle] at h; cases h
  | completed _ _ r hr => exact ⟨hr, ⟨rfl, rfl, rfl, rfl, rfl, rfl, rfl⟩, fun _ => rfl⟩
  | rejected | memError | numeric | hung => cases hdone
  | reset _ hi => exact absurd hi hrst

/-- No effect of a command reaches sample memory. -/
theorem exec_mem {i : Instr} {s t : State} (h : exec i s = .next t) : t.mem = s.mem := by
  have effect := exec_effect i s
  rw [h] at effect
  cases effect <;> rfl

/-! ### Host actions -/

theorem startCommand_mem {i : Instr} {s t : State} (h : startCommand i s = .next t) : t.mem = s.mem := by
  unfold startCommand at h
  split at h
  · exact exec_mem h
  · exact (exec_mem h :)
  · split at h
    · cases h; rfl
    · exact (exec_mem h :)

theorem doorbell_mem {w : Half} {s t : State} (h : doorbell w s = .next t) : t.mem = s.mem := by
  unfold doorbell at h
  split at h
  · cases h; rfl
  · exact startCommand_mem h

theorem hostWrite_mem {n : BitVec 5} {v : Word} {s t : State} (h : hostWrite n v s = .next t) : t.mem = s.mem := by
  unfold hostWrite at h
  split at h
  · cases h; rfl
  · split at h
    · exact exec_mem h
    · cases h; rfl
  · split at h
    · exact doorbell_mem h
    · cases h; rfl

/-- An access that has a next state is an access of one register. -/
theorem windowAccess_next {offset size : Nat} {go : BitVec 5 → Result} {t : State}
    (h : windowAccess offset size go = .next t) : ∃ n, go n = .next t := by
  unfold windowAccess at h
  split at h
  · cases h
  · split at h
    · exact ⟨_, h⟩
    · cases h

/-- A host action keeps memory, or is one of the two that change a byte of it (log entry 14). -/
theorem perform_mem {a : HostAction} {s t : State} (h : perform a s = .next t) :
    t.mem = s.mem ∨ (∃ w b, a = .memWrite w b ∧ t.mem = s.mem.write w.toNat b) ∨
      ∃ w, a = .memUnback w ∧ t.mem = s.mem.unback w.toNat := by
  cases a with
  | read n => cases h; exact .inl (hostRead_mem n s)
  | write n v => exact .inl (hostWrite_mem h)
  | wait => cases h; exact .inl rfl
  | windowRead offset size =>
    rw [perform_windowRead] at h
    obtain ⟨n, hn⟩ := windowAccess_next h
    cases hn
    exact .inl (hostRead_mem n s)
  | windowWrite offset size v =>
    rw [perform_windowWrite] at h
    obtain ⟨n, hn⟩ := windowAccess_next h
    exact .inl (hostWrite_mem hn)
  | hardReset => cases h; exact .inl rfl
  | memWrite w b => cases h; exact .inr (.inl ⟨w, b, rfl, rfl⟩)
  | memUnback w => cases h; exact .inr (.inr ⟨w, rfl, rfl⟩)

/-! ### Steps (70_reset_and_hazards.md R299) -/

section
variable {s : State}

theorem step_of_not_busy (h : busyFlag s.run = false) : step s = hostEvent s := by
  unfold step nextEvent
  split <;> simp_all [busyFlag]

theorem step_of_window {i : Instr} {k : Nat} (h : s.run = .busy i (some (k + 1))) :
    step s = hostEvent { s with run := .busy i (some k) } := by
  simp only [step, nextEvent, h]

theorem step_of_window_passed {i : Instr} (h : s.run = .busy i (some 0)) :
    step s = exec i { s with run := .idle false } := by
  simp only [step, nextEvent, h]

theorem step_of_hung {i : Instr} (h : s.run = .busy i none) : step s = hostEvent s := by
  simp only [step, nextEvent, h]

end

/-- Everything a step can be: the running command completes, or the host, if it has an action left, performs it, on the
unit whose BUSY window may have been counted down. -/
theorem step_cases (s : State) :
    (∃ i, s.run = .busy i (some 0) ∧ step s = exec i { s with run := .idle false }) ∨
    (∃ r, step s = hostEvent { s with run := r }) := by
  unfold step nextEvent
  split
  · rename_i i h; exact .inl ⟨i, h, rfl⟩
  · exact .inr ⟨_, rfl⟩
  · exact .inr ⟨s.run, rfl⟩

/-- A step keeps memory, or the host's next action is one of the two that change a byte of it. -/
theorem step_mem {s t : State} (h : step s = .next t) :
    t.mem = s.mem ∨ (∃ w b rest, s.host = .memWrite w b :: rest ∧ t.mem = s.mem.write w.toNat b) ∨
      ∃ w rest, s.host = .memUnback w :: rest ∧ t.mem = s.mem.unback w.toNat := by
  rcases step_cases s with ⟨i, _, e⟩ | ⟨r, e⟩ <;> rw [e] at h
  · exact .inl (exec_mem h :)
  · unfold hostEvent at h
    split at h
    · cases h; exact .inl rfl
    · rename_i a rest hhost
      rcases perform_mem h with hm | ⟨w, b, rfl, hm⟩ | ⟨w, rfl, hm⟩
      · exact .inl hm
      · exact .inr (.inl ⟨w, b, rest, hhost, hm⟩)
      · exact .inr (.inr ⟨w, rest, hhost, hm⟩)

/-- Settles O55: a byte that reads differently lies at the address of the host's change. -/
theorem onlyTheHostChangesMemory : Obligations.OnlyTheHostChangesMemory := by
  refine ⟨fun i s t h => exec_mem h, fun s t a h hne => ?_⟩
  rcases step_mem h with hm | ⟨w, b, rest, hhost, hm⟩ | ⟨w, rest, hhost, hm⟩ <;> rw [hm] at hne ⊢
  · exact absurd rfl hne
  · have ha : a = w.toNat := by_contra fun ha => hne (memory_read_write_other _ _ ha)
    exact ⟨rest, .inl ⟨w, b, hhost, ha, by rw [ha, memory_read_write_same]⟩⟩
  · have ha : a = w.toNat := by_contra fun ha => hne (memory_read_unback_other _ ha)
    exact ⟨rest, .inr ⟨w, hhost, ha⟩⟩

end Sys2Proof.Machine
end

section
/-! PROOFS. O9: STATUS in each run state, and `WAIT` as a step (10_state.md R27, R48, 30_encoding.md R101). -/

namespace Sys2Proof.Machine

/-! ### The STATUS word (10_state.md R27) -/

/-- The layout of STATUS: the three flags in bits 0 to 2, at most one of them set, bits 7:3 zero, and CAUSE zero unless
FAULT is set. -/
theorem statusWord_layout (r : RunState) :
    (statusWord r).getLsbD 0 = busyFlag r ∧ (statusWord r).getLsbD 1 = doneFlag r ∧
    (statusWord r).getLsbD 2 = faultFlag r ∧
    (busyFlag r).toNat + (doneFlag r).toNat + (faultFlag r).toNat ≤ 1 ∧
    (statusWord r).extractLsb' 3 5 = 0 ∧
    ((statusWord r).getLsbD 2 = false → (statusWord r).extractLsb' 8 8 = 0) := by
  cases r with
  | idle done => cases done <;> decide
  | busy i left => simp only [statusWord_busy, busyFlag, doneFlag, faultFlag]; decide
  | faulted c => cases c <;> decide

theorem getLsbD_status_zero (s : State) : s.status.getLsbD 0 = busyFlag s.run := by
  obtain ⟨busy, _⟩ := statusWord_layout s.run
  exact busy

/-- STATUS of the unit, by its run state. -/
theorem status_of_run {s : State} {r : RunState} (h : s.run = r) : s.status = statusWord r := by rw [← h]; rfl

/-! ### `WAIT` (30_encoding.md R101, log entry 8) -/

section
variable {s : State}

theorem hostEvent_wait_of_not_busy {rest : List HostAction} (hhost : s.host = .wait :: rest)
    (h : busyFlag s.run = false) :
    hostEvent s = .next { s with host := rest, readData := s.status.setWidth 64 } := by
  simp only [hostEvent, hhost, perform, h, Bool.false_eq_true, if_false]
  rfl

/-- `WAIT` on a BUSY unit reads 1 and stays at the head of the host's actions. -/
theorem hostEvent_wait_of_busy {rest : List HostAction} (hhost : s.host = .wait :: rest) {i : Instr}
    {left : Option Nat} (h : s.run = .busy i left) : hostEvent s = .next { s with readData := 1 } := by
  obtain ⟨regs, run, mem, earlier, memAnswers, devices, sadPort, latency, host, readData, fresh⟩ := s
  cases h
  cases hhost
  rfl

end

/-- Settles O9. -/
theorem statusShowsOneFlag : Obligations.StatusShowsOneFlag := by
  refine ⟨fun s => ?_, fun s rest hhost =>
    ⟨fun h => ?_, fun i k h => ?_, fun i h => ?_, fun i h => step_of_window_passed h⟩⟩
  · obtain ⟨busy, done, fault, one, bits, cause⟩ := statusWord_layout s.run
    exact ⟨status_of_run, status_of_run, fun _ _ => status_of_run, status_of_run, status_of_run, status_of_run,
      status_of_run, status_of_run, busy, done, fault, one, bits, cause, rfl⟩
  · rw [getLsbD_status_zero] at h
    rw [step_of_not_busy h, hostEvent_wait_of_not_busy hhost h]
  · rw [step_of_window h]
    exact hostEvent_wait_of_busy (s := { s with run := _ }) hhost rfl
  · rw [step_of_hung h]
    exact hostEvent_wait_of_busy hhost h

end Sys2Proof.Machine
end

section
/-! PROOFS. O48, O57: the reads of the memory-reading commands (20_memory.md R65, R66, R68, R70, R71). First the one
form of the eight commands: acceptance checks, reads, and a computation that always answers. Then when the reads are
refused. Then what the computation reads: where the samples answer as they would under the contract, so does the
command. -/

namespace Sys2Proof.Machine

/-! ### The one form of the memory-reading commands -/

/-- The command `i` reads the samples `reads` at depth `d` (20_memory.md R66): a tile command those of its tiles, a
region command those of the regions that the registers `r` describe. -/
def ReadsSamples (i : Instr) (d : Depth) (reads : List SampleRef) (r : Regs) : Prop :=
  (∃ p ∈ tileCommands, ∃ ref, i = p.1 ref ∧ d = p.2.2 ∧ reads = tileReads p.2.1 ref) ∨
    ((i, d) ∈ regionCommands ∧ reads = regionReads r)

/-- RESULT of a tile command of size `n`: the estimator of its size and depth (42_block_energy.md R182 to R185). -/
def tileEstimate (n : Nat) (d : Depth) (S R : Tile) : Word :=
  match d with
  | .standard =>
    if n = 4 then (satd4 (N := 32) 16 Config.satd4RowStage2 S R).setWidth 64
    else (sa8d (N := 32) 16 S R).setWidth 64
  | .high => if n = 4 then satd4 32 Config.satd4RowStage2 S R else sa8d 32 S R

/-- How a region command ends with the distortion `D` (43_aggregator.md R200, R201, 44_bias_and_entry.md R231, R232). -/
def regionEnd (i : Instr) (D : Word) (s : State) : Result :=
  match i with
  | .fdistS | .fdistH => finishDistortion D s
  | _ => complete { s.regs with result := D } s

theorem exec_tileCommand {p : (RefSel → Instr) × Nat × Depth} (hp : p ∈ tileCommands) (ref : RefSel) (s : State) :
    exec (p.1 ref) s = readingCommand (p.1 ref) p.2.2 (tileReads p.2.1 ref) s
      (complete { s.regs with
        result := tileEstimate p.2.1 p.2.2 (sampleValue s p.2.2 .a) (refTile s p.2.2 ref) } s) := by
  simp only [tileCommands, List.mem_cons, List.not_mem_nil, or_false] at hp
  rcases hp with rfl | rfl | rfl | rfl <;> rfl

theorem exec_regionCommand {i : Instr} {d : Depth} (h : (i, d) ∈ regionCommands) (s : State) :
    exec i s = readingCommand i d (regionReads s.regs) s (needsSad i s (regionEnd i (psyd s d) s)) := by
  simp only [regionCommands, List.mem_cons, Prod.mk.injEq, List.not_mem_nil, or_false] at h
  rcases h with ⟨rfl, rfl⟩ | ⟨rfl, rfl⟩ | ⟨rfl, rfl⟩ | ⟨rfl, rfl⟩ <;> rfl

theorem regionEnd_next (i : Instr) (D : Word) (s : State) : ∃ t, regionEnd i D s = .next t := by
  have finish : ∃ t, finishDistortion D s = .next t := by
    rcases finishDistortion_cases D s with ⟨_, e⟩ | ⟨_, e⟩ <;> exact ⟨_, e⟩
  unfold regionEnd
  split
  · exact finish
  · exact finish
  · exact ⟨_, rfl⟩

theorem needsSad_next (i : Instr) (s t : State) : ∃ u, needsSad i s (.next t) = .next u := by
  rcases needsSad_cases i s (.next t) with ⟨_, _, e⟩ | e <;> exact ⟨_, e⟩

/-- Once its samples are read, a command has a next state. -/
theorem exec_eq_readingCommand {i : Instr} {d : Depth} {reads : List SampleRef} {s : State}
    (h : ReadsSamples i d reads s.regs) : ∃ t, exec i s = readingCommand i d reads s (.next t) := by
  rcases h with ⟨p, hp, ref, rfl, rfl, rfl⟩ | ⟨h, rfl⟩
  · exact ⟨_, exec_tileCommand hp ref s⟩
  · obtain ⟨t, ht⟩ := regionEnd_next i (psyd s d) s
    obtain ⟨u, hu⟩ := needsSad_next i s t
    exact ⟨u, by rw [exec_regionCommand h, ht, hu]⟩

theorem exists_readsSamples {i : Instr} (h : readsMemory i = true) (r : Regs) :
    ∃ d reads, ReadsSamples i d reads r := by
  have tile {p : (RefSel → Instr) × Nat × Depth} (hp : p ∈ tileCommands) (ref : RefSel) :
      ∃ d reads, ReadsSamples (p.1 ref) d reads r := ⟨_, _, .inl ⟨p, hp, ref, rfl, rfl, rfl⟩⟩
  have region {p : Instr × Depth} (hp : p ∈ regionCommands) : ∃ d reads, ReadsSamples p.1 d reads r :=
    ⟨_, _, .inr ⟨hp, rfl⟩⟩
  cases i with
  | satd4S ref => exact tile (p := (.satd4S, 4, .standard)) (by simp [tileCommands]) ref
  | satd4H ref => exact tile (p := (.satd4H, 4, .high)) (by simp [tileCommands]) ref
  | sa8dS ref => exact tile (p := (.sa8dS, 8, .standard)) (by simp [tileCommands]) ref
  | sa8dH ref => exact tile (p := (.sa8dH, 8, .high)) (by simp [tileCommands]) ref
  | psydS => exact region (p := (.psydS, .standard)) (by decide)
  | psydH => exact region (p := (.psydH, .high)) (by decide)
  | fdistS => exact region (p := (.fdistS, .standard)) (by decide)
  | fdistH => exact region (p := (.fdistH, .high)) (by decide)
  | nop | abs2L16 | abs2L32 | had4B32 | had4B64 | bias | rst => cases h

/-! ### Samples on a device (20_memory.md R65) -/

/-- A byte of the sample lies in a device's range. -/
def SampleOnDevice (s : State) (d : Depth) (x : SampleRef) : Prop :=
  ∃ k < depthBytes d, inDevice s.devices (addressOf s.regs d x.view x.row x.col + k) = true

theorem memRead_eq_device_iff (m : Memory) (devices : List (Nat × Nat)) (a bytes : Nat) :
    memRead m devices a bytes = .device ↔ ∃ k < bytes, inDevice devices (a + k) = true := by
  have hany : (List.range bytes).any (fun k => inDevice devices (a + k)) = true ↔
      ∃ k < bytes, inDevice devices (a + k) = true := by simp
  rw [← hany]
  unfold memRead
  split
  · simp [*]
  · simp only [*]
    split <;> split <;> simp

theorem sampleAnswer_eq_device_iff (s : State) (d : Depth) (x : SampleRef) :
    sampleAnswer s d x = .device ↔ SampleOnDevice s d x := by
  simp only [sampleAnswer, memRead_eq_device_iff, sampleBytes_eq_depthBytes, sampleAddr_eq_addressOf, SampleOnDevice]

theorem mem_onDevice {s : State} {d : Depth} {reads : List SampleRef} {a : Nat} :
    a ∈ onDevice s d reads ↔
      ∃ x ∈ reads, SampleOnDevice s d x ∧ a = addressOf s.regs d x.view x.row x.col := by
  simp only [onDevice, List.mem_map, List.mem_filter, beq_iff_eq, sampleAnswer_eq_device_iff,
    sampleAddr_eq_addressOf, and_assoc, eq_comm (a := a)]

/-- Of the outcomes of the reads, the refusal alone is none, and it names a sample on a device. -/
theorem withSamples_refused {i : Instr} {d : Depth} {reads : List SampleRef} {s t : State} {r : Refusal}
    (h : withSamples i d reads s (.next t) = .refused r) : ∃ a ∈ onDevice s d reads, r = .deviceRead a := by
  unfold withSamples at h
  split at h
  · cases h
  · split at h
    · rename_i a _ hdev
      cases h
      exact ⟨a, by simp [hdev], rfl⟩
    · split at h <;> cases h

theorem withSamples_of_onDevice {i : Instr} {d : Depth} {reads : List SampleRef} {s : State} {go : Result}
    (hm : s.memAnswers = true) (h : onDevice s d reads ≠ []) : ∃ r, withSamples i d reads s go = .refused r := by
  obtain ⟨a, rest, hdev⟩ := List.exists_cons_of_ne_nil h
  exact ⟨.deviceRead a, by simp [withSamples, hm, hdev]⟩

section
variable {i : Instr} {d : Depth} {reads : List SampleRef} {s : State} (h : ReadsSamples i d reads s.regs)
include h

/-- A refused command has a sample on a device, and the refusal names it. -/
theorem exec_refused {r : Refusal} (hr : exec i s = .refused r) :
    ∃ x ∈ reads, SampleOnDevice s d x ∧ r = .deviceRead (addressOf s.regs d x.view x.row x.col) := by
  obtain ⟨t, ht⟩ := exec_eq_readingCommand h
  rw [ht] at hr
  rcases readingCommand_cases i d reads s (.next t) with ⟨_, e⟩ | ⟨_, _, _, _, e⟩ | ⟨_, _, e⟩ <;> rw [e] at hr
  · cases hr
  · cases hr
  · obtain ⟨a, ha, rfl⟩ := withSamples_refused hr
    obtain ⟨x, hx, hdev, rfl⟩ := mem_onDevice.1 ha
    exact ⟨x, hx, hdev, rfl⟩

/-- An accepted command on an answering port is refused where one of its samples lies on a device. -/
theorem exec_refused_of_sampleOnDevice (hi : s.isIdle = true) (ha : acceptanceFault i s.regs = none)
    (hm : s.memAnswers = true) (hdev : ∃ x ∈ reads, SampleOnDevice s d x) : ∃ r, exec i s = .refused r := by
  obtain ⟨t, ht⟩ := exec_eq_readingCommand h
  obtain ⟨x, hx, hdev⟩ := hdev
  have hne : onDevice s d reads ≠ [] := List.ne_nil_of_mem (mem_onDevice.2 ⟨x, hx, hdev, rfl⟩)
  rw [ht, readingCommand, whenIdle_of_idle hi, ha]
  exact withSamples_of_onDevice hm hne

end

/-- Without a device in reach a command has a next state: of its effects, only `CommandEffect.device` is none. -/
theorem exec_next {i : Instr} {s : State} (h : readsMemory i = false ∨ s.devices = []) : ∃ t, exec i s = .next t := by
  have effect := exec_effect i s
  generalize hr : exec i s = result at effect
  cases effect with
  | device _ hi a =>
    rcases h with h | h
    · rw [hi] at h; cases h
    · obtain ⟨d, reads, hreads⟩ := exists_readsSamples hi s.regs
      obtain ⟨_, _, ⟨_, _, hdev⟩, _⟩ := exec_refused hreads hr
      rw [h] at hdev
      cases hdev
  | dropped | completed | rejected | memError | numeric | hung | reset => exact ⟨_, rfl⟩

theorem exec_ne_fault (i : Instr) (s : State) (f : Fault) : exec i s ≠ .fault f := by
  intro h
  have effect := exec_effect i s
  rw [h] at effect
  cases effect

/-- Settles O48: `ReadsSamples` is the statement's choice of a command, its depth and its samples. -/
theorem deviceSamplesAreRefused : Obligations.DeviceSamplesAreRefused := by
  refine ⟨fun i d reads s h hi ha hm => ⟨⟨fun ⟨r, hr⟩ => ?_, exec_refused_of_sampleOnDevice h hi ha hm⟩,
    fun r => exec_refused h⟩, fun i s => exec_next, exec_ne_fault⟩
  obtain ⟨x, hx, hdev, _⟩ := exec_refused h hr
  exact ⟨x, hx, hdev⟩

/-! ### What the estimators and the energy read of a tile (42_block_energy.md R160, R170, 43_aggregator.md R196) -/

theorem satd4_congr {N : Nat} (W : Nat) (stage2 : Bool) {S R S' R' : Tile}
    (h : ∀ r < 4, ∀ c < 4, diff S R r c = diff S' R' r c) :
    satd4 (N := N) W stage2 S R = satd4 W stage2 S' R' := by
  have row (r : Nat) (hr : r < 4) : satd4Row (N := N) W stage2 S R r = satd4Row W stage2 S' R' r := by
    simp [satd4Row, h r hr]
  simp [satd4, row]

theorem sa8d_congr {N : Nat} (W : Nat) {S R S' R' : Tile}
    (h : ∀ r < 8, ∀ c < 8, diff S R r c = diff S' R' r c) : sa8d (N := N) W S R = sa8d W S' R' := by
  have row (r : Nat) (hr : r < 8) : sa8dRow (N := N) W S R r = sa8dRow W S' R' r := by
    simp [sa8dRow, h r hr]
  simp [sa8d, row]

/-- The estimator of the energy (43_aggregator.md R196) is the tile commands' against ZERO. -/
theorem estimate_eq_tileEstimate (n : Nat) (d : Depth) (T : Tile) :
    estimate n d T = (tileEstimate n d T zeroTile).toNat := by
  have widen (x : Half) : (x.setWidth 64).toNat = x.toNat := BitVec.toNat_setWidth_of_le (by decide)
  cases d <;> simp only [estimate, tileEstimate]
  case standard => split <;> exact (widen _).symm
  case high => split <;> rfl

section
variable {n : Nat} (hn : n = 4 ∨ n = 8) (d : Depth) {S R S' R' : Tile} (hS : ∀ r < n, ∀ c < n, S r c = S' r c)
include hn hS

/-- An estimator reads the n x n samples of its two tiles alone. -/
theorem tileEstimate_congr (hR : ∀ r < n, ∀ c < n, R r c = R' r c) :
    tileEstimate n d S R = tileEstimate n d S' R' := by
  have hdiff : ∀ r < n, ∀ c < n, diff S R r c = diff S' R' r c := fun r hr c hc => by
    rw [diff, diff, hS r hr c hc, hR r hr c hc]
  rcases hn with rfl | rfl
  · cases d <;> simp only [tileEstimate, if_true, satd4_congr _ _ hdiff]
  · cases d <;> simp only [tileEstimate, if_neg (show ¬(8 = 4) by decide), sa8d_congr _ hdiff]

theorem energy_congr (p : SadPort) : energy p S n d = energy p S' n d := by
  have hest : tileEstimate n d S zeroTile = tileEstimate n d S' zeroTile :=
    tileEstimate_congr hn d hS fun _ _ _ _ => rfl
  have hsamples : tileSamples S n = tileSamples S' n :=
    List.flatMap_congr fun r hr => List.map_congr_left fun c hc =>
      hS r (List.mem_range.1 hr) c (List.mem_range.1 hc)
  simp only [energy, estimate_eq_tileEstimate, hest, sadAnswer, hsamples]

end

/-- Row or column `k` of the tile at position `t` lies in a region of `m` rows or columns (43_aggregator.md R193). -/
theorem tile_index_lt {n m t k : Nat} (ht : t < m / n) (hk : k < n) : n * t + k < m :=
  calc n * t + k < n * (t + 1) := by rw [Nat.mul_succ]; omega
    _ ≤ n * (m / n) := Nat.mul_le_mul_left n ht
    _ ≤ m := Nat.mul_div_le m n

/-! ### Samples that answer as under the contract (20_memory.md R70, R71) -/

theorem memRead_congr {m m' : Memory} {a bytes : Nat} (devices : List (Nat × Nat)) (hb : bytes = 1 ∨ bytes = 2)
    (h : ∀ k < bytes, m.read (a + k) = m'.read (a + k)) : memRead m devices a bytes = memRead m' devices a bytes := by
  have h0 : m.read a = m'.read a := h 0 (by omega)
  rcases hb with rfl | rfl
  · simp only [memRead, h0, if_true]
  · simp only [memRead, h0, h 1 (by omega)]

/-- Every sample of the list is answered as memory now would answer it, whatever moment its read sees. -/
def AnswersAsNow (s : State) (d : Depth) (reads : List SampleRef) : Prop :=
  ∀ x ∈ reads, sampleAnswer s d x = sampleAnswer { s with earlier := [] } d x

/-- A read that may see any of several moments sees no difference where all of them agree on the sample. -/
theorem sampleAnswer_of_unchanged {s : State} {d : Depth} {x : SampleRef}
    (h : ∀ m ∈ s.earlier, ∀ k < depthBytes d, Memory.read m (addressOf s.regs d x.view x.row x.col + k) =
      s.mem.read (addressOf s.regs d x.view x.row x.col + k)) :
    sampleAnswer s d x = sampleAnswer { s with earlier := [] } d x := by
  have hb : depthBytes d = 1 ∨ depthBytes d = 2 := by cases d <;> decide
  rw [sampleAnswer, sampleAnswer, momentSeen_of_contract (s := { s with earlier := [] }) rfl]
  simp only [sampleBytes_eq_depthBytes, sampleAddr_eq_addressOf]
  refine memRead_congr s.devices hb fun k hk => ?_
  rcases List.mem_cons.1 (momentSeen_mem s x) with e | hm
  · rw [e]
  · exact h _ hm k hk

namespace AnswersAsNow

section
variable {s : State} {d : Depth} {reads : List SampleRef} (h : AnswersAsNow s d reads)
include h

theorem onDevice_eq : onDevice s d reads = onDevice { s with earlier := [] } d reads := by
  unfold onDevice
  rw [List.filter_congr fun x hx => by rw [h x hx]]

theorem unreadable_eq : unreadable s d reads = unreadable { s with earlier := [] } d reads := by
  unfold unreadable
  rw [List.filter_congr fun x hx => by rw [h x hx]]

theorem sampleValue_eq {v : View} {row col : Nat} (hx : ⟨v, row, col⟩ ∈ reads) :
    sampleValue s d v row col = sampleValue { s with earlier := [] } d v row col := by
  simp only [sampleValue, h _ hx]

/-- The samples answer alike, and every outcome but `hang` forgets the moments (log entry 5). -/
theorem readingCommand_eq {i : Instr} {go : Result} (hi : s.isIdle = true) (hm : s.memAnswers = true)
    (ha : acceptanceFault i s.regs = none) :
    readingCommand i d reads s go = readingCommand i d reads { s with earlier := [] } go := by
  have hi' : State.isIdle { s with earlier := [] } = true := hi
  rw [readingCommand, readingCommand, whenIdle_of_idle hi, whenIdle_of_idle hi', ha]
  simp only [withSamples, h.onDevice_eq, h.unreadable_eq, hm, Bool.not_true, Bool.and_false, Bool.false_eq_true,
    if_false]
  rfl

end

theorem refTile_eq {s : State} {d : Depth} {n : Nat} {ref : RefSel} (h : AnswersAsNow s d (tileReads n ref))
    {row col : Nat} (hr : row < n) (hc : col < n) :
    refTile s d ref row col = refTile { s with earlier := [] } d ref row col := by
  cases ref with
  | zero => rfl
  | b => exact h.sampleValue_eq (mem_tileReads.2 ⟨.inr rfl, hr, hc⟩)

section
variable {s : State} {d : Depth} (h : AnswersAsNow s d (regionReads s.regs))
include h

theorem tileAt_eq (v : View) {ty tx row col : Nat} (hp : (ty, tx) ∈ tilePositions s.regs)
    (hr : row < tileSize s.regs) (hc : col < tileSize s.regs) :
    tileAt s d v (tileSize s.regs) ty tx row col =
      tileAt { s with earlier := [] } d v (tileSize s.regs) ty tx row col := by
  obtain ⟨hty, htx⟩ := mem_tilePositions.1 hp
  exact h.sampleValue_eq (mem_regionReads.2 ⟨tile_index_lt hty hr, tile_index_lt htx hc⟩)

theorem tileDelta_eq {p : Nat × Nat} (hp : p ∈ tilePositions s.regs) :
    tileDelta s d (tileSize s.regs) p.1 p.2 = tileDelta { s with earlier := [] } d (tileSize s.regs) p.1 p.2 := by
  have energy_eq (v : View) := energy_congr (tileSize_cases s.regs) d
    (fun _ hr _ hc => h.tileAt_eq v hp hr hc) s.sadPort
  simp only [tileDelta, energy_eq]

theorem psyd_eq : psyd s d = psyd { s with earlier := [] } d := by
  have total : runningTotal s d = runningTotal { s with earlier := [] } d :=
    List.foldl_ext _ _ _ fun total p hp => by rw [h.tileDelta_eq hp]
  rw [psyd, psyd, total]

end

end AnswersAsNow

/-! ### The commands under unchanged samples -/

theorem regionEnd_forgets_moments (i : Instr) (D : Word) (s : State) :
    regionEnd i D { s with earlier := [] } = regionEnd i D s := by
  unfold regionEnd
  split <;> rfl

/-- A command is a function of the answers of its samples: of the moments of memory it keeps nothing else. -/
theorem exec_of_answersAsNow {i : Instr} {d : Depth} {reads : List SampleRef} {s : State}
    (hreads : ReadsSamples i d reads s.regs) (hi : s.isIdle = true) (hm : s.memAnswers = true)
    (hsad : s.sadPort ≠ .silent) (ha : acceptanceFault i s.regs = none) (h : AnswersAsNow s d reads) :
    exec i s = exec i { s with earlier := [] } := by
  rcases hreads with ⟨p, hp, ref, rfl, rfl, rfl⟩ | ⟨hp, rfl⟩
  · have hn : p.2.1 = 4 ∨ p.2.1 = 8 := by
      simp only [tileCommands, List.mem_cons, List.not_mem_nil, or_false] at hp
      rcases hp with rfl | rfl | rfl | rfl <;> decide
    have hresult := tileEstimate_congr hn p.2.2
      (fun _ hr _ hc => h.sampleValue_eq (mem_tileReads.2 ⟨.inl rfl, hr, hc⟩))
      (fun _ hr _ hc => h.refTile_eq hr hc)
    rw [exec_tileCommand hp, exec_tileCommand hp, hresult]
    exact h.readingCommand_eq hi hm ha
  · rw [exec_regionCommand hp, exec_regionCommand hp, needsSad_of_answering hsad,
      needsSad_of_answering (s := { s with earlier := [] }) hsad, ← h.psyd_eq, regionEnd_forgets_moments]
    exact h.readingCommand_eq hi hm ha

/-- Settles O57: unchanged samples answer as memory now does, and the rest is `exec_of_answersAsNow`. -/
theorem unchangedSamplesMakeMomentsIrrelevant : Obligations.UnchangedSamplesMakeMomentsIrrelevant := by
  intro i d reads s hreads hi hm hsad ha hsame
  exact exec_of_answersAsNow hreads hi hm hsad ha fun x hx =>
    sampleAnswer_of_unchanged fun m hmem => hsame m hmem x hx

end Sys2Proof.Machine
end

section
/-! PROOFS. O2, O3, O4, O1, O5: the decoder, the encoder and the opcode map (30_encoding.md R90 to R104), and the step
that runs a written command. First the fields of a word as numbers, then decoding and encoding as inverse functions;
the other statements follow from these. -/

namespace Sys2Proof

/-! ### The fields of a word (R91) -/

section
variable (w : Half)

theorem fieldsOf_op_toNat : (fieldsOf w).op.toNat = w.toNat % 16 := by
  simp [fieldsOf, BitVec.extractLsb'_toNat]

theorem fieldsOf_d_toNat : (fieldsOf w).d.toNat = w.toNat / 16 % 2 := by
  simp [fieldsOf, BitVec.extractLsb'_toNat, Nat.shiftRight_eq_div_pow]

theorem fieldsOf_z_toNat : (fieldsOf w).z.toNat = w.toNat / 32 % 2 := by
  simp [fieldsOf, BitVec.extractLsb'_toNat, Nat.shiftRight_eq_div_pow]

theorem fieldsOf_rd_toNat : (fieldsOf w).rd.toNat = w.toNat / 64 % 4 := by
  simp [fieldsOf, BitVec.extractLsb'_toNat, Nat.shiftRight_eq_div_pow]

theorem fieldsOf_rs_toNat : (fieldsOf w).rs.toNat = w.toNat / 256 % 4 := by
  simp [fieldsOf, BitVec.extractLsb'_toNat, Nat.shiftRight_eq_div_pow]

theorem fieldsOf_reserved_toNat : (fieldsOf w).reserved.toNat = w.toNat / 1024 := by
  simp only [fieldsOf, BitVec.extractLsb'_toNat, Nat.shiftRight_eq_div_pow]
  omega

end

theorem fieldsOf_and (v w : Half) :
    fieldsOf (v &&& w) =
      { op := (fieldsOf v).op &&& (fieldsOf w).op, d := (fieldsOf v).d &&& (fieldsOf w).d,
        z := (fieldsOf v).z &&& (fieldsOf w).z, rd := (fieldsOf v).rd &&& (fieldsOf w).rd,
        rs := (fieldsOf v).rs &&& (fieldsOf w).rs,
        reserved := (fieldsOf v).reserved &&& (fieldsOf w).reserved } := by
  simp only [fieldsOf, BitVec.extractLsb'_and]

/-- `Encode` is the weighted sum of the fields (R104). -/
theorem encodeFields_toNat {op d z rd rs : Nat} (hop : op < 16) (hd : d < 2) (hz : z < 2) (hrd : rd < 4)
    (hrs : rs < 4) : (encodeFields op d z rd rs).toNat = op + 16 * d + 32 * z + 64 * rd + 256 * rs := by
  rw [encodeFields, BitVec.toNat_ofNat, Nat.mod_eq_of_lt (by omega)]

/-- `Encode` of the fields but the reserved ones, which it leaves zero (R104). -/
def Fields.sum (f : Fields) : Half := encodeFields f.op.toNat f.d.toNat f.z.toNat f.rd.toNat f.rs.toNat

/-- A word whose reserved bits are zero is the sum of its fields. -/
theorem sum_fieldsOf {w : Half} (h : (fieldsOf w).reservedClear = true) : (fieldsOf w).sum = w := by
  have hreserved : w.toNat / 1024 = 0 := by
    rw [← fieldsOf_reserved_toNat, eq_of_beq h]
    rfl
  apply BitVec.eq_of_toNat_eq
  rw [Fields.sum, encodeFields_toNat (BitVec.isLt _) (BitVec.isLt _) (BitVec.isLt _) (BitVec.isLt _) (BitVec.isLt _),
    fieldsOf_op_toNat, fieldsOf_d_toNat, fieldsOf_z_toNat, fieldsOf_rd_toNat, fieldsOf_rs_toNat]
  omega

theorem eq_sum_of_fieldsOf_eq {w : Half} {f : Fields} (h : fieldsOf w = f) (hf : f.reservedClear = true) :
    w = f.sum := by
  subst h
  exact (sum_fieldsOf hf).symm

/-! ### Which fields are those of a command (R98) -/

theorem error?_eq_none_iff {f : Fields} :
    f.error? = none ↔ f.reservedClear = true ∧ f.opAssigned = true ∧ f.unusedClear = true := by
  unfold Fields.error?
  split_ifs <;> simp_all

theorem unusedClear_iff {f : Fields} :
    f.unusedClear = true ↔
      (f.op = 0 ∨ f.op = 6 ∨ f.op = 15 → f.d = 0) ∧ (f.op ≠ 3 → f.op ≠ 4 → f.z = 0) ∧
        (f.op ≠ 1 → f.rd = 0 ∧ f.rs = 0) := by
  simp only [Fields.unusedClear, Fields.usesD, Fields.usesZ, Fields.usesRegs, Bool.and_eq_true, Bool.or_eq_true,
    Bool.not_eq_true', Bool.or_eq_false_iff, beq_iff_eq, beq_eq_false_iff_ne]
  tauto

theorem decode_eq_ok_iff_fields {w : Half} {i : Instr} :
    decode w = .ok i ↔ (fieldsOf w).error? = none ∧ instrOf (fieldsOf w) = i := by
  unfold decode
  split <;> simp_all

theorem decode_eq_error_iff_fields {w : Half} :
    (∃ e, decode w = .error e) ↔ (fieldsOf w).error? ≠ none := by
  unfold decode
  split <;> simp_all

/-! ### Encoding a decoded word (R104) -/

theorem wregIndex_wregOf (i : BitVec 2) : wregIndex (wregOf i) = i.toNat := by
  decide +revert

theorem refBit_refOf (z : BitVec 1) : refBit (refOf z) = z.toNat := by
  decide +revert

/-- Of two commands whose words differ in bit d only, `byDepth` chooses by that bit. -/
theorem encode_byDepth {i j : Instr} {word : Nat → Half} (hi : encode i = word 0) (hj : encode j = word 1)
    (d : BitVec 1) : encode (byDepth d i j) = word d.toNat := by
  obtain rfl | rfl : d = 0 ∨ d = 1 := by decide +revert
  · exact hi
  · exact hj

theorem encode_abs2 (d : BitVec 1) (rd rs : BitVec 2) :
    encode (byDepth d (.abs2L16 (wregOf rd) (wregOf rs)) (.abs2L32 (wregOf rd) (wregOf rs))) =
      encodeFields 1 d.toNat 0 rd.toNat rs.toNat := by
  rw [← wregIndex_wregOf rd, ← wregIndex_wregOf rs]
  exact encode_byDepth (word := fun k => encodeFields 1 k 0 _ _) rfl rfl d

theorem encode_satd4 (d z : BitVec 1) :
    encode (byDepth d (.satd4S (refOf z)) (.satd4H (refOf z))) = encodeFields 3 d.toNat z.toNat 0 0 := by
  rw [← refBit_refOf z]
  exact encode_byDepth (word := fun k => encodeFields 3 k _ 0 0) rfl rfl d

theorem encode_sa8d (d z : BitVec 1) :
    encode (byDepth d (.sa8dS (refOf z)) (.sa8dH (refOf z))) = encodeFields 4 d.toNat z.toNat 0 0 := by
  rw [← refBit_refOf z]
  exact encode_byDepth (word := fun k => encodeFields 4 k _ 0 0) rfl rfl d

theorem opAssigned_cases {f : Fields} (h : f.opAssigned = true) :
    f.op = 0 ∨ f.op = 1 ∨ f.op = 2 ∨ f.op = 3 ∨ f.op = 4 ∨ f.op = 5 ∨ f.op = 6 ∨ f.op = 7 ∨ f.op = 15 := by
  unfold Fields.opAssigned at h
  generalize f.op = op at h ⊢
  decide +revert

/-- The word of the command that well-formed fields stand for is the sum of the fields: those the command does not
have are zero. -/
theorem encode_instrOf {f : Fields} (hop : f.opAssigned = true) (hunused : f.unusedClear = true) :
    encode (instrOf f) = f.sum := by
  have hcases := opAssigned_cases hop
  obtain ⟨hd, hz, hregs⟩ := unusedClear_iff.1 hunused
  obtain ⟨op, d, z, rd, rs, reserved⟩ := f
  dsimp only at hcases hd hz hregs
  rcases hcases with rfl | rfl | rfl | rfl | rfl | rfl | rfl | rfl | rfl
  -- Registers are fields of op 1 alone, z of op 3 and 4 alone, and d of all but 0, 6 and 15.
  case inr.inl =>
    obtain rfl := hz (by decide) (by decide)
    exact encode_abs2 d rd rs
  all_goals obtain ⟨rfl, rfl⟩ := hregs (by decide)
  case inr.inr.inr.inl => exact encode_satd4 d z
  case inr.inr.inr.inr.inl => exact encode_sa8d d z
  all_goals obtain rfl := hz (by decide) (by decide)
  · obtain rfl := hd (by decide)
    rfl
  · exact encode_byDepth (word := fun k => encodeFields 2 k 0 0 0) rfl rfl d
  · exact encode_byDepth (word := fun k => encodeFields 5 k 0 0 0) rfl rfl d
  · obtain rfl := hd (by decide)
    rfl
  · exact encode_byDepth (word := fun k => encodeFields 7 k 0 0 0) rfl rfl d
  · obtain rfl := hd (by decide)
    rfl

theorem roundTrip (i : Instr) : Laws.RoundTrip.Statement i := by
  cases i with
  | nop => exact Laws.RoundTrip.nop
  | abs2L16 rd rs => exact Laws.RoundTrip.abs2L16 rd rs
  | abs2L32 rd rs => exact Laws.RoundTrip.abs2L32 rd rs
  | had4B32 => exact Laws.RoundTrip.had4B32
  | had4B64 => exact Laws.RoundTrip.had4B64
  | satd4S ref => exact Laws.RoundTrip.satd4S ref
  | satd4H ref => exact Laws.RoundTrip.satd4H ref
  | sa8dS ref => exact Laws.RoundTrip.sa8dS ref
  | sa8dH ref => exact Laws.RoundTrip.sa8dH ref
  | psydS => exact Laws.RoundTrip.psydS
  | psydH => exact Laws.RoundTrip.psydH
  | bias => exact Laws.RoundTrip.bias
  | fdistS => exact Laws.RoundTrip.fdistS
  | fdistH => exact Laws.RoundTrip.fdistH
  | rst => exact Laws.RoundTrip.rst

theorem decode_encode (i : Instr) : decode (encode i) = .ok i := roundTrip i rfl

theorem encode_of_decode {w : Half} {i : Instr} (h : decode w = .ok i) : encode i = w := by
  obtain ⟨hfields, rfl⟩ := decode_eq_ok_iff_fields.1 h
  obtain ⟨hreserved, hop, hunused⟩ := error?_eq_none_iff.1 hfields
  rw [encode_instrOf hop hunused, sum_fieldsOf hreserved]

/-- Decoding and encoding are inverse to each other (R104). -/
theorem decode_eq_ok_iff {w : Half} {i : Instr} : decode w = .ok i ↔ encode i = w :=
  ⟨encode_of_decode, by rintro rfl; exact decode_encode i⟩

theorem encode_injective : Function.Injective encode := fun i j h =>
  Except.ok.inj (by rw [← decode_encode i, h, decode_encode j])

/-- Settles O2: the two directions are `decode_encode` and `encode_of_decode`; the fields of the word of a command are
well-formed because it decodes. -/
theorem decodeAndEncodeAreInverse : Obligations.DecodeAndEncodeAreInverse := by
  refine ⟨fun op hop d hd z hz rd hrd rs hrs => encodeFields_toNat hop hd hz hrd hrs, fun i => ?_, rfl, rfl, rfl, rfl,
    rfl, fun i _ => decode_encode i, fun w i => encode_of_decode⟩
  obtain ⟨hfields, _⟩ := decode_eq_ok_iff_fields.1 (decode_encode i)
  obtain ⟨hreserved, _, hunused⟩ := error?_eq_none_iff.1 hfields
  exact ⟨hunused, hreserved⟩

/-- Settles O1, by evaluation: the statement is about thirteen words. -/
theorem wordsOfTheSpecDecode : Obligations.WordsOfTheSpecDecode := by
  unfold Obligations.WordsOfTheSpecDecode
  decide

/-! ### The 49 commands (R97) -/

def allWRegs : List WReg := [.w0, .w1, .w2, .w3]

def allRefSels : List RefSel := [.b, .zero]

theorem mem_allWRegs (r : WReg) : r ∈ allWRegs := by
  cases r <;> decide

theorem mem_allRefSels (ref : RefSel) : ref ∈ allRefSels := by
  cases ref <;> decide

/-- Every command, each once. -/
def allInstrs : List Instr :=
  [.nop, .had4B32, .had4B64, .psydS, .psydH, .bias, .fdistS, .fdistH, .rst] ++
    [Instr.satd4S, .satd4H, .sa8dS, .sa8dH].flatMap (fun command => allRefSels.map command) ++
    [Instr.abs2L16, .abs2L32].flatMap (fun command => allWRegs.flatMap fun rd => allWRegs.map (command rd))

theorem mem_allInstrs (i : Instr) : i ∈ allInstrs := by
  cases i with
  | abs2L16 rd rs => cases rd <;> cases rs <;> decide
  | abs2L32 rd rs => cases rd <;> cases rs <;> decide
  | satd4S ref => cases ref <;> decide
  | satd4H ref => cases ref <;> decide
  | sa8dS ref => cases ref <;> decide
  | sa8dH ref => cases ref <;> decide
  | _ => decide

theorem allInstrs_nodup : allInstrs.Nodup := by
  decide

/-! ### The opcode map (R97) -/

/-- A word that a row selects is the row's value with some of the bits that the mask leaves free. -/
theorem eq_value_or_free_bits {row : OpcodeRow} {w : Half} (h : row.selects w = true) :
    w = row.value ||| (w &&& ~~~row.mask) := by
  rw [← eq_of_beq h, ← BitVec.and_or_distrib_left, BitVec.or_not_self, BitVec.and_allOnes]

/-- Bit z alone, where the mask of `SATD4` and `SA8D` is 0 (R97). -/
theorem and_z_eq (w : Half) : w &&& ~~~0xFFFFFFDF#32 = encodeFields 0 0 (fieldsOf w).z.toNat 0 0 := by
  refine eq_sum_of_fieldsOf_eq (f := ⟨0, 0, (fieldsOf w).z, 0, 0, 0⟩) ?_ rfl
  have hmask : fieldsOf (~~~0xFFFFFFDF#32) = ⟨0, 0, BitVec.allOnes 1, 0, 0, 0⟩ := rfl
  rw [fieldsOf_and, hmask]
  simp only [BitVec.ofNat_eq_ofNat, BitVec.and_zero, BitVec.and_allOnes]

/-- The bits of rd and rs alone, where the mask of `ABS2` is 0 (R97). -/
theorem and_registers_eq (w : Half) :
    w &&& ~~~0xFFFFFC3F#32 = encodeFields 0 0 0 (fieldsOf w).rd.toNat (fieldsOf w).rs.toNat := by
  refine eq_sum_of_fieldsOf_eq (f := ⟨0, 0, 0, (fieldsOf w).rd, (fieldsOf w).rs, 0⟩) ?_ rfl
  have hmask : fieldsOf (~~~0xFFFFFC3F#32) = ⟨0, 0, 0, BitVec.allOnes 2, BitVec.allOnes 2, 0⟩ := rfl
  rw [fieldsOf_and, hmask]
  simp only [BitVec.ofNat_eq_ofNat, BitVec.and_zero, BitVec.and_allOnes]

section
variable {row : OpcodeRow} {w : Half}

/-- A full mask leaves no bit free. -/
theorem encode_eq_of_selects (hmask : row.mask = 0xFFFFFFFF#32) {i : Instr} (hi : encode i = row.value)
    (h : row.selects w = true) : encode i = w := by
  rw [eq_value_or_free_bits h, hmask, hi]
  simp

/-- The mask of `SATD4` and `SA8D` leaves bit z free. -/
theorem exists_reference_of_selects (hmask : row.mask = 0xFFFFFFDF#32) {command : RefSel → Instr}
    (hcommand : ∀ ref ∈ allRefSels, encode (command ref) = row.value ||| encodeFields 0 0 (refBit ref) 0 0)
    (h : row.selects w = true) : ∃ ref, encode (command ref) = w := by
  have hw := eq_value_or_free_bits h
  rw [hmask, and_z_eq, ← refBit_refOf] at hw
  exact ⟨_, (hcommand _ (mem_allRefSels _)).trans hw.symm⟩

/-- The mask of `ABS2` leaves rd and rs free. -/
theorem exists_registers_of_selects (hmask : row.mask = 0xFFFFFC3F#32) {command : WReg → WReg → Instr}
    (hcommand : ∀ rd ∈ allWRegs, ∀ rs ∈ allWRegs,
      encode (command rd rs) = row.value ||| encodeFields 0 0 0 (wregIndex rd) (wregIndex rs))
    (h : row.selects w = true) : ∃ rd rs, encode (command rd rs) = w := by
  have hw := eq_value_or_free_bits h
  rw [hmask, and_registers_eq, ← wregIndex_wregOf, ← wregIndex_wregOf] at hw
  exact ⟨_, _, (hcommand _ (mem_allWRegs _) _ (mem_allWRegs _)).trans hw.symm⟩

end

/-- Every command has a row, which selects its word. -/
theorem exists_row_of_instr (i : Instr) :
    ∃ row ∈ opcodeMap, row.mnemonic = i.mnemonic ∧ row.selects (encode i) = true := by
  have h : ∀ i ∈ allInstrs, ∃ row ∈ opcodeMap, row.mnemonic = i.mnemonic ∧ row.selects (encode i) = true := by decide
  exact h i (mem_allInstrs i)

theorem opcodeMap_mnemonics_nodup : (opcodeMap.map OpcodeRow.mnemonic).Nodup := by
  decide

/-- A word that a row selects is the word of a command of the row. -/
theorem exists_instr_of_selects {row : OpcodeRow} (hrow : row ∈ opcodeMap) {w : Half} (h : row.selects w = true) :
    ∃ i, encode i = w ∧ i.mnemonic = row.mnemonic := by
  simp only [opcodeMap, List.mem_cons, List.not_mem_nil, or_false] at hrow
  rcases hrow with rfl | rfl | rfl | rfl | rfl | rfl | rfl | rfl | rfl | rfl | rfl | rfl | rfl | rfl | rfl
  · exact ⟨.nop, encode_eq_of_selects rfl rfl h, rfl⟩
  · obtain ⟨rd, rs, hw⟩ := exists_registers_of_selects rfl (command := .abs2L16) (by decide) h
    exact ⟨_, hw, rfl⟩
  · obtain ⟨rd, rs, hw⟩ := exists_registers_of_selects rfl (command := .abs2L32) (by decide) h
    exact ⟨_, hw, rfl⟩
  · exact ⟨.had4B32, encode_eq_of_selects rfl rfl h, rfl⟩
  · exact ⟨.had4B64, encode_eq_of_selects rfl rfl h, rfl⟩
  · obtain ⟨ref, hw⟩ := exists_reference_of_selects rfl (command := .satd4S) (by decide) h
    exact ⟨_, hw, rfl⟩
  · obtain ⟨ref, hw⟩ := exists_reference_of_selects rfl (command := .satd4H) (by decide) h
    exact ⟨_, hw, rfl⟩
  · obtain ⟨ref, hw⟩ := exists_reference_of_selects rfl (command := .sa8dS) (by decide) h
    exact ⟨_, hw, rfl⟩
  · obtain ⟨ref, hw⟩ := exists_reference_of_selects rfl (command := .sa8dH) (by decide) h
    exact ⟨_, hw, rfl⟩
  · exact ⟨.psydS, encode_eq_of_selects rfl rfl h, rfl⟩
  · exact ⟨.psydH, encode_eq_of_selects rfl rfl h, rfl⟩
  · exact ⟨.bias, encode_eq_of_selects rfl rfl h, rfl⟩
  · exact ⟨.fdistS, encode_eq_of_selects rfl rfl h, rfl⟩
  · exact ⟨.fdistH, encode_eq_of_selects rfl rfl h, rfl⟩
  · exact ⟨.rst, encode_eq_of_selects rfl rfl h, rfl⟩

theorem selects_iff {row : OpcodeRow} (hrow : row ∈ opcodeMap) {w : Half} :
    row.selects w = true ↔ ∃ i, decode w = .ok i ∧ i.mnemonic = row.mnemonic := by
  simp only [decode_eq_ok_iff]
  refine ⟨exists_instr_of_selects hrow, ?_⟩
  rintro ⟨i, rfl, hi⟩
  obtain ⟨row', hrow', hname, hselects⟩ := exists_row_of_instr i
  rwa [← List.inj_on_of_nodup_map opcodeMap_mnemonics_nodup hrow' hrow (hname.trans hi)]

/-- A word has one mnemonic, so rows of different mnemonics share no word. -/
theorem not_selects_both {row row' : OpcodeRow} (hrow : row ∈ opcodeMap) (hrow' : row' ∈ opcodeMap)
    (hne : row.mnemonic ≠ row'.mnemonic) (w : Half) : ¬(row.selects w = true ∧ row'.selects w = true) := by
  rw [selects_iff hrow, selects_iff hrow']
  rintro ⟨⟨i, hi, hname⟩, ⟨j, hj, hname'⟩⟩
  obtain rfl : i = j := Except.ok.inj (hi.symm.trans hj)
  exact hne (hname.symm.trans hname')

theorem exists_decode_error {w : Half} (h : ∀ row ∈ opcodeMap, row.selects w = false) : ∃ e, decode w = .error e := by
  cases hw : decode w with
  | error e => exact ⟨e, rfl⟩
  | ok i =>
    obtain ⟨row, hrow, _, hselects⟩ := exists_row_of_instr i
    rw [encode_of_decode hw, h row hrow] at hselects
    cases hselects

/-- Settles O3: the rows are disjoint because their mnemonics differ, and the legal words are the words of the 49
commands. -/
theorem opcodeMapDescribesDecode : Obligations.OpcodeMapDescribesDecode := by
  refine ⟨fun row hrow w => selects_iff hrow, ?_, fun w => exists_decode_error, allInstrs.map encode,
    allInstrs_nodup.map encode_injective, rfl, fun w => ?_⟩
  · have hnames : opcodeMap.Pairwise fun row row' => row.mnemonic ≠ row'.mnemonic :=
      List.pairwise_map.1 opcodeMap_mnemonics_nodup
    exact hnames.imp_of_mem fun hrow hrow' => not_selects_both hrow hrow'
  · simp only [List.mem_map, decode_eq_ok_iff, mem_allInstrs, true_and]

/-! ### The three clauses of an illegal word (R98) -/

section
variable (w : Half)

theorem reservedClear_fieldsOf_iff : (fieldsOf w).reservedClear = true ↔ w.toNat / 1024 = 0 := by
  simp [Fields.reservedClear, ← BitVec.toNat_inj, fieldsOf_reserved_toNat]

theorem opAssigned_fieldsOf_iff : (fieldsOf w).opAssigned = true ↔ w.toNat % 16 ≤ 7 ∨ w.toNat % 16 = 15 := by
  simp [Fields.opAssigned, ← BitVec.toNat_inj, fieldsOf_op_toNat]

theorem unusedClear_fieldsOf_iff :
    (fieldsOf w).unusedClear = true ↔
      (w.toNat % 16 = 0 ∨ w.toNat % 16 = 6 ∨ w.toNat % 16 = 15 → w.toNat / 16 % 2 = 0) ∧
      (w.toNat % 16 ≠ 3 → w.toNat % 16 ≠ 4 → w.toNat / 32 % 2 = 0) ∧
      (w.toNat % 16 ≠ 1 → w.toNat / 64 % 4 = 0 ∧ w.toNat / 256 % 4 = 0) := by
  simp only [unusedClear_iff, ne_eq, ← BitVec.toNat_inj, fieldsOf_op_toNat, fieldsOf_d_toNat, fieldsOf_z_toNat,
    fieldsOf_rd_toNat, fieldsOf_rs_toNat]
  rfl

end

end Sys2Proof

namespace Sys2Proof.Machine

/-! ### Writes to CMD while IDLE (R92) -/

section
variable {s : State}

theorem hostWrite_cmd_of_idle (h : s.isIdle = true) (v : Word) : hostWrite 0 v s = doorbell (v.setWidth 32) s := by
  obtain ⟨done, h⟩ := (isIdle_iff s).1 h
  simp only [hostWrite, h, if_true]

theorem setWidth_setWidth_half (w : Half) : (w.setWidth 64).setWidth 32 = w := by
  simp

theorem doorbell_of_decode_error {w : Half} {e : DecodeError} (h : decode w = .error e) :
    doorbell w s = raise .illegalCommand (w.setWidth 64) s := by
  simp only [doorbell, h]

theorem doorbell_of_decode_ok {w : Half} {i : Instr} (h : decode w = .ok i) : doorbell w s = startCommand i s := by
  simp only [doorbell, h]

/-- A step of an IDLE unit whose host writes to CMD is the doorbell. -/
theorem step_cmd_of_idle (h : s.isIdle = true) {v : Word} {rest : List HostAction}
    (hhost : s.host = .write 0 v :: rest) : step s = doorbell (v.setWidth 32) { s with host := rest } := by
  rw [step_of_not_busy (busyFlag_of_idle h), ← hostWrite_cmd_of_idle (s := { s with host := rest }) h]
  simp only [hostEvent, hhost, perform]

end

/-- A command word written to CMD of an IDLE unit starts its command: bits 63:32 of the value are ignored. -/
theorem step_cmd_eq_startCommand {s : State} (h : s.isIdle = true) {v : Word} {rest : List HostAction}
    (hhost : s.host = .write 0 v :: rest) {i : Instr} (hi : decode (v.setWidth 32) = .ok i) :
    step s = startCommand i { s with host := rest } := by
  rw [step_cmd_of_idle h hhost, doorbell_of_decode_ok hi]

theorem startCommand_of_no_latency {i : Instr} {s : State} (h : s.latency = []) : startCommand i s = exec i s := by
  simp only [startCommand, h]

theorem startCommand_of_latency_zero {i : Instr} {s : State} {later : List Nat} (h : s.latency = 0 :: later) :
    startCommand i s = exec i { s with latency := later } := by
  simp only [startCommand, h]

/-- Offering a command to an IDLE unit keeps its run state. -/
theorem offerCommand_of_idle {s : State} (h : s.isIdle = true) (w : Half) :
    offerCommand w s = { s with host := .write 0 (w.setWidth 64) :: s.host, latency := [], earlier := [] } := by
  simp only [offerCommand, h, if_true]

theorem step_offerCommand {s : State} (h : s.isIdle = true) {w : Half} {i : Instr} (hi : decode w = .ok i) :
    step (offerCommand w s) = exec i { s with latency := [], earlier := [] } := by
  have hidle : (offerCommand w s).isIdle = true := by rw [offerCommand_of_idle h]; exact h
  rw [← setWidth_setWidth_half w] at hi
  rw [step_cmd_eq_startCommand hidle (offerCommand_host w s) hi, offerCommand_of_idle h]
  exact startCommand_of_no_latency rfl

/-! ### The statements on the machine -/

/-- Settles O4: a word is illegal where one of the three checks on its fields fails. -/
theorem illegalWordsAreThoseOfTheThreeClauses : Obligations.IllegalWordsAreThoseOfTheThreeClauses := by
  refine ⟨fun w => ?_, fun w s hidle ⟨e, he⟩ => ?_⟩
  · rw [decode_eq_error_iff_fields, Ne, error?_eq_none_iff, reservedClear_fieldsOf_iff, opAssigned_fieldsOf_iff,
      unusedClear_fieldsOf_iff]
    omega
  · rw [hostWrite_cmd_of_idle hidle, setWidth_setWidth_half, doorbell_of_decode_error he]
    exact ⟨_, rfl, rfl, rfl⟩

/-- Settles O5: the written word reaches `startCommand`, which runs the command where no event falls before the
completion. -/
theorem stepRunsTheWrittenCommand : Obligations.StepRunsTheWrittenCommand := by
  refine ⟨fun s v rest i hidle hhost hi _ => ?_, fun s w i hidle hi hw => ?_⟩
  · rw [step_cmd_eq_startCommand hidle hhost hi]
    exact ⟨startCommand_of_no_latency (s := { s with host := rest }),
      fun _ => startCommand_of_latency_zero (s := { s with host := rest })⟩
  · rw [State.withFetchWord, Nat.mod_eq_of_lt hw, step_offerCommand hidle hi]

end Sys2Proof.Machine
end

section
/-! PROOFS. O14, O15, O16, O17: the lanes of a backing word and the packed absolute value (40_packed_abs.md R121 to
R127). The two lanes are the balanced digits of the word in base 2^W, low digit first; that gives the lane reading of
sums. The packed absolute value is followed field by field, the carry between the fields included. Both are for every
lane width W. -/

namespace Sys2Proof.Machine

/-! ### The lanes of a word (R123) -/

theorem laneFits_toInt {W : Nat} (x : BitVec W) : laneFits W x.toInt :=
  ⟨BitVec.le_toInt x, Int.le_sub_one_of_lt BitVec.toInt_lt⟩

theorem laneFits_loLane {N : Nat} (W : Nat) (a : BitVec N) : laneFits W (loLane W a) := laneFits_toInt _

theorem laneFits_hiLane {N : Nat} (W : Nat) (a : BitVec N) : laneFits W (hiLane W a) := laneFits_toInt _

theorem natAbs_le_of_laneFits {W : Nat} {x : Int} (h : laneFits W x) : x.natAbs ≤ 2 ^ (W - 1) := by
  obtain ⟨hlow, hhigh⟩ := h
  zify
  rw [abs_le]
  omega

theorem bmod_eq_of_laneFits {W : Nat} (hW : 0 < W) {x : Int} (h : laneFits W x) : x.bmod (2 ^ W) = x := by
  rw [← BitVec.toInt_ofInt]
  exact BitVec.toInt_ofInt_eq_self hW h.1 (Int.lt_of_le_sub_one h.2)

section
variable {W N : Nat}

theorem loLane_eq_bmod (a : BitVec N) : loLane W a = (a.toNat : Int).bmod (2 ^ W) := BitVec.toInt_setWidth a

/-- The low lane is negative, and borrows from the high field, where its own field is in the upper half of its range
(R123). -/
theorem getLsbD_loField_sign (hW : 0 < W) (a : BitVec N) :
    a.getLsbD (W - 1) = decide (2 ^ (W - 1) ≤ a.toNat % 2 ^ W) := by
  rw [← BitVec.toNat_setWidth, ← BitVec.msb_eq_decide, BitVec.msb_eq_getLsbD_last, BitVec.getLsbD_setWidth]
  simp [hW]

/-- The high field with the borrow added back is the quotient of the balanced division by 2^W. -/
theorem bdiv_eq_hiField_add_borrow (hW : 0 < W) (a : BitVec N) :
    (a.toNat : Int).bdiv (2 ^ W) = (a.toNat / 2 ^ W + (a.getLsbD (W - 1)).toNat : Nat) := by
  have hpow : 2 ^ W = 2 * 2 ^ (W - 1) := (mul_pow_sub_one hW.ne' 2).symm
  rw [getLsbD_loField_sign hW, Int.bdiv, hpow]
  have hhalf : 0 < 2 ^ (W - 1) := Nat.two_pow_pos _
  generalize 2 ^ (W - 1) = half at hhalf ⊢
  have hr : (a.toNat : Int) % (2 * half : Nat) = (a.toNat % (2 * half) : Nat) := rfl
  have hq : (a.toNat : Int) / (2 * half : Nat) = (a.toNat / (2 * half) : Nat) := rfl
  rw [hr, hq]
  rcases lt_or_ge (a.toNat % (2 * half)) half with h | h
  · rw [decide_eq_false (by omega), if_neg (by omega), if_pos (by omega)]
    rfl
  · rw [decide_eq_true h, if_neg (by omega), if_neg (by omega)]
    rfl

theorem hiLane_eq_bmod_bdiv (hW : 0 < W) (a : BitVec N) :
    hiLane W a = ((a.toNat : Int).bdiv (2 ^ W)).bmod (2 ^ W) := by
  rw [bdiv_eq_hiField_add_borrow hW, hiLane, BitVec.toInt_eq_toNat_bmod, BitVec.toNat_add, BitVec.extractLsb'_toNat,
    BitVec.toNat_ofNat, ← Nat.add_mod, Nat.shiftRight_eq_div_pow, Int.natCast_emod, Int.emod_bmod]

/-- Every word is the word of its lanes. -/
theorem ofInt_lanes (hW : 0 < W) (hN : N = W + W) (a : BitVec N) :
    BitVec.ofInt N (loLane W a + hiLane W a * 2 ^ W) = a := by
  have hlo := Int.bmod_add_bdiv' (a.toNat : Int) (2 ^ W)
  have hhi := Int.bmod_add_bdiv' ((a.toNat : Int).bdiv (2 ^ W)) (2 ^ W)
  rw [← loLane_eq_bmod] at hlo
  rw [← hiLane_eq_bmod_bdiv hW] at hhi
  generalize ((a.toNat : Int).bdiv (2 ^ W)).bdiv (2 ^ W) = k at hhi
  have hpow : (2 : Int) ^ N = 2 ^ W * 2 ^ W := by rw [hN, pow_add]
  have hsum : loLane W a + hiLane W a * 2 ^ W = a.toNat - 2 ^ N * k := by
    rw [← hlo, ← hhi, hpow]
    push_cast
    ring
  apply BitVec.eq_of_toNat_eq
  rw [hsum, BitVec.toNat_ofInt]
  push_cast
  rw [Int.sub_mul_emod_self_left]
  norm_cast
  exact Nat.mod_eq_of_lt a.isLt

/-- The word of two lane values, as a number: the high lane is known up to a multiple of 2^W. -/
theorem exists_toNat_ofInt (hN : N = W + W) (lo hi : Int) :
    ∃ k : Int, ((BitVec.ofInt N (lo + hi * 2 ^ W)).toNat : Int) = lo + (hi + k * (2 ^ W : Nat)) * (2 ^ W : Nat) := by
  refine ⟨-((lo + hi * 2 ^ W) / 2 ^ N), ?_⟩
  rw [BitVec.toNat_ofInt, Int.toNat_of_nonneg (Int.emod_nonneg _ (by positivity)), Int.emod_def]
  push_cast
  rw [hN, pow_add]
  ring

/-- Balanced division by 2^W reads off a low digit that fits a lane. -/
theorem bmod_and_bdiv_of_laneFits (hW : 0 < W) {lo : Int} (hlo : laneFits W lo) (q : Int) :
    (lo + q * (2 ^ W : Nat)).bmod (2 ^ W) = lo ∧ (lo + q * (2 ^ W : Nat)).bdiv (2 ^ W) = q := by
  have hmod : (lo + q * (2 ^ W : Nat)).bmod (2 ^ W) = lo := by
    rw [Int.add_mul_bmod_self_right, bmod_eq_of_laneFits hW hlo]
  have hdiv := Int.bmod_add_bdiv' (lo + q * (2 ^ W : Nat)) (2 ^ W)
  rw [hmod] at hdiv
  exact ⟨hmod, Int.eq_of_mul_eq_mul_right (by positivity) (Int.add_left_cancel hdiv)⟩

/-- Lane values that fit are the lanes of their word, so a word has one pair of lanes. -/
theorem lanes_ofInt (hW : 0 < W) (hN : N = W + W) {lo hi : Int} (hlo : laneFits W lo) (hhi : laneFits W hi) :
    loLane W (BitVec.ofInt N (lo + hi * 2 ^ W)) = lo ∧ hiLane W (BitVec.ofInt N (lo + hi * 2 ^ W)) = hi := by
  obtain ⟨k, hk⟩ := exists_toNat_ofInt hN lo hi
  obtain ⟨hmod, hdiv⟩ := bmod_and_bdiv_of_laneFits hW hlo (hi + k * (2 ^ W : Nat))
  rw [loLane_eq_bmod, hiLane_eq_bmod_bdiv hW, hk, hmod, hdiv, Int.add_mul_bmod_self_right,
    bmod_eq_of_laneFits hW hhi]
  exact ⟨rfl, rfl⟩

/-- Adding words adds their lanes, as long as the sums fit. -/
theorem lanes_add (hW : 0 < W) (hN : N = W + W) {a b : BitVec N} (hlo : laneFits W (loLane W a + loLane W b))
    (hhi : laneFits W (hiLane W a + hiLane W b)) :
    loLane W (a + b) = loLane W a + loLane W b ∧ hiLane W (a + b) = hiLane W a + hiLane W b := by
  have hsum : a + b =
      BitVec.ofInt N (loLane W a + loLane W b + (hiLane W a + hiLane W b) * 2 ^ W) := by
    rw [add_mul, add_add_add_comm, BitVec.ofInt_add, ofInt_lanes hW hN, ofInt_lanes hW hN]
  rw [hsum]
  exact lanes_ofInt hW hN hlo hhi

/-- Subtracting words subtracts their lanes, as long as the differences fit. -/
theorem lanes_sub (hW : 0 < W) (hN : N = W + W) {a b : BitVec N} (hlo : laneFits W (loLane W a - loLane W b))
    (hhi : laneFits W (hiLane W a - hiLane W b)) :
    loLane W (a - b) = loLane W a - loLane W b ∧ hiLane W (a - b) = hiLane W a - hiLane W b := by
  have hdiff : a = BitVec.ofInt N (loLane W a - loLane W b + (hiLane W a - hiLane W b) * 2 ^ W) + b := calc
    a = BitVec.ofInt N (loLane W a + hiLane W a * 2 ^ W) := (ofInt_lanes hW hN a).symm
    _ = BitVec.ofInt N (loLane W a - loLane W b + (hiLane W a - hiLane W b) * 2 ^ W +
          (loLane W b + hiLane W b * 2 ^ W)) := by congr 1; ring
    _ = _ := by rw [BitVec.ofInt_add, ofInt_lanes hW hN b]
  rw [BitVec.sub_eq_iff_eq_add.2 hdiff]
  exact lanes_ofInt hW hN hlo hhi

end

/-- Settles O14: a word is the word of its balanced digits, and those digits are unique; sums and differences follow. -/
theorem everyWordIsOnePairOfLanes : Obligations.EveryWordIsOnePairOfLanes :=
  ⟨fun a => ⟨laneFits_loLane 16 a, laneFits_hiLane 16 a, ofInt_lanes (W := 16) (by decide) rfl a⟩,
    fun _ _ => lanes_ofInt (W := 16) (by decide) rfl,
    fun _ _ => ⟨lanes_add (W := 16) (by decide) rfl, lanes_sub (W := 16) (by decide) rfl⟩,
    fun a => ⟨laneFits_loLane 32 a, laneFits_hiLane 32 a, ofInt_lanes (W := 32) (by decide) rfl a⟩,
    fun _ _ => lanes_ofInt (W := 32) (by decide) rfl,
    fun _ _ => ⟨lanes_add (W := 32) (by decide) rfl, lanes_sub (W := 32) (by decide) rfl⟩⟩

/-! ### Fields of a word -/

section
variable {W : Nat}

theorem toNat_fields (x y : BitVec W) : (x ++ y).toNat = x.toNat * 2 ^ W + y.toNat := by
  rw [BitVec.toNat_append, ← Nat.shiftLeft_add_eq_or_of_lt y.isLt, Nat.shiftLeft_eq]

theorem eq_fields (a : BitVec (W + W)) : a = a.extractLsb' W W ++ a.setWidth W := by
  rw [BitVec.setWidth_eq_extractLsb' (Nat.le_add_right W W), BitVec.extractLsb'_append_extractLsb']

/-- The sum of two words field by field: the low fields carry into the high ones. -/
theorem fields_add_fields (x y x' y' : BitVec W) :
    (x ++ y) + (x' ++ y') = (x + x' + BitVec.ofNat W ((y.toNat + y'.toNat) / 2 ^ W)) ++ (y + y') := by
  apply BitVec.eq_of_toNat_eq
  have hsum : x.toNat * 2 ^ W + y.toNat + (x'.toNat * 2 ^ W + y'.toNat) =
      (y.toNat + y'.toNat) + 2 ^ W * (x.toNat + x'.toNat) := by ring
  rw [BitVec.toNat_add, toNat_fields, toNat_fields, toNat_fields, hsum, pow_add, Nat.mod_mul,
    Nat.add_mul_mod_self_left, Nat.add_mul_div_left _ _ (Nat.two_pow_pos W)]
  simp only [BitVec.toNat_add, BitVec.toNat_ofNat, Nat.add_mod_mod, Nat.mod_add_mod]
  ring_nf

/-! ### The packed absolute value field by field (R121, R125) -/

/-- One field of the mask of R121: the sign bit at the field's least significant position (R125). -/
def signField (W : Nat) (b : Bool) : BitVec W := BitVec.ofNat W b.toNat

/-- A field negated where its sign bit is set. -/
def negateIf (b : Bool) (x : BitVec W) : BitVec W := if b then -x else x

@[simp] theorem signField_false : signField W false = 0 := rfl

@[simp] theorem signField_true : signField W true = 1 := rfl

theorem and_one_eq_signField (x : BitVec W) : x &&& 1 = signField W (x.getLsbD 0) := by
  rw [BitVec.ofNat_eq_ofNat, BitVec.and_one_eq_setWidth_ofBool_getLsbD]
  apply BitVec.eq_of_toNat_eq
  simp [signField]

/-- The mask of R121 holds the sign bit of each field (R125). -/
theorem mask_eq_signFields (hW : 0 < W) (a : BitVec (W + W)) :
    (a >>> (W - 1)) &&& BitVec.ofNat (W + W) (2 ^ W + 1) =
      signField W (a.getLsbD (W + W - 1)) ++ signField W (a.getLsbD (W - 1)) := by
  have hones : BitVec.ofNat (W + W) (2 ^ W + 1) = (1 : BitVec W) ++ (1 : BitVec W) := by
    apply BitVec.eq_of_toNat_eq
    have h2 : 1 < 2 ^ W := Nat.one_lt_two_pow hW.ne'
    have hlt : 2 ^ W + 1 < 2 ^ (W + W) := by rw [pow_add]; nlinarith
    rw [toNat_fields, BitVec.toNat_ofNat, Nat.mod_eq_of_lt hlt]
    simp [Nat.mod_eq_of_lt h2]
  have hlast : W - 1 + W = W + W - 1 := by omega
  rw [hones, eq_fields (a >>> (W - 1)), BitVec.and_append, and_one_eq_signField, and_one_eq_signField]
  simp [hW, hlast]

/-- A field of `s` is the sign bit negated: adding it carries into the field above exactly where the sign bit is set, if
the field it is added to is not zero then. -/
theorem carry_neg_signField {b : Bool} {x : BitVec W} (h : b = true → x ≠ 0) :
    BitVec.ofNat W ((x.toNat + (-signField W b).toNat) / 2 ^ W) = signField W b := by
  have hx := x.isLt
  cases b with
  | false => simp [Nat.div_eq_of_lt hx]
  | true =>
    have hpos : 0 < x.toNat := Nat.pos_of_ne_zero fun h0 => h rfl (BitVec.eq_of_toNat_eq h0)
    have hdiv : (x.toNat + (2 ^ W - 1)) / 2 ^ W = 1 := Nat.div_eq_of_lt_le (by omega) (by omega)
    simp [BitVec.neg_one_eq_allOnes, hdiv]

theorem fields_shiftLeft (x y : BitVec W) : (x ++ y) <<< W = y ++ (0 : BitVec W) := by
  apply BitVec.eq_of_toNat_eq
  rw [BitVec.toNat_shiftLeft, toNat_fields, toNat_fields, Nat.shiftLeft_eq, pow_add, Nat.mul_mod_mul_right,
    Nat.mul_add_mod_self_right, Nat.mod_eq_of_lt y.isLt]
  rfl

/-- `s` of R121: the sign bits negated, field by field. -/
theorem shifted_mask_sub_mask (hW : 0 < W) (h l : Bool) :
    ((signField W h ++ signField W l) <<< W) - (signField W h ++ signField W l) =
      (-signField W h) ++ (-signField W l) := by
  have hne : l = true → signField W l ≠ 0 := by
    rintro rfl
    exact mt BitVec.one_eq_zero_iff.1 hW.ne'
  rw [BitVec.sub_eq_iff_eq_add, fields_shiftLeft, BitVec.add_comm, fields_add_fields, carry_neg_signField hne]
  simp

/-- Subtracting the sign bit and complementing negates (R124). -/
theorem add_neg_signField_xor (b : Bool) (x : BitVec W) :
    (x + -signField W b) ^^^ (-signField W b) = negateIf b x := by
  cases b with
  | false => simp [negateIf]
  | true =>
    rw [← BitVec.sub_eq_add_neg]
    simp [negateIf, BitVec.neg_one_eq_allOnes, BitVec.not_sub_one_eq_not_add_one, ← BitVec.neg_eq_not_add]

/-- Adding `s` to a word: the carry out of the low field gives the high one its borrow back (R124). -/
theorem add_neg_signFields (a : BitVec (W + W)) (h l : Bool) (hl : l = true → a.setWidth W ≠ 0) :
    a + ((-signField W h) ++ (-signField W l)) =
      (a.extractLsb' W W + signField W l + -signField W h) ++ (a.setWidth W + -signField W l) := by
  conv_lhs => rw [eq_fields a]
  rw [fields_add_fields, carry_neg_signField hl, add_right_comm]

/-- The packed absolute value field by field: the carry out of the low field gives the high one its borrow back, and
each field is negated where its sign bit is set (R124). -/
theorem abs2_eq_fields (hW : 0 < W) (a : BitVec (W + W)) :
    abs2 W a =
      negateIf (a.getLsbD (W + W - 1)) (a.extractLsb' W W + signField W (a.getLsbD (W - 1))) ++
        negateIf (a.getLsbD (W - 1)) (a.setWidth W) := by
  have hlow : a.getLsbD (W - 1) = true → a.setWidth W ≠ 0 := by
    intro hbit hzero
    have hbit' := BitVec.getLsbD_setWidth W a (W - 1)
    simp [hzero, hbit, hW] at hbit'
  have hs := shifted_mask_sub_mask hW (a.getLsbD (W + W - 1)) (a.getLsbD (W - 1))
  rw [← mask_eq_signFields hW] at hs
  rw [abs2, hs, add_neg_signFields a _ _ hlow, BitVec.xor_append, add_neg_signField_xor, add_neg_signField_xor]

/-! ### The lane law (R124) -/

/-- A field negated by its own sign bit, after a borrow is given back, is the magnitude of its lane: at -2^(W-1) and
at 0, where giving the borrow back changes the sign bit, the number is its own negative. -/
theorem toNat_negateIf_msb (hW : 0 < W) (x : BitVec W) (borrow : Bool) :
    (negateIf x.msb (x + signField W borrow)).toNat = (x + signField W borrow).toInt.natAbs := by
  have hpow : 2 ^ W = 2 * 2 ^ (W - 1) := (mul_pow_sub_one hW.ne' 2).symm
  have hlt := x.isLt
  have hy : (x + signField W borrow).toNat = (x.toNat + borrow.toNat) % 2 ^ W := by simp [signField]
  have hborrow := borrow.toNat_le
  generalize x + signField W borrow = y at hy ⊢
  rw [BitVec.toInt_eq_toNat_cond]
  cases hx : x.msb with
  | false =>
    have hsmall := BitVec.msb_eq_false_iff_two_mul_lt.1 hx
    rw [Nat.mod_eq_of_lt (by omega)] at hy
    simp only [negateIf, Bool.false_eq_true, if_false]
    split_ifs <;> omega
  | true =>
    have hlarge := BitVec.msb_eq_true_iff_two_mul_ge.1 hx
    simp only [negateIf, if_true, BitVec.toNat_neg]
    by_cases hwrap : x.toNat + borrow.toNat = 2 ^ W
    · rw [hwrap, Nat.mod_self] at hy
      simp [hy]
    · rw [Nat.mod_eq_of_lt (by omega)] at hy
      rw [Nat.mod_eq_of_lt (by omega), if_neg (by omega)]
      omega

end

section
variable {W N : Nat}

/-- The lane law (R124). -/
theorem toNat_abs2 (hW : 0 < W) (hN : N = W + W) (a : BitVec N) :
    (abs2 W a).toNat = (loLane W a).natAbs + (hiLane W a).natAbs * 2 ^ W := by
  subst hN
  have hhigh : a.getLsbD (W + W - 1) = (a.extractLsb' W W).msb := by
    simp [BitVec.msb_eq_getLsbD_last, hW, Nat.add_sub_assoc hW]
  have hlow : a.getLsbD (W - 1) = (a.setWidth W).msb := by
    simp [BitVec.msb_eq_getLsbD_last, hW]
  have hlo := toNat_negateIf_msb hW (a.setWidth W) false
  have hhi := toNat_negateIf_msb hW (a.extractLsb' W W) (a.getLsbD (W - 1))
  rw [signField_false, add_zero, ← hlow] at hlo
  rw [← hhigh] at hhi
  rw [abs2_eq_fields hW, toNat_fields, hlo, hhi, Nat.add_comm]
  rfl

/-- Both magnitudes fit an unsigned field, -2^(W-1) included (R124). -/
theorem natAbs_lanes_le (W : Nat) (a : BitVec N) :
    (loLane W a).natAbs ≤ 2 ^ (W - 1) ∧ (hiLane W a).natAbs ≤ 2 ^ (W - 1) :=
  ⟨natAbs_le_of_laneFits (laneFits_loLane W a), natAbs_le_of_laneFits (laneFits_hiLane W a)⟩

end

/-- Settles O15, by the lane law at both widths. -/
theorem packedAbsIsTheLaneMagnitudes : Obligations.PackedAbsIsTheLaneMagnitudes :=
  ⟨fun a => ⟨toNat_abs2 (W := 16) (by decide) rfl a, natAbs_lanes_le 16 a⟩,
    fun a => ⟨toNat_abs2 (W := 32) (by decide) rfl a, natAbs_lanes_le 32 a⟩⟩

/-! ### The commands (R126, R127) -/

theorem wregIndex_lt (r : WReg) : wregIndex r < 4 := by
  cases r <;> decide

theorem toNat_encodeFields_abs2 {d : Nat} (hd : d < 2) (rd rs : WReg) :
    (encodeFields 1 d 0 (wregIndex rd) (wregIndex rs)).toNat =
      1 + 16 * d + 64 * wregIndex rd + 256 * wregIndex rs :=
  encodeFields_toNat (by decide) hd (by decide) (wregIndex_lt rd) (wregIndex_lt rs)

/-- Settles O16: the magnitudes fill 32 bits, so the zero extension keeps their sum. -/
theorem abs2L16WritesTheLaneMagnitudes : Obligations.Abs2L16WritesTheLaneMagnitudes := by
  refine ⟨toNat_encodeFields_abs2 (d := 0) (by decide), fun rd rs s hs => ⟨_, whenIdle_of_idle hs _, ?_⟩⟩
  rw [BitVec.toNat_setWidth_of_le (by decide)]
  exact toNat_abs2 (W := 16) (by decide) rfl _

/-- Settles O17, by the lane law on the whole register. -/
theorem abs2L32WritesTheLaneMagnitudes : Obligations.Abs2L32WritesTheLaneMagnitudes :=
  ⟨toNat_encodeFields_abs2 (d := 1) (by decide),
    fun _ _ _ hs => ⟨_, whenIdle_of_idle hs _, toNat_abs2 (W := 32) (by decide) rfl _⟩⟩

end Sys2Proof.Machine
end

section
/-! PROOFS. O18, O19, O20, O21: the butterfly and its two commands (41_hadamard4.md R141 to R145). Reduction mod 2^N
commutes with addition and subtraction, so the butterfly of the words of four integers is the words of their signed
sums; each statement reads its four words as the integers it speaks of. -/

namespace Sys2Proof.Machine

/-! ### The butterfly on words of integers (R141) -/

section
variable {N : Nat}

theorem ofInt_sub (x y : Int) : BitVec.ofInt N (x - y) = BitVec.ofInt N x - BitVec.ofInt N y := by
  rw [Int.sub_eq_add_neg, BitVec.ofInt_add, BitVec.ofInt_neg, ← BitVec.sub_eq_add_neg]

theorem had4_ofInt (w x y z : Int) :
    had4 (BitVec.ofInt N w) (BitVec.ofInt N x) (BitVec.ofInt N y) (BitVec.ofInt N z) =
      ⟨BitVec.ofInt N (w + x + y + z), BitVec.ofInt N (w + x - y - z), BitVec.ofInt N (w - x + y - z),
        BitVec.ofInt N (w - x - y + z)⟩ := by
  simp only [had4, ← BitVec.ofInt_add, ← ofInt_sub]
  congr 2 <;> ring

theorem had4_eq_ofInt_toNat (w x y z : BitVec N) :
    had4 w x y z =
      ⟨BitVec.ofInt N (w.toNat + x.toNat + y.toNat + z.toNat), BitVec.ofInt N (w.toNat + x.toNat - y.toNat - z.toNat),
        BitVec.ofInt N (w.toNat - x.toNat + y.toNat - z.toNat),
        BitVec.ofInt N (w.toNat - x.toNat - y.toNat + z.toNat)⟩ := by
  simpa only [BitVec.ofInt_natCast, BitVec.ofNat_toNat, BitVec.setWidth_eq] using
    had4_ofInt (N := N) w.toNat x.toNat y.toNat z.toNat

/-- The butterfly is its own inverse up to the factor 4. -/
theorem had4_had4 (w x y z : BitVec N) :
    had4 (had4 w x y z).a (had4 w x y z).b (had4 w x y z).c (had4 w x y z).d =
      ⟨BitVec.ofNat N (4 * w.toNat), BitVec.ofNat N (4 * x.toNat), BitVec.ofNat N (4 * y.toNat),
        BitVec.ofNat N (4 * z.toNat)⟩ := by
  rw [had4_eq_ofInt_toNat w x y z, had4_ofInt]
  simp only [← BitVec.ofInt_natCast, Nat.cast_mul, Nat.cast_ofNat]
  congr 2 <;> ring

end

/-- Settles O18: each word is the word of its own value. -/
theorem butterflyIsExactModTwoToTheN : Obligations.ButterflyIsExactModTwoToTheN := by
  intro N w x y z
  refine ⟨?_, ?_, ?_, ?_, had4_had4 w x y z⟩ <;> rw [had4_eq_ofInt_toNat]

/-! ### The lane reading (R143) -/

section
variable {W N : Nat}

/-- The four outputs as the words of their lane sums, whether or not these fit. -/
theorem had4_eq_ofInt_lanes (hW : 0 < W) (hN : N = W + W) (w x y z : BitVec N) :
    had4 w x y z =
      ⟨BitVec.ofInt N (loLane W w + loLane W x + loLane W y + loLane W z +
          (hiLane W w + hiLane W x + hiLane W y + hiLane W z) * 2 ^ W),
        BitVec.ofInt N (loLane W w + loLane W x - loLane W y - loLane W z +
          (hiLane W w + hiLane W x - hiLane W y - hiLane W z) * 2 ^ W),
        BitVec.ofInt N (loLane W w - loLane W x + loLane W y - loLane W z +
          (hiLane W w - hiLane W x + hiLane W y - hiLane W z) * 2 ^ W),
        BitVec.ofInt N (loLane W w - loLane W x - loLane W y + loLane W z +
          (hiLane W w - hiLane W x - hiLane W y + hiLane W z) * 2 ^ W)⟩ := by
  have h := had4_ofInt (N := N) (loLane W w + hiLane W w * 2 ^ W) (loLane W x + hiLane W x * 2 ^ W)
    (loLane W y + hiLane W y * 2 ^ W) (loLane W z + hiLane W z * 2 ^ W)
  rw [ofInt_lanes hW hN, ofInt_lanes hW hN, ofInt_lanes hW hN, ofInt_lanes hW hN] at h
  rw [h]
  congr 2 <;> ring

/-- Only the final lane values have to fit: an intermediate lane value that does not is repaired mod 2^N by the second
stage. -/
theorem lanes_had4 (hW : 0 < W) (hN : N = W + W) {w x y z : BitVec N}
    (hfits : ∀ lane ∈ [loLane (N := N) W, hiLane W],
      laneFits W (lane w + lane x + lane y + lane z) ∧ laneFits W (lane w + lane x - lane y - lane z) ∧
      laneFits W (lane w - lane x + lane y - lane z) ∧ laneFits W (lane w - lane x - lane y + lane z)) :
    ∀ lane ∈ [loLane (N := N) W, hiLane W],
      lane (had4 w x y z).a = lane w + lane x + lane y + lane z ∧
      lane (had4 w x y z).b = lane w + lane x - lane y - lane z ∧
      lane (had4 w x y z).c = lane w - lane x + lane y - lane z ∧
      lane (had4 w x y z).d = lane w - lane x - lane y + lane z := by
  simp only [List.forall_mem_cons, List.not_mem_nil, false_implies, implies_true, and_true] at hfits ⊢
  obtain ⟨⟨hla, hlb, hlc, hld⟩, hha, hhb, hhc, hhd⟩ := hfits
  obtain ⟨hloA, hhiA⟩ := lanes_ofInt hW hN hla hha
  obtain ⟨hloB, hhiB⟩ := lanes_ofInt hW hN hlb hhb
  obtain ⟨hloC, hhiC⟩ := lanes_ofInt hW hN hlc hhc
  obtain ⟨hloD, hhiD⟩ := lanes_ofInt hW hN hld hhd
  rw [had4_eq_ofInt_lanes hW hN]
  exact ⟨⟨hloA, hloB, hloC, hloD⟩, hhiA, hhiB, hhiC, hhiD⟩

end

/-- Settles O19, from the range conditions on the four outputs alone. -/
theorem butterflyActsLaneByLane : Obligations.ButterflyActsLaneByLane :=
  ⟨fun _ _ _ _ hfits => lanes_had4 (W := 16) (by decide) rfl fun lane hlane =>
      have ⟨_, _, _, _, houtputs⟩ := hfits lane hlane
      houtputs,
    fun _ _ _ _ hfits => lanes_had4 (W := 32) (by decide) rfl fun lane hlane =>
      have ⟨_, _, _, _, houtputs⟩ := hfits lane hlane
      houtputs⟩

/-! ### The commands (R144, R145) -/

section
variable {M N : Nat}

/-- A word moved to another width is the word of its value. -/
theorem setWidth_ofInt (i : Int) : (BitVec.ofInt M i).setWidth N = BitVec.ofInt N (i % 2 ^ M) := by
  have hval : i % 2 ^ M = (BitVec.ofInt M i).toNat := by
    rw [BitVec.toNat_ofInt, Int.toNat_of_nonneg (Int.emod_nonneg i (by positivity))]
    push_cast
    rfl
  rw [hval, BitVec.ofInt_natCast, BitVec.ofNat_toNat]

/-- The low bits of a word are the word of its residue. -/
theorem setWidth_eq_ofInt_mod (v : BitVec N) : v.setWidth M = BitVec.ofInt M (v.toNat % 2 ^ M : Nat) := by
  rw [BitVec.ofInt_natCast, ← BitVec.toNat_setWidth, BitVec.ofNat_toNat, BitVec.setWidth_eq]

end

/-- Settles O20: the low halves are words of 32 bits, and the zero extension keeps their sums mod 2^32. -/
theorem had4B32WritesTheFourSums : Obligations.Had4B32WritesTheFourSums := by
  refine ⟨rfl, ?_⟩
  rintro s _ _ _ _ hs rfl rfl rfl rfl
  have hexec : exec .had4B32 s = _ := whenIdle_of_idle hs _
  rw [hexec]
  simp only [complete, setWidth_eq_ofInt_mod (M := 32), had4_ofInt, setWidth_ofInt]

/-- Settles O21: the registers are words of 64 bits. -/
theorem had4B64WritesTheFourSums : Obligations.Had4B64WritesTheFourSums := by
  refine ⟨rfl, ?_⟩
  rintro s _ _ _ _ hs rfl rfl rfl rfl
  have hexec : exec .had4B64 s = _ := whenIdle_of_idle hs _
  rw [hexec, had4_eq_ofInt_toNat]
  rfl

end Sys2Proof.Machine
end

section
/-! PROOFS. O22, O23: the matrix laws of the two estimators (42_block_energy.md R160 to R162, R170, R171). The packed
words carry two columns of the transform each: `packed W lo hi` is the word of two lane values, and addition, the
butterfly and, while the lanes fit, the packed absolute value and the fold act on the lanes. Both laws are for every
lane width that the samples leave room in. -/

namespace Sys2Proof.Machine

open Matrix

/-! ### Words of two lane values (R157, R158) -/

/-- The word of two lane values (40_packed_abs.md R123). -/
def packed {N : Nat} (W : Nat) (lo hi : Int) : BitVec N := BitVec.ofInt N (lo + hi * 2 ^ W)

section
variable {W N : Nat}

theorem pack2_eq_packed (p q : Int) : pack2 (N := N) W p q = packed W (p + q) (p - q) := rfl

theorem packed_add (a b c d : Int) : packed (N := N) W a b + packed W c d = packed W (a + c) (b + d) := by
  rw [packed, packed, packed, ← BitVec.ofInt_add]
  congr 1
  ring

theorem packed_sub (a b c d : Int) : packed (N := N) W a b - packed W c d = packed W (a - c) (b - d) := by
  rw [packed, packed, packed, ← ofInt_sub]
  congr 1
  ring

/-- The lane law (R124) for a word of two lane values. -/
theorem abs2_packed (hW : 0 < W) (hN : N = W + W) {lo hi : Int} (hlo : laneFits W lo) (hhi : laneFits W hi) :
    abs2 W (packed (N := N) W lo hi) = packed W |lo| |hi| := by
  obtain ⟨hloLane, hhiLane⟩ := lanes_ofInt hW hN hlo hhi
  calc abs2 W (packed W lo hi)
    _ = BitVec.ofNat N (abs2 W (packed W lo hi : BitVec N)).toNat := by simp
    _ = BitVec.ofNat N (lo.natAbs + hi.natAbs * 2 ^ W) := by
      rw [toNat_abs2 hW hN, packed, hloLane, hhiLane]
    _ = packed W |lo| |hi| := by
      rw [packed, ← BitVec.ofInt_natCast]
      push_cast
      rfl

theorem toNat_ofInt_of_lt {x : Int} (h0 : 0 ≤ x) (hlt : x < 2 ^ N) : ((BitVec.ofInt N x).toNat : Int) = x := by
  rw [BitVec.toNat_ofInt, Int.toNat_of_nonneg (Int.emod_nonneg _ (by positivity))]
  push_cast
  exact Int.emod_eq_of_lt h0 hlt

/-- Shifting the word of a number that fits divides the number. -/
theorem toNat_ofInt_ushiftRight {x : Int} (k : Nat) (h0 : 0 ≤ x) (hlt : x < 2 ^ N) :
    (((BitVec.ofInt N x) >>> k).toNat : Int) = x / 2 ^ k := by
  rw [BitVec.toNat_ushiftRight, Nat.shiftRight_eq_div_pow]
  push_cast
  rw [toNat_ofInt_of_lt h0 hlt]

/-- The fold of two magnitudes that fit their fields is their sum (R158). -/
theorem fold_packed (hN : N = W + W) {a b : Int} (ha : 0 ≤ a ∧ a < 2 ^ W) (hb : 0 ≤ b ∧ b < 2 ^ W) :
    fold W (packed (N := N) W a b) = BitVec.ofInt N (a + b) := by
  lift a to Nat using ha.1
  lift b to Nat using hb.1
  have ha : a < 2 ^ W := by exact_mod_cast ha.2
  have hb : b < 2 ^ W := by exact_mod_cast hb.2
  have hword : packed (N := N) W a b = BitVec.ofNat N (a + b * 2 ^ W) := by
    rw [packed, ← BitVec.ofInt_natCast]
    push_cast
    rfl
  have hlt : a + b * 2 ^ W < 2 ^ N := by
    rw [hN, pow_add]
    nlinarith
  have hsum : a + b < 2 ^ N := lt_of_le_of_lt (Nat.add_le_add_left (Nat.le_mul_of_pos_right b (by positivity)) a) hlt
  have hlow : (a + b * 2 ^ W) % 2 ^ W = a := by rw [Nat.add_mul_mod_self_right, Nat.mod_eq_of_lt ha]
  have hhigh : (a + b * 2 ^ W) / 2 ^ W = b := by
    rw [Nat.add_mul_div_right _ _ (by positivity), Nat.div_eq_of_lt ha, Nat.zero_add]
  rw [← Int.natCast_add, BitVec.ofInt_natCast, hword, fold]
  apply BitVec.eq_of_toNat_eq
  rw [BitVec.toNat_add, BitVec.toNat_setWidth, BitVec.toNat_setWidth, BitVec.toNat_ushiftRight, BitVec.toNat_ofNat,
    BitVec.toNat_ofNat, Nat.mod_eq_of_lt hlt, Nat.shiftRight_eq_div_pow, hlow, hhigh, Nat.mod_add_mod]

end

/-! ### Columns of the transform (R162, R171) -/

/-- The magnitudes of one transformed column, summed. -/
def columnEnergy {n : Nat} (H : Matrix (Fin n) (Fin n) Int) (x : Fin n → Int) : Int := ∑ u, |(H *ᵥ x) u|

theorem natCast_magnitudeSum_mul {n : Nat} (H E : Matrix (Fin n) (Fin n) Int) :
    (magnitudeSum (H * E) : Int) = ∑ v, columnEnergy H (fun i => E i v) := by
  simp only [magnitudeSum, Nat.cast_sum, Int.natCast_natAbs]
  rw [Finset.sum_comm]
  rfl

theorem natCast_magnitudeSum_mul_le {n : Nat} {H E : Matrix (Fin n) (Fin n) Int} {c : Int}
    (hcolumn : ∀ v, columnEnergy H (fun i => E i v) ≤ c) : (magnitudeSum (H * E) : Int) ≤ n * c := by
  rw [natCast_magnitudeSum_mul]
  calc ∑ v, columnEnergy H (fun i => E i v) ≤ ∑ _v : Fin n, c := Finset.sum_le_sum fun v _ => hcolumn v
    _ = n * c := by simp

theorem mul_transpose_apply {n : Nat} (D M : Matrix (Fin n) (Fin n) Int) (i v : Fin n) :
    (D * Mᵀ) i v = (M *ᵥ D i) v := by
  rw [mul_apply_eq_vecMul, vecMul_transpose]

/-- Signed sums of n numbers are at most n times as large. -/
theorem abs_mulVec_le {n : Nat} {M : Matrix (Fin n) (Fin n) Int} (hM : ∀ u i, |M u i| ≤ 1) {x : Fin n → Int}
    {b : Int} (hx : ∀ i, |x i| ≤ b) (u : Fin n) : |(M *ᵥ x) u| ≤ n * b := by
  calc |∑ i, M u i * x i| ≤ ∑ i, |M u i * x i| := Finset.abs_sum_le_sum_abs _ _
    _ ≤ ∑ _i : Fin n, b := Finset.sum_le_sum fun i _ => by
      rw [abs_mul]
      exact (mul_le_of_le_one_left (abs_nonneg _) (hM u i)).trans (hx i)
    _ = n * b := by simp

theorem abs_diffMatrix_le {n B : Nat} {S R : Tile} (hS : S.boundedBy n B) (hR : R.boundedBy n B) (i k : Fin n) :
    |diffMatrix n S R i k| ≤ B := by
  have hs := hS i i.isLt k k.isLt
  have hr := hR i i.isLt k k.isLt
  rw [diffMatrix, diff, abs_le]
  omega

theorem laneFits_of_abs_lt {W : Nat} {x : Int} (h : |x| < 2 ^ (W - 1)) : laneFits W x := by
  rw [abs_lt] at h
  exact ⟨h.1.le, Int.le_sub_one_of_lt h.2⟩

theorem columnEnergy_nonneg {n : Nat} (H : Matrix (Fin n) (Fin n) Int) (x : Fin n → Int) : 0 ≤ columnEnergy H x :=
  Finset.sum_nonneg fun _ _ => abs_nonneg _

/-- The backing word has room for the sum of several fields. -/
theorem sixteen_mul_two_pow_le {W N : Nat} (hW : 4 ≤ W) (hN : N = W + W) : 16 * (2 : Int) ^ W ≤ 2 ^ N := by
  have h16 : (2 : Int) ^ 4 ≤ 2 ^ W := pow_le_pow_right₀ (by norm_num) hW
  rw [hN, pow_add]
  exact mul_le_mul_of_nonneg_right h16 (by positivity)

/-! ### The 4x4 estimator (R160 to R162) -/

theorem H4_mulVec (x : Fin 4 → Int) :
    H4 *ᵥ x =
      ![x 0 + x 1 + (x 2 + x 3), x 0 + x 1 - (x 2 + x 3), x 0 - x 1 + (x 2 - x 3), x 0 - x 1 - (x 2 - x 3)] := by
  ext u
  fin_cases u <;> simp [H4, mulVec, dotProduct, Fin.sum_univ_four] <;> ring

theorem G4_mulVec (x : Fin 4 → Int) : G4 *ᵥ x = ![x 0 + x 1, x 0 - x 1, x 2 + x 3, x 2 - x 3] := by
  ext u
  fin_cases u <;> simp [G4, mulVec, dotProduct, Fin.sum_univ_four] <;> ring

theorem abs_H4 (u v : Fin 4) : |H4 u v| = 1 := by
  revert u v
  decide

theorem abs_H4_le (u v : Fin 4) : |H4 u v| ≤ 1 := (abs_H4 u v).le

theorem abs_G4_le (u v : Fin 4) : |G4 u v| ≤ 1 := by
  revert u v
  decide

section
variable {W N : Nat}

/-- The butterfly transforms two columns at once (41_hadamard4.md R143). -/
theorem had4_packed (x y : Fin 4 → Int) :
    had4 (packed (N := N) W (x 0) (y 0)) (packed W (x 1) (y 1)) (packed W (x 2) (y 2)) (packed W (x 3) (y 3)) =
      ⟨packed W ((H4 *ᵥ x) 0) ((H4 *ᵥ y) 0), packed W ((H4 *ᵥ x) 1) ((H4 *ᵥ y) 1),
        packed W ((H4 *ᵥ x) 2) ((H4 *ᵥ y) 2), packed W ((H4 *ᵥ x) 3) ((H4 *ᵥ y) 3)⟩ := by
  simp only [had4, packed_add, packed_sub, H4_mulVec]
  rfl

theorem columnEnergy_H4_le {x : Fin 4 → Int} {b : Int} (hx : ∀ i, |x i| ≤ b) : columnEnergy H4 x ≤ 16 * b := by
  have hu := abs_mulVec_le abs_H4_le hx
  calc columnEnergy H4 x ≤ ∑ _u : Fin 4, 4 * b := Finset.sum_le_sum fun u _ => hu u
    _ = 16 * b := by simp; ring

/-- One packed slot holds the energies of its two columns. -/
theorem satd4Slot_packed (hW : 0 < W) (hN : N = W + W) {x y : Fin 4 → Int} {b : Int} (hx : ∀ i, |x i| ≤ b)
    (hy : ∀ i, |y i| ≤ b) (hb : 16 * b < 2 ^ W) :
    satd4Slot (N := N) W (packed W (x 0) (y 0)) (packed W (x 1) (y 1)) (packed W (x 2) (y 2)) (packed W (x 3) (y 3)) =
      BitVec.ofInt N (columnEnergy H4 x + columnEnergy H4 y) := by
  have hb0 : 0 ≤ b := (abs_nonneg _).trans (hx 0)
  have hpow : (2 : Int) ^ W = 2 * 2 ^ (W - 1) := (mul_pow_sub_one hW.ne' 2).symm
  have fits {z : Fin 4 → Int} (hz : ∀ i, |z i| ≤ b) (u : Fin 4) : laneFits W ((H4 *ᵥ z) u) := by
    have hu := abs_mulVec_le abs_H4_le hz u
    exact laneFits_of_abs_lt (by omega)
  have field {z : Fin 4 → Int} (hz : ∀ i, |z i| ≤ b) : 0 ≤ columnEnergy H4 z ∧ columnEnergy H4 z < 2 ^ W :=
    ⟨columnEnergy_nonneg H4 z, (columnEnergy_H4_le hz).trans_lt hb⟩
  have sum (z : Fin 4 → Int) :
      |(H4 *ᵥ z) 0| + |(H4 *ᵥ z) 1| + (|(H4 *ᵥ z) 2| + |(H4 *ᵥ z) 3|) = columnEnergy H4 z := by
    rw [columnEnergy, Fin.sum_univ_four, add_assoc (_ + _)]
  rw [satd4Slot, had4_packed, abs2_packed hW hN (fits hx 0) (fits hy 0), abs2_packed hW hN (fits hx 1) (fits hy 1),
    abs2_packed hW hN (fits hx 2) (fits hy 2), abs2_packed hW hN (fits hx 3) (fits hy 3), packed_add, packed_add,
    packed_add, sum, sum, fold_packed hN (field hx) (field hy)]

/-- The estimator of rows that hold the row-transformed columns E, in the order `place`. -/
theorem toNat_satd4_of_rows (hW : 4 ≤ W) (hN : N = W + W) {stage2 : Bool} {S R : Tile}
    {E : Matrix (Fin 4) (Fin 4) Int} {b : Int} (hE : ∀ i v, |E i v| ≤ b) (hb : 16 * b < 2 ^ W)
    (place : Equiv.Perm (Fin 4))
    (hrow : ∀ i : Fin 4, satd4Row (N := N) W stage2 S R i =
      (packed W (E i (place 0)) (E i (place 1)), packed W (E i (place 2)) (E i (place 3)))) :
    (satd4 (N := N) W stage2 S R).toNat = magnitudeSum (H4 * E) / 2 := by
  have hslot (j k : Fin 4) := satd4Slot_packed (N := N) (by omega) hN (hE · j) (hE · k) hb
  have hsum : (magnitudeSum (H4 * E) : Int) = columnEnergy H4 (E · (place 0)) + columnEnergy H4 (E · (place 1)) +
      (columnEnergy H4 (E · (place 2)) + columnEnergy H4 (E · (place 3))) := by
    rw [natCast_magnitudeSum_mul, ← Equiv.sum_comp place, Fin.sum_univ_four, add_assoc (_ + _)]
  have hsatd4 : satd4 (N := N) W stage2 S R = BitVec.ofInt N (magnitudeSum (H4 * E)) >>> 1 := by
    rw [hsum, BitVec.ofInt_add, ← hslot, ← hslot, satd4, show satd4Row W stage2 S R 0 = _ from hrow 0,
      show satd4Row W stage2 S R 1 = _ from hrow 1, show satd4Row W stage2 S R 2 = _ from hrow 2,
      show satd4Row W stage2 S R 3 = _ from hrow 3]
  have hlt : (magnitudeSum (H4 * E) : Int) < 2 ^ N := by
    have hbound := natCast_magnitudeSum_mul_le fun v => columnEnergy_H4_le (hE · v)
    have hroom := sixteen_mul_two_pow_le hW hN
    have hpos : 0 < (2 : Int) ^ W := by positivity
    push_cast at hbound
    linarith
  zify
  rw [hsatd4, toNat_ofInt_ushiftRight 1 (Int.natCast_nonneg _) hlt]
  rfl

section
variable (S R : Tile) (i : Fin 4)

/-- The row's slots after the second row stage: outputs 0 and 2 of the transform, and outputs 1 and 3 (R160). -/
theorem satd4Row_stage2 : satd4Row (N := N) W true S R i =
    (packed W ((H4 *ᵥ diffMatrix 4 S R i) 0) ((H4 *ᵥ diffMatrix 4 S R i) 2),
      packed W ((H4 *ᵥ diffMatrix 4 S R i) 1) ((H4 *ᵥ diffMatrix 4 S R i) 3)) := by
  simp only [satd4Row, if_true, pack2_eq_packed, packed_add, packed_sub, H4_mulVec]
  rfl

/-- Without the second row stage, outputs 0 and 1, and outputs 2 and 3 (R161). -/
theorem satd4Row_stage1 : satd4Row (N := N) W false S R i =
    (packed W ((G4 *ᵥ diffMatrix 4 S R i) 0) ((G4 *ᵥ diffMatrix 4 S R i) 1),
      packed W ((G4 *ᵥ diffMatrix 4 S R i) 2) ((G4 *ᵥ diffMatrix 4 S R i) 3)) := by
  rw [G4_mulVec]
  rfl

end

theorem coefficients4_stage2 (S R : Tile) : coefficients4 true S R = H4 * diffMatrix 4 S R * H4ᵀ := by
  rw [show H4ᵀ = H4 by decide]
  rfl

/-- The matrix law of the 4x4 estimator, for every lane width that 16 coefficient magnitudes leave room in (R162). -/
theorem toNat_satd4 (hW : 4 ≤ W) (hN : N = W + W) {B : Nat} (hB : 64 * B < 2 ^ W) (stage2 : Bool) {S R : Tile}
    (hS : S.boundedBy 4 B) (hR : R.boundedBy 4 B) :
    (satd4 (N := N) W stage2 S R).toNat = magnitudeSum (coefficients4 stage2 S R) / 2 := by
  have hb : 16 * (4 * B : Int) < 2 ^ W := by
    rw [← mul_assoc]
    exact_mod_cast hB
  have bound {M : Matrix (Fin 4) (Fin 4) Int} (hM : ∀ u v, |M u v| ≤ 1) (i v : Fin 4) :
      |(diffMatrix 4 S R * Mᵀ) i v| ≤ 4 * B := by
    rw [mul_transpose_apply]
    exact abs_mulVec_le hM (abs_diffMatrix_le hS hR i) v
  cases stage2 with
  | false =>
    have hcoeff : coefficients4 false S R = H4 * (diffMatrix 4 S R * G4ᵀ) := Matrix.mul_assoc _ _ _
    rw [hcoeff]
    refine toNat_satd4_of_rows hW hN (bound abs_G4_le) hb (Equiv.refl _) fun i => ?_
    simp only [Equiv.refl_apply, mul_transpose_apply]
    exact satd4Row_stage1 S R i
  | true =>
    rw [coefficients4_stage2, Matrix.mul_assoc]
    refine toNat_satd4_of_rows hW hN (bound abs_H4_le) hb (Equiv.swap 1 2) fun i => ?_
    simp only [mul_transpose_apply]
    exact satd4Row_stage2 S R i

end

/-- Settles O22: 64 * 255 and 64 * 65535 lie below 2^16 and 2^32. -/
theorem satd4IsTheTransformEnergy : Obligations.Satd4IsTheTransformEnergy :=
  ⟨fun stage2 _ _ hS hR => toNat_satd4 (W := 16) (by decide) rfl (by decide) stage2 hS hR,
    fun stage2 _ _ hS hR => toNat_satd4 (W := 32) (by decide) rfl (by decide) stage2 hS hR⟩

/-! ### The 8x8 estimator (R170, R171) -/

/-- The transform of eight numbers by that of their halves: rows 0, 2, 1 and 3 of `H4` give rows 0 to 3 by their sums
and rows 4 to 7 by their differences. -/
theorem H8_mulVec (x : Fin 8 → Int) :
    H8 *ᵥ x =
      let lo := H4 *ᵥ ![x 0, x 1, x 2, x 3]
      let hi := H4 *ᵥ ![x 4, x 5, x 6, x 7]
      ![lo 0 + hi 0, lo 2 + hi 2, lo 1 + hi 1, lo 3 + hi 3, lo 0 - hi 0, lo 2 - hi 2, lo 1 - hi 1, lo 3 - hi 3] := by
  have hH8 : H8 = !![1, 1, 1, 1, 1, 1, 1, 1; 1, -1, 1, -1, 1, -1, 1, -1; 1, 1, -1, -1, 1, 1, -1, -1;
      1, -1, -1, 1, 1, -1, -1, 1; 1, 1, 1, 1, -1, -1, -1, -1; 1, -1, 1, -1, -1, 1, -1, 1;
      1, 1, -1, -1, -1, -1, 1, 1; 1, -1, -1, 1, -1, 1, 1, -1] := by decide
  simp only [H4_mulVec]
  ext u
  fin_cases u <;> simp [hH8, mulVec, dotProduct, Fin.sum_univ_eight] <;> ring

theorem abs_H8 (u v : Fin 8) : |H8 u v| = 1 := by
  revert u v
  decide

theorem abs_H8_le (u v : Fin 8) : |H8 u v| ≤ 1 := (abs_H8 u v).le

section
variable {W N : Nat}

/-- The row butterfly transforms the row of differences, two outputs a slot (R170). -/
theorem sa8dRow_eq_packed (S R : Tile) (i : Fin 8) : sa8dRow (N := N) W S R i =
    ⟨packed W ((H8 *ᵥ diffMatrix 8 S R i) 0) ((H8 *ᵥ diffMatrix 8 S R i) 1),
      packed W ((H8 *ᵥ diffMatrix 8 S R i) 4) ((H8 *ᵥ diffMatrix 8 S R i) 5),
      packed W ((H8 *ᵥ diffMatrix 8 S R i) 2) ((H8 *ᵥ diffMatrix 8 S R i) 3),
      packed W ((H8 *ᵥ diffMatrix 8 S R i) 6) ((H8 *ᵥ diffMatrix 8 S R i) 7)⟩ := by
  simp only [sa8dRow, had4, pack2_eq_packed, packed_add, packed_sub, H8_mulVec, H4_mulVec]
  rfl

/-- The cross stage of a matching pair: each lane holds the magnitudes of a sum and of a difference (R170). -/
theorem sa8dCross_packed (hW : 0 < W) (hN : N = W + W) {p q p' q' c : Int} (hp : |p| ≤ c) (hq : |q| ≤ c)
    (hp' : |p'| ≤ c) (hq' : |q'| ≤ c) (hc : 4 * c < 2 ^ W) :
    sa8dCross W (packed (N := N) W p p') (packed W q q') =
      packed W (|p + q| + |p - q|) (|p' + q'| + |p' - q'|) := by
  have hpow : (2 : Int) ^ W = 2 * 2 ^ (W - 1) := (mul_pow_sub_one hW.ne' 2).symm
  have fitsAdd {u v : Int} (hu : |u| ≤ c) (hv : |v| ≤ c) : laneFits W (u + v) :=
    laneFits_of_abs_lt (by have := abs_add_le u v; omega)
  have fitsSub {u v : Int} (hu : |u| ≤ c) (hv : |v| ≤ c) : laneFits W (u - v) :=
    laneFits_of_abs_lt (by have := abs_sub u v; omega)
  rw [sa8dCross, packed_add, packed_sub, abs2_packed hW hN (fitsAdd hp hq) (fitsAdd hp' hq'),
    abs2_packed hW hN (fitsSub hp hq) (fitsSub hp' hq'), packed_add]

end

/-- A sum and a difference together are at most twice the larger number: what keeps eight magnitudes in one field. -/
theorem abs_add_add_abs_sub_le {p q c : Int} (hp : |p| ≤ c) (hq : |q| ≤ c) : |p + q| + |p - q| ≤ 2 * c := by
  rw [abs_le] at hp hq
  rcases abs_cases (p + q) with h | h <;> rcases abs_cases (p - q) with h' | h' <;> omega

/-- The energy of a column of 8 by its cross stages. -/
theorem columnEnergy_H8 (x : Fin 8 → Int) :
    columnEnergy H8 x =
      let lo := H4 *ᵥ ![x 0, x 1, x 2, x 3]
      let hi := H4 *ᵥ ![x 4, x 5, x 6, x 7]
      |lo 0 + hi 0| + |lo 0 - hi 0| + (|lo 1 + hi 1| + |lo 1 - hi 1|) + (|lo 2 + hi 2| + |lo 2 - hi 2|) +
        (|lo 3 + hi 3| + |lo 3 - hi 3|) := by
  rw [columnEnergy, H8_mulVec, Fin.sum_univ_eight]
  simp
  ring

section
variable {x : Fin 8 → Int} {b : Int} (hx : ∀ i, |x i| ≤ b)
include hx

theorem abs_H4_halves_le (u : Fin 4) :
    |(H4 *ᵥ ![x 0, x 1, x 2, x 3]) u| ≤ 4 * b ∧ |(H4 *ᵥ ![x 4, x 5, x 6, x 7]) u| ≤ 4 * b :=
  ⟨abs_mulVec_le abs_H4_le (by simp [Fin.forall_fin_succ, hx]) u,
    abs_mulVec_le abs_H4_le (by simp [Fin.forall_fin_succ, hx]) u⟩

theorem columnEnergy_H8_le : columnEnergy H8 x ≤ 32 * b := by
  have pair (u : Fin 4) := abs_add_add_abs_sub_le (abs_H4_halves_le hx u).1 (abs_H4_halves_le hx u).2
  have h0 := pair 0
  have h1 := pair 1
  have h2 := pair 2
  have h3 := pair 3
  rw [columnEnergy_H8]
  dsimp only
  omega

end

section
variable {W N : Nat}

/-- One slot-column holds the energies of its two columns. -/
theorem sa8dSlot_packed (hW : 0 < W) (hN : N = W + W) {x y : Fin 8 → Int} {b : Int} (hx : ∀ i, |x i| ≤ b)
    (hy : ∀ i, |y i| ≤ b) (hb : 32 * b < 2 ^ W) :
    sa8dSlot (N := N) W (packed W (x 0) (y 0)) (packed W (x 1) (y 1)) (packed W (x 2) (y 2)) (packed W (x 3) (y 3))
        (packed W (x 4) (y 4)) (packed W (x 5) (y 5)) (packed W (x 6) (y 6)) (packed W (x 7) (y 7)) =
      BitVec.ofInt N (columnEnergy H8 x + columnEnergy H8 y) := by
  have hb0 : 0 ≤ b := (abs_nonneg _).trans (hx 0)
  have hlo := had4_packed (N := N) (W := W) ![x 0, x 1, x 2, x 3] ![y 0, y 1, y 2, y 3]
  have hhi := had4_packed (N := N) (W := W) ![x 4, x 5, x 6, x 7] ![y 4, y 5, y 6, y 7]
  have cross (u : Fin 4) := sa8dCross_packed hW hN (abs_H4_halves_le hx u).1 (abs_H4_halves_le hx u).2
    (abs_H4_halves_le hy u).1 (abs_H4_halves_le hy u).2 (by omega)
  have field {z : Fin 8 → Int} (hz : ∀ i, |z i| ≤ b) : 0 ≤ columnEnergy H8 z ∧ columnEnergy H8 z < 2 ^ W :=
    ⟨columnEnergy_nonneg H8 z, (columnEnergy_H8_le hz).trans_lt hb⟩
  simp only [cons_val] at hlo hhi
  rw [← fold_packed hN (field hx) (field hy), sa8dSlot, hlo, hhi]
  simp only [cross, packed_add, columnEnergy_H8]

/-- The estimator adds the energies of all columns and rounds (R170); E holds the row-transformed differences. -/
theorem sa8d_eq_ofInt (hW : 0 < W) (hN : N = W + W) {S R : Tile} {E : Matrix (Fin 8) (Fin 8) Int}
    (hE : E = diffMatrix 8 S R * H8ᵀ) {b : Int} (hbound : ∀ i v, |E i v| ≤ b) (hb : 32 * b < 2 ^ W) :
    sa8d (N := N) W S R = BitVec.ofInt N (magnitudeSum (H8 * E) + 2) >>> 2 := by
  have hrow (i : Fin 8) := sa8dRow_eq_packed (N := N) (W := W) S R i
  simp only [← mul_transpose_apply, ← hE] at hrow
  have hslot (j k : Fin 8) := sa8dSlot_packed (N := N) hW hN (hbound · j) (hbound · k) hb
  have hsum : (magnitudeSum (H8 * E) : Int) = columnEnergy H8 (E · 0) + columnEnergy H8 (E · 1) +
      (columnEnergy H8 (E · 4) + columnEnergy H8 (E · 5)) + (columnEnergy H8 (E · 2) + columnEnergy H8 (E · 3)) +
      (columnEnergy H8 (E · 6) + columnEnergy H8 (E · 7)) := by
    rw [natCast_magnitudeSum_mul, Fin.sum_univ_eight]
    ring
  rw [hsum]
  simp only [BitVec.ofInt_add _ 2, BitVec.ofInt_add (_ + _) (_ + _), ← hslot]
  rw [sa8d, show sa8dRow W S R 0 = _ from hrow 0, show sa8dRow W S R 1 = _ from hrow 1,
    show sa8dRow W S R 2 = _ from hrow 2, show sa8dRow W S R 3 = _ from hrow 3,
    show sa8dRow W S R 4 = _ from hrow 4, show sa8dRow W S R 5 = _ from hrow 5,
    show sa8dRow W S R 6 = _ from hrow 6, show sa8dRow W S R 7 = _ from hrow 7]
  rfl

/-- The matrix law of the 8x8 estimator, for every lane width that the eight magnitudes of a column leave room in
(R171). -/
theorem toNat_sa8d (hW : 4 ≤ W) (hN : N = W + W) {B : Nat} (hB : 256 * B < 2 ^ W) {S R : Tile}
    (hS : S.boundedBy 8 B) (hR : R.boundedBy 8 B) :
    (sa8d (N := N) W S R).toNat = (magnitudeSum (coefficients8 S R) + 2) / 4 := by
  have hrows (i v : Fin 8) : |(diffMatrix 8 S R * H8ᵀ) i v| ≤ 8 * B := by
    rw [mul_transpose_apply]
    exact abs_mulVec_le abs_H8_le (abs_diffMatrix_le hS hR i) v
  have hb : 32 * (8 * B : Int) < 2 ^ W := by
    rw [← mul_assoc]
    exact_mod_cast hB
  have hsa8d := sa8d_eq_ofInt (N := N) (by omega) hN rfl hrows hb
  have hbound := natCast_magnitudeSum_mul_le fun v => columnEnergy_H8_le (hrows · v)
  rw [← Matrix.mul_assoc, ← coefficients8] at hsa8d hbound
  generalize magnitudeSum (coefficients8 S R) = total at hsa8d hbound ⊢
  have hlt : (total : Int) + 2 < 2 ^ N := by
    have hroom := sixteen_mul_two_pow_le hW hN
    have hpos : 1 ≤ (2 : Int) ^ W := one_le_pow₀ (by norm_num)
    push_cast at hbound
    linarith
  zify
  rw [hsa8d, toNat_ofInt_ushiftRight 2 (by positivity) hlt]
  rfl

end

/-- Settles O23: 256 * 255 and 256 * 65535 lie below 2^16 and 2^32. -/
theorem sa8dIsTheTransformEnergy : Obligations.Sa8dIsTheTransformEnergy :=
  ⟨fun _ _ hS hR => toNat_sa8d (W := 16) (by decide) rfl (by decide) hS hR,
    fun _ _ hS hR => toNat_sa8d (W := 32) (by decide) rfl (by decide) hS hR⟩

end Sys2Proof.Machine
end

section
/-! PROOFS. O24, O25, O26: the consequences of the matrix laws (42_block_energy.md R163, R172, R173). `H4` and `H8` are
Hadamard matrices, so the transform multiplies the sum of squares by n^2, and the Cauchy-Schwarz inequality bounds the
sum of the magnitudes; the coefficient at row and column 0 is the sum of the samples. -/

namespace Sys2Proof.Machine

open Matrix

/-! ### The transform by a Hadamard matrix -/

section
variable {n : Nat}

theorem magnitudeSum_neg (C : Matrix (Fin n) (Fin n) Int) : magnitudeSum (-C) = magnitudeSum C := by
  simp [magnitudeSum]

theorem diffMatrix_swap (S R : Tile) : diffMatrix n R S = -diffMatrix n S R := by
  ext i k
  simp [diffMatrix, diff]

theorem magnitudeSum_swap (H : Matrix (Fin n) (Fin n) Int) (S R : Tile) :
    magnitudeSum (H * diffMatrix n R S * Hᵀ) = magnitudeSum (H * diffMatrix n S R * Hᵀ) := by
  rw [diffMatrix_swap S R, Matrix.mul_neg, Matrix.neg_mul, magnitudeSum_neg]

theorem natCast_magnitudeSum (C : Matrix (Fin n) (Fin n) Int) :
    (magnitudeSum C : Int) = ∑ p : Fin n × Fin n, |C p.1 p.2| := by
  simp only [magnitudeSum, Nat.cast_sum, Int.natCast_natAbs, Fintype.sum_prod_type]

theorem sum_sq_eq_trace (C : Matrix (Fin n) (Fin n) Int) :
    ∑ p : Fin n × Fin n, C p.1 p.2 ^ 2 = trace (C * Cᵀ) := by
  simp only [trace, diag_apply, mul_apply, transpose_apply, sq, Fintype.sum_prod_type]

theorem isHadamard_of_abs_eq_one {H : Matrix (Fin n) (Fin n) Int} (habs : ∀ u v, |H u v| = 1)
    (hrows : H * Hᵀ = (n : Int) • (1 : Matrix (Fin n) (Fin n) Int))
    (hcols : Hᵀ * H = (n : Int) • (1 : Matrix (Fin n) (Fin n) Int)) : H.IsHadamard where
  apply_mem u v := Unitary.mem_iff_eq_one_or_eq_neg_one.2 ((abs_eq zero_le_one).1 (habs u v))
  mul_conjTranspose := by simpa [conjTranspose_eq_transpose_of_trivial] using hrows
  conjTranspose_mul := by simpa [conjTranspose_eq_transpose_of_trivial] using hcols

section
variable {H : Matrix (Fin n) (Fin n) Int} (hH : H.IsHadamard)
include hH

theorem transpose_mul_of_isHadamard : Hᵀ * H = (n : Int) • (1 : Matrix (Fin n) (Fin n) Int) := by
  simpa [conjTranspose_eq_transpose_of_trivial] using hH.conjTranspose_mul

/-- The transform multiplies the sum of squares by n^2. -/
theorem sum_sq_transform (D : Matrix (Fin n) (Fin n) Int) :
    ∑ p : Fin n × Fin n, (H * D * Hᵀ) p.1 p.2 ^ 2 = (n : Int) ^ 2 * ∑ p : Fin n × Fin n, D p.1 p.2 ^ 2 := by
  have hmul := transpose_mul_of_isHadamard hH
  have hsquare : H * D * Hᵀ * (H * D * Hᵀ)ᵀ = (n : Int) • (H * (D * Dᵀ) * Hᵀ) := by
    calc H * D * Hᵀ * (H * D * Hᵀ)ᵀ = H * D * (Hᵀ * H) * Dᵀ * Hᵀ := by
          simp only [transpose_mul, transpose_transpose, Matrix.mul_assoc]
      _ = (n : Int) • (H * (D * Dᵀ) * Hᵀ) := by
          simp only [hmul, Matrix.mul_smul, Matrix.smul_mul, Matrix.mul_one, Matrix.mul_assoc]
  rw [sum_sq_eq_trace, sum_sq_eq_trace, hsquare, trace_smul, trace_mul_comm, ← Matrix.mul_assoc, hmul,
    Matrix.smul_mul, Matrix.one_mul, trace_smul, smul_eq_mul, smul_eq_mul]
  ring

/-- The magnitudes of the n^2 coefficients sum to n^3 times the largest entry at most. -/
theorem magnitudeSum_transform_le {D : Matrix (Fin n) (Fin n) Int} {B : Nat} (hD : ∀ i k, |D i k| ≤ B) :
    magnitudeSum (H * D * Hᵀ) ≤ n ^ 3 * B := by
  have hentries : ∑ p : Fin n × Fin n, D p.1 p.2 ^ 2 ≤ (n : Int) ^ 2 * B ^ 2 := by
    calc ∑ p : Fin n × Fin n, D p.1 p.2 ^ 2 ≤ ∑ _p : Fin n × Fin n, (B : Int) ^ 2 :=
          Finset.sum_le_sum fun p _ => sq_le_sq.2 (by simpa using hD p.1 p.2)
      _ = (n : Int) ^ 2 * B ^ 2 := by simp [sq]
  have hsq : (magnitudeSum (H * D * Hᵀ) : Int) ^ 2 ≤ ((n : Int) ^ 3 * B) ^ 2 := by
    calc (magnitudeSum (H * D * Hᵀ) : Int) ^ 2
      _ = (∑ p : Fin n × Fin n, |(H * D * Hᵀ) p.1 p.2|) ^ 2 := by rw [natCast_magnitudeSum]
      _ ≤ (n : Int) ^ 2 * ∑ p : Fin n × Fin n, (H * D * Hᵀ) p.1 p.2 ^ 2 := by
        have h := sq_sum_le_card_mul_sum_sq (s := Finset.univ) (f := fun p : Fin n × Fin n => |(H * D * Hᵀ) p.1 p.2|)
        simpa [sq] using h
      _ = (n : Int) ^ 2 * ((n : Int) ^ 2 * ∑ p : Fin n × Fin n, D p.1 p.2 ^ 2) := by rw [sum_sq_transform hH]
      _ ≤ (n : Int) ^ 2 * ((n : Int) ^ 2 * ((n : Int) ^ 2 * B ^ 2)) := by gcongr
      _ = ((n : Int) ^ 3 * B) ^ 2 := by ring
  exact_mod_cast abs_le_of_sq_le_sq hsq (by positivity)

end

theorem abs_le_magnitudeSum (C : Matrix (Fin n) (Fin n) Int) (u v : Fin n) : |C u v| ≤ magnitudeSum C := by
  rw [natCast_magnitudeSum]
  exact Finset.single_le_sum (f := fun p : Fin n × Fin n => |C p.1 p.2|) (fun _ _ => abs_nonneg _)
    (Finset.mem_univ (u, v))

/-- A transform with a row of ones has the sum of the samples among its coefficients. -/
theorem sum_tileSamples_le_magnitudeSum {H : Matrix (Fin n) (Fin n) Int} {u : Fin n} (hu : ∀ v, H u v = 1)
    (S : Tile) : (tileSamples S n).sum ≤ magnitudeSum (H * diffMatrix n S zeroTile * Hᵀ) := by
  have hsum : ((tileSamples S n).sum : Int) = (H * diffMatrix n S zeroTile * Hᵀ) u u := by
    rw [sum_tileSamples]
    simp only [mul_apply, transpose_apply, hu, diffMatrix, diff, zeroTile, Finset.sum_range]
    push_cast
    simpa using Finset.sum_comm
  rw [← Int.ofNat_le, hsum]
  exact (le_abs_self _).trans (abs_le_magnitudeSum _ u u)

/-! ### Tiles that are one value on a pattern (R163 items 4 and 5, R172, R173) -/

/-- The tile that holds `v` at the samples of the pattern and 0 elsewhere. -/
def patternTile (P : Nat → Nat → Bool) (v : Nat) : Tile := fun r c => if P r c then v else 0

/-- The pattern as a matrix of zeros and ones. -/
def patternMatrix (n : Nat) (P : Nat → Nat → Bool) : Matrix (Fin n) (Fin n) Int := fun i k => if P i k then 1 else 0

theorem patternTile_boundedBy (P : Nat → Nat → Bool) (v n : Nat) : (patternTile P v).boundedBy n v := by
  intro r _ c _
  unfold patternTile
  split <;> simp

theorem diffMatrix_patternTile (P : Nat → Nat → Bool) (v : Nat) :
    diffMatrix n (patternTile P v) zeroTile = (v : Int) • patternMatrix n P := by
  ext i k
  simp [diffMatrix, diff, patternTile, patternMatrix, zeroTile]

theorem magnitudeSum_patternTile (H : Matrix (Fin n) (Fin n) Int) (P : Nat → Nat → Bool) (v : Nat) :
    magnitudeSum (H * diffMatrix n (patternTile P v) zeroTile * Hᵀ) =
      v * magnitudeSum (H * patternMatrix n P * Hᵀ) := by
  rw [diffMatrix_patternTile, Matrix.mul_smul, Matrix.smul_mul]
  simp [magnitudeSum, Int.natAbs_mul, Finset.mul_sum]

/-- The transform of a pattern that is a product of a column and a row. -/
theorem magnitudeSum_vecMulVec (H : Matrix (Fin n) (Fin n) Int) (x y : Fin n → Int) :
    (magnitudeSum (H * vecMulVec x y * Hᵀ) : Int) = columnEnergy H x * columnEnergy H y := by
  rw [mul_vecMulVec, vecMulVec_mul, vecMul_transpose, natCast_magnitudeSum, columnEnergy, columnEnergy,
    Finset.sum_mul_sum, Fintype.sum_prod_type]
  simp [vecMulVec_apply, abs_mul]

/-- The pattern of a flat tile. -/
def flatPattern (_ _ : Nat) : Bool := true

/-- The pattern of one sample. -/
def singlePattern (r0 c0 r c : Nat) : Bool := decide (r = r0 ∧ c = c0)

/-- The samples whose row and column numbers sum to an even number (p = 0) or an odd one (p = 1). -/
def boardPattern (p r c : Nat) : Bool := decide ((r + c) % 2 = p)

theorem patternMatrix_flat : patternMatrix n flatPattern = vecMulVec 1 1 := by
  ext i k
  simp [patternMatrix, flatPattern, vecMulVec_apply]

theorem patternMatrix_single (r0 c0 : Fin n) :
    patternMatrix n (singlePattern r0 c0) = vecMulVec (Pi.single r0 1) (Pi.single c0 1) := by
  ext i k
  simp [patternMatrix, singlePattern, vecMulVec_apply, Pi.single_apply, Fin.ext_iff, ← ite_and, and_comm]

/-- The transform of one sample has it, up to sign, in every coefficient. -/
theorem columnEnergy_single {H : Matrix (Fin n) (Fin n) Int} (hH : ∀ u v, |H u v| = 1) (k : Fin n) :
    columnEnergy H (Pi.single k 1) = n := by
  simp [columnEnergy, hH]

/-- One sample has n^2 coefficients of its magnitude. -/
theorem magnitudeSum_single {H : Matrix (Fin n) (Fin n) Int} (hH : ∀ u v, |H u v| = 1) {r0 c0 : Nat} (hr : r0 < n)
    (hc : c0 < n) : magnitudeSum (H * patternMatrix n (singlePattern r0 c0) * Hᵀ) = n * n := by
  have hsingle := patternMatrix_single ⟨r0, hr⟩ ⟨c0, hc⟩
  zify
  rw [hsingle, magnitudeSum_vecMulVec, columnEnergy_single hH, columnEnergy_single hH]

/-- A flat tile whose columns keep one coefficient keeps one, n^2 times its value. -/
theorem magnitudeSum_flat {H : Matrix (Fin n) (Fin n) Int} (hH : columnEnergy H 1 = n) :
    magnitudeSum (H * patternMatrix n flatPattern * Hᵀ) = n * n := by
  zify
  rw [patternMatrix_flat, magnitudeSum_vecMulVec, hH]

theorem flat_eq_patternTile (v : Nat) : (fun _ _ => v) = patternTile flatPattern v := rfl

theorem single_eq_patternTile (r0 c0 v : Nat) :
    (fun r c => if r = r0 ∧ c = c0 then v else 0) = patternTile (singlePattern r0 c0) v := by
  funext r c
  simp only [patternTile, singlePattern, decide_eq_true_eq]

theorem board_eq_patternTile (p v : Nat) :
    (fun r c => if (r + c) % 2 = p then v else 0) = patternTile (boardPattern p) v := by
  funext r c
  simp only [patternTile, boardPattern, decide_eq_true_eq]

theorem zeroTile_boundedBy (n B : Nat) : zeroTile.boundedBy n B := fun _ _ _ _ => Nat.zero_le B

end

/-! ### The 4x4 estimator (R163) -/

theorem isHadamard_H4 : H4.IsHadamard := isHadamard_of_abs_eq_one abs_H4 (by decide) (by decide)

theorem magnitudeSum_board4 : magnitudeSum (H4 * patternMatrix 4 (boardPattern 1) * H4ᵀ) = 16 := by decide

theorem satd4_self {N : Nat} (W : Nat) (stage2 : Bool) (S : Tile) :
    satd4 (N := N) W stage2 S S = satd4 W stage2 zeroTile zeroTile :=
  satd4_congr W stage2 fun r _ c _ => by simp [diff]

section
variable {W N B : Nat} (hW : 4 ≤ W) (hN : N = W + W) (hB : 64 * B < 2 ^ W)
include hW hN hB

section
variable {S R : Tile} (hS : S.boundedBy 4 B) (hR : R.boundedBy 4 B)
include hS hR

theorem toNat_satd4_stage2 :
    (satd4 (N := N) W true S R).toNat = magnitudeSum (H4 * diffMatrix 4 S R * H4ᵀ) / 2 := by
  rw [toNat_satd4 hW hN hB true hS hR, coefficients4_stage2]

theorem satd4_swap : satd4 (N := N) W true S R = satd4 W true R S := by
  apply BitVec.eq_of_toNat_eq
  rw [toNat_satd4_stage2 hW hN hB hS hR, toNat_satd4_stage2 hW hN hB hR hS, magnitudeSum_swap]

theorem toNat_satd4_le : (satd4 (N := N) W true S R).toNat ≤ 32 * B := by
  have hsum := magnitudeSum_transform_le isHadamard_H4 (abs_diffMatrix_le hS hR)
  rw [toNat_satd4_stage2 hW hN hB hS hR]
  omega

end

theorem half_sum_le_toNat_satd4 {S : Tile} (hS : S.boundedBy 4 B) :
    (tileSamples S 4).sum / 2 ≤ (satd4 (N := N) W true S zeroTile).toNat := by
  rw [toNat_satd4_stage2 hW hN hB hS (zeroTile_boundedBy 4 B)]
  exact Nat.div_le_div_right (sum_tileSamples_le_magnitudeSum (u := 0) (by decide) S)

theorem toNat_satd4_patternTile {P : Nat → Nat → Bool}
    (hP : magnitudeSum (H4 * patternMatrix 4 P * H4ᵀ) = 16) :
    (satd4 (N := N) W true (patternTile P B) zeroTile).toNat = 8 * B := by
  rw [toNat_satd4_stage2 hW hN hB (patternTile_boundedBy P B 4) (zeroTile_boundedBy 4 B), magnitudeSum_patternTile, hP]
  omega

end

/-- Settles O24, item by item from the matrix law. -/
theorem satd4Consequences : Obligations.Satd4Consequences := by
  refine ⟨fun S => ⟨?_, ?_⟩, fun S R hS hR => ⟨?_, ?_, ?_, ?_⟩, fun S R hS hR => ⟨?_, ?_, ?_⟩, ?_⟩
  · rw [satd4_self]
    decide
  · rw [satd4_self]
    decide
  · exact satd4_swap (W := 16) (by decide) rfl (by decide) hS hR
  · rw [toNat_satd4_stage2 (W := 16) (by decide) rfl (by decide) hS hR,
      toNat_satd4_stage2 (W := 32) (by decide) rfl (by decide) hS hR]
  · exact toNat_satd4_le (W := 16) (by decide) rfl (by decide) hS hR
  · exact half_sum_le_toNat_satd4 (W := 16) (by decide) rfl (by decide) hS
  · exact satd4_swap (W := 32) (by decide) rfl (by decide) hS hR
  · exact toNat_satd4_le (W := 32) (by decide) rfl (by decide) hS hR
  · exact half_sum_le_toNat_satd4 (W := 32) (by decide) rfl (by decide) hS
  · intro v hv r0 hr c0 hc
    have energy {T : Tile} {P : Nat → Nat → Bool} (hT : T = patternTile P v)
        (hP : magnitudeSum (H4 * patternMatrix 4 P * H4ᵀ) = 16) :
        (satd4 (N := 64) 32 true T zeroTile).toNat = 8 * v ∧
          (v ≤ 255 → (satd4 (N := 32) 16 true T zeroTile).toNat = 8 * v) := by
      subst hT
      exact ⟨toNat_satd4_patternTile (by decide) rfl (by omega) hP,
        fun hv => toNat_satd4_patternTile (by decide) rfl (by omega) hP⟩
    simp only [List.forall_mem_cons, List.not_mem_nil, false_implies, implies_true, and_true]
    exact ⟨energy (flat_eq_patternTile v) (magnitudeSum_flat (by decide)),
      energy (single_eq_patternTile r0 c0 v) (magnitudeSum_single abs_H4 hr hc),
      energy (board_eq_patternTile 1 v) magnitudeSum_board4⟩

/-! ### The 8x8 estimator (R172, R173) -/

theorem isHadamard_H8 : H8.IsHadamard := isHadamard_of_abs_eq_one abs_H8 (by decide) (by decide)

theorem magnitudeSum_board8 {p : Nat} (hp : p < 2) :
    magnitudeSum (H8 * patternMatrix 8 (boardPattern p) * H8ᵀ) = 64 := by
  interval_cases p <;> decide

theorem sa8d_self {N : Nat} (W : Nat) (S : Tile) : sa8d (N := N) W S S = sa8d W zeroTile zeroTile :=
  sa8d_congr W fun r _ c _ => by simp [diff]

section
variable {W N B : Nat} (hW : 4 ≤ W) (hN : N = W + W) (hB : 256 * B < 2 ^ W)
include hW hN hB

section
variable {S R : Tile} (hS : S.boundedBy 8 B) (hR : R.boundedBy 8 B)
include hS hR

theorem sa8d_swap : sa8d (N := N) W S R = sa8d W R S := by
  apply BitVec.eq_of_toNat_eq
  rw [toNat_sa8d hW hN hB hS hR, toNat_sa8d hW hN hB hR hS, coefficients8, coefficients8, magnitudeSum_swap]

theorem toNat_sa8d_le : (sa8d (N := N) W S R).toNat ≤ 128 * B := by
  have hsum := magnitudeSum_transform_le isHadamard_H8 (abs_diffMatrix_le hS hR)
  rw [toNat_sa8d hW hN hB hS hR, coefficients8]
  omega

end

theorem quarter_sum_le_toNat_sa8d {S : Tile} (hS : S.boundedBy 8 B) :
    ((tileSamples S 8).sum + 2) / 4 ≤ (sa8d (N := N) W S zeroTile).toNat := by
  rw [toNat_sa8d hW hN hB hS (zeroTile_boundedBy 8 B)]
  exact Nat.div_le_div_right (Nat.add_le_add_right (sum_tileSamples_le_magnitudeSum (u := 0) (by decide) S) 2)

theorem toNat_sa8d_patternTile {P : Nat → Nat → Bool}
    (hP : magnitudeSum (H8 * patternMatrix 8 P * H8ᵀ) = 64) :
    (sa8d (N := N) W (patternTile P B) zeroTile).toNat = 16 * B := by
  rw [toNat_sa8d hW hN hB (patternTile_boundedBy P B 8) (zeroTile_boundedBy 8 B), coefficients8,
    magnitudeSum_patternTile, hP]
  omega

end

/-- Settles O25, item by item from the matrix law. -/
theorem sa8dConsequences : Obligations.Sa8dConsequences := by
  refine ⟨fun S => ⟨?_, ?_⟩, fun S R hS hR => ⟨?_, ?_, ?_, ?_⟩, fun S R hS hR => ⟨?_, ?_, ?_⟩, ?_⟩
  · rw [sa8d_self]
    decide
  · rw [sa8d_self]
    decide
  · exact sa8d_swap (W := 16) (by decide) rfl (by decide) hS hR
  · rw [toNat_sa8d (W := 16) (by decide) rfl (by decide) hS hR,
      toNat_sa8d (W := 32) (by decide) rfl (by decide) hS hR]
  · exact toNat_sa8d_le (W := 16) (by decide) rfl (by decide) hS hR
  · exact quarter_sum_le_toNat_sa8d (W := 16) (by decide) rfl (by decide) hS
  · exact sa8d_swap (W := 32) (by decide) rfl (by decide) hS hR
  · exact toNat_sa8d_le (W := 32) (by decide) rfl (by decide) hS hR
  · exact quarter_sum_le_toNat_sa8d (W := 32) (by decide) rfl (by decide) hS
  · intro v hv r0 hr c0 hc
    have energy {T : Tile} {P : Nat → Nat → Bool} (hT : T = patternTile P v)
        (hP : magnitudeSum (H8 * patternMatrix 8 P * H8ᵀ) = 64) :
        (sa8d (N := 64) 32 T zeroTile).toNat = 16 * v ∧
          (v ≤ 255 → (sa8d (N := 32) 16 T zeroTile).toNat = 16 * v) := by
      subst hT
      exact ⟨toNat_sa8d_patternTile (by decide) rfl (by omega) hP,
        fun hv => toNat_sa8d_patternTile (by decide) rfl (by omega) hP⟩
    simp only [List.forall_mem_cons, List.not_mem_nil, false_implies, implies_true, and_true]
    exact ⟨energy (flat_eq_patternTile v) (magnitudeSum_flat (by decide)),
      energy (single_eq_patternTile r0 c0 v) (magnitudeSum_single abs_H8 hr hc)⟩

/-! ### Checkerboards after the DC correction (R173, 43_aggregator.md R196) -/

/-- Half of the samples of a checkerboard hold its value. -/
theorem sum_tileSamples_board {p : Nat} (hp : p < 2) (v : Nat) :
    (tileSamples (patternTile (boardPattern p) v) 8).sum = 32 * v := by
  rw [sum_tileSamples]
  interval_cases p <;> simp [patternTile, boardPattern, Finset.sum_range_succ] <;> ring

/-- The DC correction takes a quarter of the sum, half of the estimate. -/
theorem energy_board {p v : Nat} (hp : p < 2) (hv : v ≤ 65535) {d : Depth}
    (h : estimate 8 d (patternTile (boardPattern p) v) = 16 * v) :
    energy .exact (patternTile (boardPattern p) v) 8 d = 8 * v := by
  have hsad : (sadAnswer .exact (patternTile (boardPattern p) v) 8 d).toNat = 32 * v := by
    simp only [sadAnswer]
    rw [sum_tileSamples_board hp, BitVec.toNat_ofNat]
    omega
  rw [energy, h, hsad]
  omega

/-- Settles O26: the constants are the energies at 255, 1023 and 4095. -/
theorem checkerboardConstants : Obligations.CheckerboardConstants := by
  have high {p v : Nat} (hp : p < 2) (hv : v ≤ 65535) :=
    toNat_sa8d_patternTile (W := 32) (B := v) (by decide) rfl (by omega) (magnitudeSum_board8 hp)
  have standard {p v : Nat} (hp : p < 2) (hv : v ≤ 255) :=
    toNat_sa8d_patternTile (W := 16) (B := v) (by decide) rfl (by omega) (magnitudeSum_board8 hp)
  simp only [Obligations.CheckerboardConstants, board_eq_patternTile]
  exact ⟨fun v hv p hp => ⟨high hp hv, energy_board hp hv (high hp hv), fun hv' =>
      ⟨standard hp hv', energy_board hp hv (standard hp hv')⟩⟩,
    standard (by decide) (by decide), high (by decide) (by decide), high (by decide) (by decide)⟩

end Sys2Proof.Machine
end

section
/-! PROOFS. O27, O28, O29: the tile commands (42_block_energy.md R181 to R185). All four have the one form of
`exec_tileCommand`, so the checks and the completion are proved for a command of the list `tileCommands`. -/

namespace Sys2Proof.Machine

/-! ### The acceptance checks (R181) -/

section
variable {n : Nat} {d : Depth} {ref : RefSel} {r : Regs}

theorem tileCheck_of_a_outside (hA : ¬viewFits r d .a (n - 1) (n - 1)) :
    tileCheck n d ref r = some (.geometry, 5) := by
  rw [← addrFits_iff] at hA
  rw [tileCheck, if_pos (by simpa using hA)]

theorem tileCheck_of_b_outside (hA : viewFits r d .a (n - 1) (n - 1)) (href : ref = .b)
    (hB : ¬viewFits r d .b (n - 1) (n - 1)) : tileCheck n d ref r = some (.geometry, 5) := by
  rw [← addrFits_iff] at hA hB
  rw [tileCheck, if_neg (by simpa using hA), if_pos (by simpa [href] using hB)]

/-- With both views in range, the alignment checks are what is left. -/
theorem tileCheck_of_fits (hA : viewFits r d .a (n - 1) (n - 1))
    (hB : ref = .b → viewFits r d .b (n - 1) (n - 1)) :
    tileCheck n d ref r = if misaligned r d .a then some (.misaligned, r.aBase)
      else if ref == .b && misaligned r d .b then some (.misaligned, r.bBase) else none := by
  simp only [← addrFits_iff] at hA hB
  rw [tileCheck, if_neg (by simpa using hA), if_neg (by simpa using hB)]

theorem tileCheck_of_a_odd (hA : viewFits r d .a (n - 1) (n - 1))
    (hB : ref = .b → viewFits r d .b (n - 1) (n - 1)) (hd : d = .high) (hodd : ¬baseEven r .a) :
    tileCheck n d ref r = some (.misaligned, r.aBase) := by
  rw [tileCheck_of_fits hA hB, if_pos ((misaligned_iff r d .a).2 ⟨hd, hodd⟩)]

theorem tileCheck_of_b_odd (hA : viewFits r d .a (n - 1) (n - 1)) (href : ref = .b)
    (hB : viewFits r d .b (n - 1) (n - 1)) (hd : d = .high) (heven : baseEven r .a) (hodd : ¬baseEven r .b) :
    tileCheck n d ref r = some (.misaligned, r.bBase) := by
  rw [tileCheck_of_fits hA fun _ => hB, if_neg fun h => ((misaligned_iff r d .a).1 h).2 heven,
    if_pos (by simp [href, misaligned_iff, hd, hodd])]

theorem tileCheck_eq_none_iff : tileCheck n d ref r = none ↔ tileAccepted n d ref r := by
  by_cases hA : viewFits r d .a (n - 1) (n - 1)
  · by_cases hB : ref = .b → viewFits r d .b (n - 1) (n - 1)
    · have aligned : tileCheck n d ref r = none ↔
          ¬misaligned r d .a = true ∧ ¬(ref = .b ∧ misaligned r d .b = true) := by
        rw [tileCheck_of_fits hA hB]
        split_ifs with hmA hmB
        · simp [hmA]
        · simpa using fun _ => hmB
        · simpa [hmA] using hmB
      rw [aligned, misaligned_iff, misaligned_iff, tileAccepted]
      tauto
    · have ⟨href, hB'⟩ : ref = .b ∧ ¬viewFits r d .b (n - 1) (n - 1) := by simpa using hB
      simp [tileCheck_of_b_outside hA href hB', tileAccepted, hB]
  · simp [tileCheck_of_a_outside hA, tileAccepted, hA]

end

theorem acceptanceFault_tileCommand {p : (RefSel → Instr) × Nat × Depth} (hp : p ∈ tileCommands) (ref : RefSel)
    (r : Regs) : acceptanceFault (p.1 ref) r = tileCheck p.2.1 p.2.2 ref r := by
  simp only [tileCommands, List.mem_cons, List.not_mem_nil, or_false] at hp
  rcases hp with rfl | rfl | rfl | rfl <;> rfl

theorem acceptanceFault_tileCommand_eq_none_iff {p : (RefSel → Instr) × Nat × Depth} (hp : p ∈ tileCommands)
    (ref : RefSel) (r : Regs) :
    acceptanceFault (p.1 ref) r = none ↔ tileAccepted p.2.1 p.2.2 ref r := by
  rw [acceptanceFault_tileCommand hp, tileCheck_eq_none_iff]

/-- A tile command that fails an acceptance check ends in that fault (R181, 60_exceptions.md R272). -/
theorem endsInFault_of_tileCheck {p : (RefSel → Instr) × Nat × Depth} (hp : p ∈ tileCommands) {ref : RefSel}
    {s : State} (hi : s.isIdle = true) {c : Cause} {info : Word}
    (h : tileCheck p.2.1 p.2.2 ref s.regs = some (c, info)) : endsInFault (p.1 ref) s c info := by
  rw [endsInFault, exec_tileCommand hp, readingCommand, whenIdle_of_idle hi, acceptanceFault_tileCommand hp, h]
  rfl

/-- Settles O27, clause by clause from the checks. -/
theorem tileCommandsCheckInOrder : Obligations.TileCommandsCheckInOrder := by
  intro p hp ref s hi
  have fault {c : Cause} {info : Word} := endsInFault_of_tileCheck hp (ref := ref) hi (c := c) (info := info)
  exact ⟨fun hA => fault (tileCheck_of_a_outside hA), fun hA href hB => fault (tileCheck_of_b_outside hA href hB),
    fun hA hB hd hodd => fault (tileCheck_of_a_odd hA hB hd hodd),
    fun hA href hB hd heven hodd => fault (tileCheck_of_b_odd hA href hB hd heven hodd),
    acceptanceFault_tileCommand_eq_none_iff hp ref s.regs⟩

/-! ### Completion (R182 to R185) -/

theorem refTile_of_ready {s : State} {d : Depth} {n : Nat} {ref : RefSel} (h : s.samplesReady d (tileReads n ref))
    {row col : Nat} (hr : row < n) (hc : col < n) :
    refTile s d ref row col = memReference s.mem s.regs d ref row col := by
  cases ref with
  | zero => rfl
  | b => exact sampleValue_of_ready h (mem_tileReads.2 ⟨.inr rfl, hr, hc⟩)

/-- A tile command that is accepted and whose samples are ready writes the estimate of memory's samples to RESULT. -/
theorem exec_tileCommand_of_ready {p : (RefSel → Instr) × Nat × Depth} (hp : p ∈ tileCommands) (ref : RefSel)
    {s : State} (hi : s.isIdle = true) (ha : tileAccepted p.2.1 p.2.2 ref s.regs)
    (h : s.samplesReady p.2.2 (tileReads p.2.1 ref)) :
    exec (p.1 ref) s = complete { s.regs with
      result := tileEstimate p.2.1 p.2.2 (memSample s.mem s.regs p.2.2 .a)
        (memReference s.mem s.regs p.2.2 ref) } s := by
  have hn : p.2.1 = 4 ∨ p.2.1 = 8 := by
    simp only [tileCommands, List.mem_cons, List.not_mem_nil, or_false] at hp
    rcases hp with rfl | rfl | rfl | rfl <;> decide
  have hresult := tileEstimate_congr hn p.2.2
    (fun _ hr _ hc => sampleValue_of_ready h (mem_tileReads.2 ⟨.inl rfl, hr, hc⟩))
    (fun _ hr _ hc => refTile_of_ready h hr hc)
  rw [exec_tileCommand hp,
    readingCommand_of_ready hi ((acceptanceFault_tileCommand_eq_none_iff hp ref s.regs).2 ha) h, hresult]

/-- Settles O28: the two commands of size 4. -/
theorem satd4CommandsWriteTheEstimate : Obligations.Satd4CommandsWriteTheEstimate :=
  ⟨fun ref _ => exec_tileCommand_of_ready (p := (.satd4S, 4, .standard)) (by simp [tileCommands]) ref,
    fun ref _ => exec_tileCommand_of_ready (p := (.satd4H, 4, .high)) (by simp [tileCommands]) ref⟩

/-- Settles O29: the two commands of size 8. -/
theorem sa8dCommandsWriteTheEstimate : Obligations.Sa8dCommandsWriteTheEstimate :=
  ⟨fun ref _ => exec_tileCommand_of_ready (p := (.sa8dS, 8, .standard)) (by simp [tileCommands]) ref,
    fun ref _ => exec_tileCommand_of_ready (p := (.sa8dH, 8, .high)) (by simp [tileCommands]) ref⟩

end Sys2Proof.Machine
end

section
/-! PROOFS. O30, O33: the region's tiles (43_aggregator.md R191, R193) and the acceptance checks of the four region
commands (R192). -/

namespace Sys2Proof.Machine

/-! ### The tiles of the region (R191, R193) -/

theorem tileSize_pos (r : Regs) : 0 < tileSize r := by
  rcases tileSize_cases r with h | h <;> omega

theorem tileSize_eq_four_iff (r : Regs) : tileSize r = 4 ↔ r.width.toNat < 8 ∨ r.height.toNat < 8 := by
  unfold tileSize
  split <;> omega

/-- The tile positions are all pairs of a row of tiles and a column of tiles, rows outer (R193): the empty width needs
no case of its own. -/
theorem tilePositions_eq_product (r : Regs) : tilePositions r =
    List.range (r.height.toNat / tileSize r) ×ˢ List.range (r.width.toNat / tileSize r) := by
  unfold tilePositions
  split
  · next hw => simp [hw]
  · rfl

theorem pairwise_tilePositions (r : Regs) :
    (tilePositions r).Pairwise fun p q => p.1 < q.1 ∨ (p.1 = q.1 ∧ p.2 < q.2) := by
  rw [tilePositions_eq_product]
  refine List.pairwise_flatMap.2 ⟨fun ty _ => List.pairwise_map.2 ?_, List.pairwise_lt_range.imp ?_⟩
  · exact List.pairwise_lt_range.imp fun htx => .inr ⟨rfl, htx⟩
  · intro ty ty' hty p hp q hq
    obtain ⟨tx, _, rfl⟩ := List.mem_map.1 hp
    obtain ⟨tx', _, rfl⟩ := List.mem_map.1 hq
    exact .inl hty

theorem tilePositions_nodup (r : Regs) : (tilePositions r).Nodup :=
  (pairwise_tilePositions r).imp fun h e => by subst e; omega

theorem tilePositions_length (r : Regs) :
    (tilePositions r).length = r.height.toNat / tileSize r * (r.width.toNat / tileSize r) := by
  rw [tilePositions_eq_product, List.length_product, List.length_range, List.length_range]

theorem tilePositions_of_empty {r : Regs} (h : r.width = 0 ∨ r.height = 0) : tilePositions r = [] := by
  rw [tilePositions_eq_product]
  rcases h with h | h <;> simp [h]

theorem tilePositions_four_by_twelve {r : Regs} (hw : r.width = 4) (hh : r.height = 12) :
    tilePositions r = [(0, 0), (1, 0), (2, 0)] := by
  have hn : tileSize r = 4 := (tileSize_eq_four_iff r).2 (.inl (by rw [hw]; decide))
  rw [tilePositions_eq_product, hn, hw, hh]
  rfl

/-- Index `i` lies in the block `t` of `n` indices exactly when `t` is its quotient. -/
theorem mem_block_iff {n : Nat} (hn : 0 < n) (t i : Nat) : n * t ≤ i ∧ i < n * t + n ↔ t = i / n := by
  rw [eq_comm, Nat.div_eq_iff hn, Nat.mul_comm n t]
  omega

/-- The blocks of `n` indices end where the range does. -/
theorem block_le {n m t : Nat} (ht : t < m / n) : n * t + n ≤ m :=
  (Nat.mul_le_mul_left n ht).trans (Nat.mul_div_le m n)

/-- In a region that whole tiles fill, the tile of a sample is at the quotients of its row and column. -/
theorem existsUnique_tile {r : Regs} (hw : tileSize r ∣ r.width.toNat) (hh : tileSize r ∣ r.height.toNat)
    {row col : Nat} (hrow : row < r.height.toNat) (hcol : col < r.width.toNat) :
    ∃! p : Nat × Nat, p ∈ tilePositions r ∧ tileSize r * p.1 ≤ row ∧ row < tileSize r * p.1 + tileSize r ∧
      tileSize r * p.2 ≤ col ∧ col < tileSize r * p.2 + tileSize r := by
  have block := mem_block_iff (tileSize_pos r)
  refine ⟨(row / tileSize r, col / tileSize r), ⟨mem_tilePositions.2 ⟨?_, ?_⟩, ?_⟩, ?_⟩
  · exact Nat.div_lt_div_of_lt_of_dvd hh hrow
  · exact Nat.div_lt_div_of_lt_of_dvd hw hcol
  · exact and_assoc.1 ⟨(block _ row).2 rfl, (block _ col).2 rfl⟩
  · rintro p ⟨_, hrow, hrow', hcol, hcol'⟩
    exact Prod.ext ((block _ row).1 ⟨hrow, hrow'⟩) ((block _ col).1 ⟨hcol, hcol'⟩)

/-- Settles O33: the positions form a product, and a sample's tile is given by division. -/
theorem tilesCoverTheRegionExactly : Obligations.TilesCoverTheRegionExactly := by
  refine ⟨fun r => ⟨tileSize_eq_eight_iff r, tileSize_eq_four_iff r, tilePositions_four_by_twelve,
    tilePositions_of_empty⟩, ?_⟩
  rintro d r ⟨hw, hh, _⟩
  refine ⟨pairwise_tilePositions r, fun row hrow col hcol => existsUnique_tile hw hh hrow hcol, fun p hp => ?_,
    tilePositions_nodup r, tilePositions_length r⟩
  obtain ⟨hty, htx⟩ := mem_tilePositions.1 hp
  exact ⟨block_le hty, block_le htx⟩

/-! ### The acceptance checks (R192) -/

section
variable {d : Depth} {r : Regs}

/-- Both regions of an inhabited pair of views lie below 2^64 (R192, 20_memory.md R60). -/
def regionsFit (d : Depth) (r : Regs) : Prop :=
  0 < r.width.toNat → 0 < r.height.toNat →
    viewFits r d .a (r.height.toNat - 1) (r.width.toNat - 1) ∧
      viewFits r d .b (r.height.toNat - 1) (r.width.toNat - 1)

theorem regionCheck_of_width (hw : ¬tileSize r ∣ r.width.toNat) : regionCheck d r = some (.geometry, 1) :=
  if_pos fun h => hw (Nat.dvd_of_mod_eq_zero h)

section
variable (hw : tileSize r ∣ r.width.toNat)
include hw

theorem regionCheck_of_height (hh : ¬tileSize r ∣ r.height.toNat) : regionCheck d r = some (.geometry, 2) := by
  rw [regionCheck, if_neg (by simpa using Nat.mod_eq_zero_of_dvd hw), if_pos fun h => hh (Nat.dvd_of_mod_eq_zero h)]

variable (hh : tileSize r ∣ r.height.toNat)
include hh

theorem regionCheck_of_aStride (ha : r.aStride.toNat < r.width.toNat) : regionCheck d r = some (.geometry, 3) := by
  simp [regionCheck, Nat.mod_eq_zero_of_dvd hw, Nat.mod_eq_zero_of_dvd hh, ha]

variable (ha : r.width.toNat ≤ r.aStride.toNat)
include ha

theorem regionCheck_of_bStride (hb : r.bStride.toNat < r.width.toNat) : regionCheck d r = some (.geometry, 4) := by
  simp [regionCheck, Nat.mod_eq_zero_of_dvd hw, Nat.mod_eq_zero_of_dvd hh, ha.not_gt, hb]

variable (hb : r.width.toNat ≤ r.bStride.toNat)
include hb

theorem regionCheck_of_outside (hfit : ¬regionsFit d r) : regionCheck d r = some (.geometry, 5) := by
  simp only [regionsFit, ← addrFits_iff, Classical.not_imp, not_and_or, Bool.not_eq_true] at hfit
  obtain ⟨hw0, hh0, hA | hB⟩ := hfit
  · simp [regionCheck, Nat.mod_eq_zero_of_dvd hw, Nat.mod_eq_zero_of_dvd hh, ha.not_gt, hb.not_gt, hw0, hh0, hA]
  · simp [regionCheck, Nat.mod_eq_zero_of_dvd hw, Nat.mod_eq_zero_of_dvd hh, ha.not_gt, hb.not_gt, hw0, hh0, hB]

variable (hfit : regionsFit d r)
include hfit

/-- With the dimensions, the strides and the addresses accepted, the alignment checks are what is left. -/
theorem regionCheck_of_fits : regionCheck d r =
    if misaligned r d .a then some (.misaligned, r.aBase)
    else if misaligned r d .b then some (.misaligned, r.bBase) else none := by
  have fits (v : View) (hwh : 0 < r.width.toNat ∧ 0 < r.height.toNat) :
      addrFits r d v (r.height.toNat - 1) (r.width.toNat - 1) = true := by
    have ⟨hA, hB⟩ := hfit hwh.1 hwh.2
    cases v
    · exact (addrFits_iff r d .a _ _).2 hA
    · exact (addrFits_iff r d .b _ _).2 hB
  have skip (v : View) : ¬((0 < r.width.toNat ∧ 0 < r.height.toNat) ∧
      (!addrFits r d v (r.height.toNat - 1) (r.width.toNat - 1)) = true) := fun h => by simp [fits v h.1] at h
  rw [regionCheck, if_neg (by simpa using Nat.mod_eq_zero_of_dvd hw), if_neg (by simpa using Nat.mod_eq_zero_of_dvd hh),
    if_neg ha.not_gt, if_neg hb.not_gt, if_neg (skip .a), if_neg (skip .b)]

theorem regionCheck_of_a_odd (hd : d = .high) (hodd : ¬baseEven r .a) :
    regionCheck d r = some (.misaligned, r.aBase) := by
  rw [regionCheck_of_fits hw hh ha hb hfit, if_pos ((misaligned_iff r d .a).2 ⟨hd, hodd⟩)]

theorem regionCheck_of_b_odd (hd : d = .high) (heven : baseEven r .a) (hodd : ¬baseEven r .b) :
    regionCheck d r = some (.misaligned, r.bBase) := by
  rw [regionCheck_of_fits hw hh ha hb hfit, if_neg fun h => ((misaligned_iff r d .a).1 h).2 heven,
    if_pos ((misaligned_iff r d .b).2 ⟨hd, hodd⟩)]

end

/-- The conditions of R192, in the order of the checks. -/
theorem regionAccepted_iff : regionAccepted d r ↔
    tileSize r ∣ r.width.toNat ∧ tileSize r ∣ r.height.toNat ∧ r.width.toNat ≤ r.aStride.toNat ∧
      r.width.toNat ≤ r.bStride.toNat ∧ regionsFit d r ∧
      (d = .high → baseEven r .a) ∧ (d = .high → baseEven r .b) := by
  simp only [regionAccepted, regionsFit, imp_and]

theorem regionCheck_eq_none_iff : regionCheck d r = none ↔ regionAccepted d r := by
  rw [regionAccepted_iff]
  by_cases hw : tileSize r ∣ r.width.toNat
  case neg => simp [regionCheck_of_width hw, hw]
  by_cases hh : tileSize r ∣ r.height.toNat
  case neg => simp [regionCheck_of_height hw hh, hh]
  by_cases ha : r.width.toNat ≤ r.aStride.toNat
  case neg => simp [regionCheck_of_aStride hw hh (not_le.1 ha), ha]
  by_cases hb : r.width.toNat ≤ r.bStride.toNat
  case neg => simp [regionCheck_of_bStride hw hh ha (not_le.1 hb), hb]
  by_cases hfit : regionsFit d r
  case neg => simp [regionCheck_of_outside hw hh ha hb hfit, hfit]
  have aligned : regionCheck d r = none ↔ ¬misaligned r d .a = true ∧ ¬misaligned r d .b = true := by
    rw [regionCheck_of_fits hw hh ha hb hfit]
    split_ifs with hA hB
    · simp [hA]
    · simp [hB]
    · simp [hA, hB]
  rw [aligned, misaligned_iff, misaligned_iff]
  tauto

end

theorem acceptanceFault_regionCommand {p : Instr × Depth} (hp : p ∈ regionCommands) (r : Regs) :
    acceptanceFault p.1 r = regionCheck p.2 r := by
  simp only [regionCommands, List.mem_cons, List.not_mem_nil, or_false] at hp
  rcases hp with rfl | rfl | rfl | rfl <;> rfl

theorem acceptanceFault_regionCommand_eq_none_iff {p : Instr × Depth} (hp : p ∈ regionCommands) (r : Regs) :
    acceptanceFault p.1 r = none ↔ regionAccepted p.2 r := by
  rw [acceptanceFault_regionCommand hp, regionCheck_eq_none_iff]

/-- A region command that fails an acceptance check ends in that fault (R192, 60_exceptions.md R272). -/
theorem endsInFault_of_regionCheck {p : Instr × Depth} (hp : p ∈ regionCommands) {s : State} (hi : s.isIdle = true)
    {c : Cause} {info : Word} (h : regionCheck p.2 s.regs = some (c, info)) : endsInFault p.1 s c info := by
  rw [endsInFault, exec_regionCommand hp, readingCommand, whenIdle_of_idle hi, acceptanceFault_regionCommand hp, h]
  rfl

/-- Settles O30: each clause is the lemma on its check; R192's examples are cases of the first two. -/
theorem regionCommandsCheckInOrder : Obligations.RegionCommandsCheckInOrder := by
  refine ⟨fun r => rfl, fun p hp s hi => ?_⟩
  have fault {c : Cause} {info : Word} := endsInFault_of_regionCheck hp hi (c := c) (info := info)
  have size {w h : Half} {n : Nat} (hw : s.regs.width = w) (hh : s.regs.height = h)
      (hn : (if 8 ≤ w.toNat ∧ 8 ≤ h.toNat then 8 else 4) = n) : tileSize s.regs = n := by
    rw [tileSize, hw, hh, hn]
  refine ⟨fun hw hh => fault (regionCheck_of_width ?_), fun hw hh => fault (regionCheck_of_height ?_ ?_),
    fun hw hh => fault (regionCheck_of_width ?_), ?_, fun hw => fault (regionCheck_of_width hw),
    fun hw hh => fault (regionCheck_of_height hw hh), fun hw hh ha => fault (regionCheck_of_aStride hw hh ha),
    fun hw hh ha hb => fault (regionCheck_of_bStride hw hh ha hb),
    fun hw hh ha hb hw0 hh0 hout => fault (regionCheck_of_outside hw hh ha hb fun hfit => ?_),
    fun hw hh ha hb hfit hd => ⟨fun hodd => fault (regionCheck_of_a_odd hw hh ha hb hfit hd hodd),
      fun heven hodd => fault (regionCheck_of_b_odd hw hh ha hb hfit hd heven hodd)⟩,
    acceptanceFault_regionCommand_eq_none_iff hp s.regs⟩
  · rw [size hw hh rfl, hw]; decide
  · rw [size hw hh rfl, hw]; decide
  · rw [size hw hh rfl, hh]; decide
  · rw [size hw hh rfl, hw]; decide
  · rintro (⟨hw, hh⟩ | ⟨hw, hh⟩) <;> rw [size hw hh rfl, hw, hh] <;> decide
  · exact not_and_or.2 hout (hfit hw0 hh0)

end Sys2Proof.Machine
end

section
/-! PROOFS. O31, O32: the region commands run to their end (43_aggregator.md R193 to R201, 44_bias_and_entry.md R231,
R232). Over samples that are ready the walk's total is the exact sum of the tiles' deltas mod 2^64; over an empty
region there is no sample to read and no tile to add. -/

namespace Sys2Proof.Machine

/-! ### The total of the walk (R193, R194, R197) -/

/-- The delta of the tile position of the region as memory holds it (R197). -/
def memDelta (s : State) (d : Depth) (ty tx : Nat) : Nat :=
  (energy s.sadPort (memTile s d .a ty tx) (tileSize s.regs) d -
    energy s.sadPort (memTile s d .b ty tx) (tileSize s.regs) d).natAbs

theorem exactTotal_eq_sum (s : State) (d : Depth) : exactTotal s d =
    ∑ ty ∈ Finset.range (s.regs.height.toNat / tileSize s.regs),
      ∑ tx ∈ Finset.range (s.regs.width.toNat / tileSize s.regs), memDelta s d ty tx := rfl

theorem regionDistortion_eq_normalise (s : State) (d : Depth) :
    regionDistortion s d = normalise (BitVec.ofNat 64 (exactTotal s d)) d := by
  cases d <;> rfl

theorem foldl_add_ofNat {α : Type} (f : α → Nat) (l : List α) (x : Word) :
    l.foldl (fun total p => total + BitVec.ofNat 64 (f p)) x = x + BitVec.ofNat 64 (l.map f).sum := by
  induction l generalizing x with
  | nil => simp
  | cons p l ih => rw [List.foldl_cons, ih, List.map_cons, List.sum_cons, BitVec.ofNat_add, BitVec.add_assoc]

theorem sum_map_tilePositions (r : Regs) (f : Nat × Nat → Nat) : ((tilePositions r).map f).sum =
    ∑ ty ∈ Finset.range (r.height.toNat / tileSize r),
      ∑ tx ∈ Finset.range (r.width.toNat / tileSize r), f (ty, tx) := by
  rw [tilePositions_eq_product]
  show ((List.flatMap _ _).map f).sum = _
  simp only [List.flatMap_def, List.map_flatten, List.sum_flatten, List.map_map, Function.comp_def]
  rfl

section
variable {s : State} {d : Depth} (h : s.samplesReady d (regionReads s.regs))
include h

theorem tileAt_of_ready (v : View) {p : Nat × Nat} (hp : p ∈ tilePositions s.regs) {row col : Nat}
    (hr : row < tileSize s.regs) (hc : col < tileSize s.regs) :
    tileAt s d v (tileSize s.regs) p.1 p.2 row col = memTile s d v p.1 p.2 row col := by
  obtain ⟨hty, htx⟩ := mem_tilePositions.1 hp
  exact sampleValue_of_ready h (mem_regionReads.2 ⟨tile_index_lt hty hr, tile_index_lt htx hc⟩)

theorem tileDelta_of_ready {p : Nat × Nat} (hp : p ∈ tilePositions s.regs) :
    tileDelta s d (tileSize s.regs) p.1 p.2 = memDelta s d p.1 p.2 := by
  have energy_eq (v : View) := energy_congr (tileSize_cases s.regs) d
    (fun _ hr _ hc => tileAt_of_ready h v hp hr hc) s.sadPort
  simp only [tileDelta, memDelta, energy_eq]

theorem runningTotal_of_ready : runningTotal s d = BitVec.ofNat 64 (exactTotal s d) := by
  have deltas : (tilePositions s.regs).map (fun p => tileDelta s d (tileSize s.regs) p.1 p.2) =
      (tilePositions s.regs).map fun p => memDelta s d p.1 p.2 :=
    List.map_congr_left fun _ hp => tileDelta_of_ready h hp
  rw [runningTotal, foldl_add_ofNat, deltas, sum_map_tilePositions, exactTotal_eq_sum]
  exact BitVec.zero_add _

theorem psyd_of_ready : psyd s d = regionDistortion s d := by
  rw [psyd, runningTotal_of_ready h, regionDistortion_eq_normalise]

end

/-! ### Completion over readable samples (R200, R201) -/

/-- A region command that is accepted and whose samples and SAD answers are ready ends with the region's distortion. -/
theorem exec_regionCommand_of_ready {i : Instr} {d : Depth} (hp : (i, d) ∈ regionCommands) {s : State}
    (hi : s.isIdle = true) (ha : regionAccepted d s.regs) (h : s.regionReady d) :
    exec i s = regionEnd i (regionDistortion s d) s := by
  obtain ⟨hsamples, hsad⟩ := h
  rw [exec_regionCommand hp, readingCommand_of_ready hi ((acceptanceFault_regionCommand_eq_none_iff hp s.regs).2 ha)
    hsamples, needsSad_of_answering hsad, psyd_of_ready hsamples]

/-- Settles O31: the two region commands that end with the distortion itself. -/
theorem psydWritesTheRegionDistortion : Obligations.PsydWritesTheRegionDistortion :=
  ⟨fun _ => exec_regionCommand_of_ready (i := .psydS) (by simp [regionCommands]),
    fun _ => exec_regionCommand_of_ready (i := .psydH) (by simp [regionCommands])⟩

/-! ### Empty regions (R193, R199 item 2) -/

theorem withSamples_nil (i : Instr) (d : Depth) (s : State) (go : Result) : withSamples i d [] s go = go := rfl

theorem regionReads_of_empty {r : Regs} (h : r.width = 0 ∨ r.height = 0) : regionReads r = [] := by
  refine List.eq_nil_iff_forall_not_mem.2 fun x hx => ?_
  obtain ⟨hrow, hcol⟩ := mem_regionReads.1 hx
  rcases h with h | h
  · simp [h] at hcol
  · simp [h] at hrow

theorem psyd_of_empty {s : State} (h : s.regs.width = 0 ∨ s.regs.height = 0) (d : Depth) : psyd s d = 0 := by
  rw [psyd, runningTotal, tilePositions_of_empty h, List.foldl_nil]
  cases d <;> rfl

/-- An accepted region command over an empty region ends with distortion 0 in every environment: it asks neither
port. -/
theorem exec_regionCommand_of_empty {i : Instr} {d : Depth} (hp : (i, d) ∈ regionCommands) {s : State}
    (hi : s.isIdle = true) (ha : regionAccepted d s.regs) (h : s.regs.width = 0 ∨ s.regs.height = 0) :
    exec i s = regionEnd i 0 s := by
  rw [exec_regionCommand hp, readingCommand, whenIdle_of_idle hi,
    (acceptanceFault_regionCommand_eq_none_iff hp s.regs).2 ha, regionReads_of_empty h, psyd_of_empty h]
  simp [withSamples_nil, needsSad, tilePositions_of_empty h]

/-! ### The biased distortion of an empty region (44_bias_and_entry.md R234 item 1) -/

theorem isFinite_eq_false_iff (x : Word) : isFinite x = false ↔ isNaN x = true ∨ isInf x = true := by
  simp only [isNaN, isInf, isFinite, Bool.and_eq_true, beq_iff_eq, bne_iff_ne, bne_eq_false_iff_eq]
  tauto

/-- Zero times a finite number is a zero, and times anything else the canonical NaN (R217). -/
theorem biasedProduct_zero (b : Word) :
    biasedProduct 0 b = if isFinite b then withSign (signBit b) 0 else Config.canonicalNaN := by
  have hzero : significand 0 = 0 ∧ isNaN 0 = false ∧ isInf 0 = false ∧ isZero 0 = true ∧ signBit 0 = false := by
    decide
  obtain ⟨hsig, hnan, hinf, hz, hsign⟩ := hzero
  have hround (k : Nat) : roundMagnitude 0 k = 0 := if_pos rfl
  have hcvt : cvtU64 0 = 0 := congrArg (BitVec.ofNat 64) (hround 2150)
  rw [biasedProduct, hcvt, fmul64]
  simp only [hsig, hnan, hinf, hz, hsign, Nat.zero_mul, hround]
  cases hb : isFinite b
  case false =>
    rcases (isFinite_eq_false_iff b).1 hb with h | h <;> simp [h]
  case true =>
    have ⟨hbnan, hbinf⟩ : isNaN b = false ∧ isInf b = false := by
      simpa [hb] using (isFinite_eq_false_iff b).not
    simp [hbnan, hbinf]

/-- A pattern with significand 0 rounds to 0, at every exponent. -/
theorem rha_of_significand_eq_zero {x : Word} (h : significand x = 0) : rha x = 0 := by
  have hmag : roundedMagnitude x = 0 := by
    rw [roundedMagnitude, h]
    split
    · exact Nat.zero_mul _
    · rw [Nat.mul_zero, Nat.zero_add]
      exact Nat.div_eq_of_lt (Nat.pow_lt_pow_right (by decide) (by omega))
  rw [rha, hmag]
  exact ite_self 0

theorem finishDistortion_zero_of_finite {s : State} (h : isFinite s.regs.biasBase = true) :
    finishDistortion 0 s = complete { s.regs with result := 0 } s := by
  have hp : biasedProduct 0 s.regs.biasBase = withSign (signBit s.regs.biasBase) 0 := by
    rw [biasedProduct_zero, if_pos h]
  have hzero (negative : Bool) : significand (withSign negative 0) = 0 ∧ isNaN (withSign negative 0) = false ∧
      isInf (withSign negative 0) = false := by
    cases negative <;> decide
  obtain ⟨hsig, hnan, hinf⟩ := hzero (signBit s.regs.biasBase)
  have hrha := rha_of_significand_eq_zero hsig
  have hrep : representable (withSign (signBit s.regs.biasBase) 0) = true := by simp [representable, hnan, hinf, hrha]
  simp only [finishDistortion, hp, hrep, hrha, if_true]
  rfl

theorem finishDistortion_zero_of_not_finite {s : State} (h : isFinite s.regs.biasBase = false) :
    finishDistortion 0 s = raise .numeric Config.canonicalNaN s := by
  have hrep : representable Config.canonicalNaN = false := by decide
  simp only [finishDistortion, biasedProduct_zero, h, hrep, Bool.false_eq_true, if_false]

theorem regionEnd_psyd {i : Instr} (h : i = .psydS ∨ i = .psydH) (D : Word) (s : State) :
    regionEnd i D s = complete { s.regs with result := D } s := by
  rcases h with rfl | rfl <;> rfl

theorem regionEnd_fdist {i : Instr} (h : i = .fdistS ∨ i = .fdistH) (D : Word) (s : State) :
    regionEnd i D s = finishDistortion D s := by
  rcases h with rfl | rfl <;> rfl

theorem regionCommand_cases {p : Instr × Depth} (hp : p ∈ regionCommands) :
    (p.1 = .psydS ∨ p.1 = .psydH) ∨ (p.1 = .fdistS ∨ p.1 = .fdistH) := by
  simp only [regionCommands, List.mem_cons, List.not_mem_nil, or_false] at hp
  rcases hp with rfl | rfl | rfl | rfl <;> simp

/-- Settles O32: distortion 0 ends `PSYD` at once, and `FDIST` by the product of zero and the bias. -/
theorem emptyRegionGivesZero : Obligations.EmptyRegionGivesZero := by
  intro s hi h p hp ha
  rw [endsInFault, exec_regionCommand_of_empty hp hi ha h]
  refine ⟨fun hbias => ?_, fun hbias hfdist => ?_⟩
  · rcases regionCommand_cases hp with hpsyd | hfdist
    · exact regionEnd_psyd hpsyd 0 s
    · have hfinite : isFinite s.regs.biasBase = true := by
        rcases hfdist with e | e <;> simpa [e] using hbias
      rw [regionEnd_fdist hfdist, finishDistortion_zero_of_finite hfinite, complete]
  · rw [regionEnd_fdist hfdist, finishDistortion_zero_of_not_finite hbias]
    rfl

end Sys2Proof.Machine
end

section
/-! PROOFS. O34, O35, O36: the energy of a tile and the region's distortion (43_aggregator.md R196, R199, R204). Under
SadExact the DC correction is at most the estimate, by 42_block_energy.md R163 item 6 and R172 item 7, so that energies
and their differences obey one bound per sample; the sum over the tiles keeps it. -/

namespace Sys2Proof.Machine

/-- SMAX (00_scope.md R6): the largest sample of a depth. -/
def maxSample : Depth → Nat
  | .standard => 255
  | .high => 65535

theorem maxSample_le (d : Depth) : maxSample d ≤ 65535 := by cases d <;> decide

/-! ### The energy of a tile (R196) -/

theorem energy_exact (T : Tile) (n : Nat) (d : Depth) :
    energy .exact T n d = estimate n d T - (((tileSamples T n).sum % 2 ^ 32 / 4 : Nat) : Int) := rfl

theorem energy_arbitrary (T : Tile) (n : Nat) (d : Depth) : energy .arbitrary T n d =
    estimate n d T - (((Config.sadArbitrary (tileSamples T n) n (d == .high)).toNat / 4 : Nat) : Int) := rfl

/-- A SAD request lists the samples of the tile row by row (R195). -/
theorem tileSamples_eq_map {n : Nat} (hn : n = 4 ∨ n = 8) (T : Tile) :
    tileSamples T n = (List.range (n * n)).map fun k => T (k / n) (k % n) := by
  rcases hn with rfl | rfl <;> rfl

section
variable (T : Tile)

theorem estimate_standard4 : estimate 4 .standard T = (satd4 (N := 32) 16 true T zeroTile).toNat := rfl

theorem estimate_high4 : estimate 4 .high T = (satd4 (N := 64) 32 true T zeroTile).toNat := rfl

theorem estimate_standard8 : estimate 8 .standard T = (sa8d (N := 32) 16 T zeroTile).toNat := rfl

theorem estimate_high8 : estimate 8 .high T = (sa8d (N := 64) 32 T zeroTile).toNat := rfl

end

section
variable {W N B : Nat} (hW : 4 ≤ W) (hN : N = W + W) {T : Tile}
include hW hN

theorem satd4_bounds (hB : 64 * B < 2 ^ W) (hT : T.boundedBy 4 B) :
    (tileSamples T 4).sum / 4 ≤ (satd4 (N := N) W true T zeroTile).toNat ∧
      (satd4 (N := N) W true T zeroTile).toNat ≤ 4 * 4 * (2 * B) := by
  have hlow := half_sum_le_toNat_satd4 hW hN hB hT
  have hhigh := toNat_satd4_le hW hN hB hT (zeroTile_boundedBy 4 B)
  omega

theorem sa8d_bounds (hB : 256 * B < 2 ^ W) (hT : T.boundedBy 8 B) :
    (tileSamples T 8).sum / 4 ≤ (sa8d (N := N) W T zeroTile).toNat ∧
      (sa8d (N := N) W T zeroTile).toNat ≤ 8 * 8 * (2 * B) := by
  have hlow := quarter_sum_le_toNat_sa8d hW hN hB hT
  have hhigh := toNat_sa8d_le hW hN hB hT (zeroTile_boundedBy 8 B)
  omega

end

/-- The estimate lies between a quarter of the samples' sum and twice the largest sample for each sample (R163 items 4
and 6, R172 items 4 and 7). -/
theorem estimate_bounds {n : Nat} (hn : n = 4 ∨ n = 8) {d : Depth} {T : Tile} (hT : T.boundedBy n (maxSample d)) :
    (tileSamples T n).sum / 4 ≤ estimate n d T ∧ estimate n d T ≤ n * n * (2 * maxSample d) := by
  rcases hn with rfl | rfl <;> cases d
  · rw [estimate_standard4]; exact satd4_bounds (by decide) rfl (by decide) hT
  · rw [estimate_high4]; exact satd4_bounds (by decide) rfl (by decide) hT
  · rw [estimate_standard8]; exact sa8d_bounds (by decide) rfl (by decide) hT
  · rw [estimate_high8]; exact sa8d_bounds (by decide) rfl (by decide) hT

theorem energy_bounds {n : Nat} (hn : n = 4 ∨ n = 8) {d : Depth} {T : Tile} (hT : T.boundedBy n (maxSample d)) :
    0 ≤ energy .exact T n d ∧ energy .exact T n d ≤ (n * n * (2 * maxSample d) : Nat) := by
  obtain ⟨hlow, hhigh⟩ := estimate_bounds hn hT
  have hsad : (tileSamples T n).sum % 2 ^ 32 / 4 ≤ (tileSamples T n).sum / 4 :=
    Nat.div_le_div_right (Nat.mod_le _ _)
  rw [energy_exact]
  omega

theorem sum_tileSamples_flat (v n : Nat) : (tileSamples (fun _ _ => v) n).sum = n * n * v := by
  simp [sum_tileSamples, Nat.mul_assoc]

/-- A flat tile has the estimate of its one coefficient (R163 item 5, R172 item 5). -/
theorem estimate_flat {v : Nat} {d : Depth} (hv : v ≤ maxSample d) :
    estimate 4 d (fun _ _ => v) = 8 * v ∧ estimate 8 d (fun _ _ => v) = 16 * v := by
  have h4 : magnitudeSum (H4 * patternMatrix 4 flatPattern * H4.transpose) = 16 := magnitudeSum_flat (by decide)
  have h8 : magnitudeSum (H8 * patternMatrix 8 flatPattern * H8.transpose) = 64 := magnitudeSum_flat (by decide)
  rw [flat_eq_patternTile]
  cases d with
  | standard =>
    have hv : v ≤ 255 := hv
    rw [estimate_standard4, estimate_standard8]
    exact ⟨toNat_satd4_patternTile (by decide) rfl (by omega) h4,
      toNat_sa8d_patternTile (by decide) rfl (by omega) h8⟩
  | high =>
    have hv : v ≤ 65535 := hv
    rw [estimate_high4, estimate_high8]
    exact ⟨toNat_satd4_patternTile (by decide) rfl (by omega) h4,
      toNat_sa8d_patternTile (by decide) rfl (by omega) h8⟩

/-- The correction of a flat tile is a quarter of its samples, which are too few to wrap (R199 item 5). -/
theorem energy_flat {v : Nat} {d : Depth} (hv : v ≤ maxSample d) :
    energy .exact (fun _ _ => v) 8 d = 0 ∧ energy .exact (fun _ _ => v) 4 d = 4 * v := by
  have hmax := maxSample_le d
  obtain ⟨h4, h8⟩ := estimate_flat hv
  rw [energy_exact, energy_exact, h4, h8, sum_tileSamples_flat, sum_tileSamples_flat]
  omega

/-- The number that is the estimator of the tile's size and depth, whichever these are, is the estimate (R196). -/
theorem estimate_eq_of_estimator {T : Tile} {n : Nat} {d : Depth} {est : Nat} (hn : n = 4 ∨ n = 8)
    (h4s : n = 4 → d = .standard → est = (satd4 (N := 32) 16 true T zeroTile).toNat)
    (h4h : n = 4 → d = .high → est = (satd4 (N := 64) 32 true T zeroTile).toNat)
    (h8s : n = 8 → d = .standard → est = (sa8d (N := 32) 16 T zeroTile).toNat)
    (h8h : n = 8 → d = .high → est = (sa8d (N := 64) 32 T zeroTile).toNat) : estimate n d T = est := by
  rcases hn with rfl | rfl <;> cases d
  · exact (h4s rfl rfl).symm
  · exact (h4h rfl rfl).symm
  · exact (h8s rfl rfl).symm
  · exact (h8h rfl rfl).symm

/-- Settles O34: the equation of the energy for the two collaborators that answer, its bounds, and the flat tiles. -/
theorem energyIsNonNegativeAndFlatTilesVanish : Obligations.EnergyIsNonNegativeAndFlatTilesVanish := by
  refine ⟨fun T n d est hn h4s h4h h8s h8h => ?_, fun T => ?_, fun v => energy_flat (d := .high),
    fun v => energy_flat (d := .standard)⟩
  · have hest := estimate_eq_of_estimator hn h4s h4h h8s h8h
    rw [energy_exact, energy_arbitrary, hest, sum_tileSamples, tileSamples_eq_map hn]
    exact ⟨rfl, rfl⟩
  · exact ⟨energy_bounds (.inl rfl) (d := .standard), energy_bounds (.inr rfl) (d := .standard),
      energy_bounds (.inl rfl) (d := .high), energy_bounds (.inr rfl) (d := .high)⟩

/-! ### The total of a region (R204) -/

theorem byteAt_le (m : Memory) (a : Nat) : byteAt m a ≤ 255 := Nat.le_of_lt_succ (BitVec.isLt _)

theorem memSample_le (m : Memory) (r : Regs) (d : Depth) (v : View) (row col : Nat) :
    memSample m r d v row col ≤ maxSample d := by
  cases d
  case standard => exact byteAt_le m _
  case high =>
    have hlow := byteAt_le m (addressOf r .high v row col)
    have hhigh := byteAt_le m (addressOf r .high v row col + 1)
    simp only [memSample, maxSample]
    omega

section
variable {s : State} (hsad : s.sadPort = .exact) (d : Depth)
include hsad

theorem memDelta_le (ty tx : Nat) :
    memDelta s d ty tx ≤ tileSize s.regs * tileSize s.regs * (2 * maxSample d) := by
  have bounds (v : View) := energy_bounds (tileSize_cases s.regs) (T := memTile s d v ty tx)
    fun _ _ _ _ => memSample_le s.mem s.regs d v _ _
  have hA := bounds .a
  have hB := bounds .b
  rw [memDelta, hsad]
  omega

/-- No sample adds more than twice the largest sample to the total. -/
theorem exactTotal_le : exactTotal s d ≤ s.regs.width.toNat * s.regs.height.toNat * (2 * maxSample d) := by
  set n := tileSize s.regs
  set w := s.regs.width.toNat
  set h := s.regs.height.toNat
  calc exactTotal s d
    _ ≤ ∑ _ty ∈ Finset.range (h / n), ∑ _tx ∈ Finset.range (w / n), n * n * (2 * maxSample d) :=
      Finset.sum_le_sum fun ty _ => Finset.sum_le_sum fun tx _ => memDelta_le hsad d ty tx
    _ = w / n * n * (h / n * n) * (2 * maxSample d) := by
      simp only [Finset.sum_const, Finset.card_range, smul_eq_mul]
      ring
    _ ≤ w * h * (2 * maxSample d) := by
      gcongr
      · exact Nat.div_mul_le_self w n
      · exact Nat.div_mul_le_self h n

end

theorem toNat_normalise_standard {x : Nat} (hx : x < 2 ^ 64) :
    (normalise (BitVec.ofNat 64 x) .standard).toNat = x / 2 := by
  simp only [normalise, BitVec.toNat_ushiftRight, BitVec.toNat_ofNat, Nat.mod_eq_of_lt hx, Nat.shiftRight_one]

theorem toNat_normalise_high {x : Nat} (hx : x < 2 ^ 62) :
    (normalise (BitVec.ofNat 64 x) .high).toNat = 4 * x := by
  simp only [normalise, BitVec.toNat_shiftLeft, BitVec.toNat_ofNat, Nat.shiftLeft_eq]
  omega

/-- Settles O35: 2^40 samples of at most 2 * 65535 each stay below 2^59, 2^30 of them below 2^47. -/
theorem noWrapForRealRegions : Obligations.NoWrapForRealRegions := by
  intro s d hsad hsize
  have htotal := exactTotal_le hsad d
  have hmax := maxSample_le d
  have hlt {samples : Nat} (h : s.regs.width.toNat * s.regs.height.toNat ≤ samples) :
      exactTotal s d ≤ samples * 131070 :=
    htotal.trans (Nat.mul_le_mul h (by omega))
  have h59 : exactTotal s d < 2 ^ 59 := (hlt hsize).trans_lt (by decide)
  have hstandard : d = .standard → (regionDistortion s d).toNat = exactTotal s d / 2 := by
    rintro rfl
    rw [regionDistortion_eq_normalise, toNat_normalise_standard (by omega)]
  have hhigh : d = .high → (regionDistortion s d).toNat = 4 * exactTotal s d := by
    rintro rfl
    rw [regionDistortion_eq_normalise, toNat_normalise_high (by omega)]
  refine ⟨h59, hstandard, hhigh, fun hsmall => ?_⟩
  have h30 := hlt hsmall
  cases d with
  | standard => rw [hstandard rfl]; omega
  | high => rw [hhigh rfl]; omega

/-! ### Exchanged and equal regions (R199 items 1 and 3) -/

theorem tileSize_congr {r r' : Regs} (hw : r.width = r'.width) (hh : r.height = r'.height) :
    tileSize r = tileSize r' := by
  rw [tileSize, tileSize, hw, hh]

/-- Tiles at one position of two regions have the same energy where the regions hold the same samples. -/
theorem energy_memTile_congr {s t : State} {d : Depth} {v v' : View} (hw : t.regs.width = s.regs.width)
    (hh : t.regs.height = s.regs.height) (h : ∀ row < s.regs.height.toNat, ∀ col < s.regs.width.toNat,
      memSample t.mem t.regs d v row col = memSample s.mem s.regs d v' row col) {ty tx : Nat}
    (hty : ty < s.regs.height.toNat / tileSize s.regs) (htx : tx < s.regs.width.toNat / tileSize s.regs)
    (p : SadPort) :
    energy p (memTile t d v ty tx) (tileSize s.regs) d = energy p (memTile s d v' ty tx) (tileSize s.regs) d := by
  refine energy_congr (tileSize_cases s.regs) d (fun row hrow col hcol => ?_) p
  rw [memTile, memTile, tileSize_congr hw hh]
  exact h _ (tile_index_lt hty hrow) _ (tile_index_lt htx hcol)

theorem exactTotal_of_sameRegions {s : State} {d : Depth} (h : sameRegions s d) : exactTotal s d = 0 := by
  rw [exactTotal_eq_sum]
  refine Finset.sum_eq_zero fun ty hty => Finset.sum_eq_zero fun tx htx => ?_
  rw [memDelta, energy_memTile_congr rfl rfl h (Finset.mem_range.1 hty) (Finset.mem_range.1 htx), sub_self,
    Int.natAbs_zero]

theorem exactTotal_of_exchanged {s t : State} {d : Depth} (hw : t.regs.width = s.regs.width)
    (hh : t.regs.height = s.regs.height) (hsad : t.sadPort = s.sadPort)
    (h : ∀ row < s.regs.height.toNat, ∀ col < s.regs.width.toNat,
      memSample t.mem t.regs d .a row col = memSample s.mem s.regs d .b row col ∧
        memSample t.mem t.regs d .b row col = memSample s.mem s.regs d .a row col) :
    exactTotal t d = exactTotal s d := by
  have hsize := tileSize_congr hw hh
  rw [exactTotal_eq_sum, exactTotal_eq_sum, hsize, hw, hh]
  refine Finset.sum_congr rfl fun ty hty => Finset.sum_congr rfl fun tx htx => ?_
  have hA := energy_memTile_congr hw hh (fun row hr col hc => (h row hr col hc).1) (Finset.mem_range.1 hty)
    (Finset.mem_range.1 htx) s.sadPort
  have hB := energy_memTile_congr hw hh (fun row hr col hc => (h row hr col hc).2) (Finset.mem_range.1 hty)
    (Finset.mem_range.1 htx) s.sadPort
  rw [memDelta, memDelta, hsize, hsad, hA, hB, ← Int.natAbs_neg, neg_sub]

/-- Settles O36: equal tiles have equal energies, and exchanged tiles the same distance of energies. -/
theorem distortionIsSymmetricAndZeroOnEqualRegions : Obligations.DistortionIsSymmetricAndZeroOnEqualRegions := by
  refine ⟨fun s d _ _ hsame => ?_, fun s t d _ _ hw hh hsad h => ?_⟩
  · have htotal := exactTotal_of_sameRegions hsame
    refine ⟨htotal, ?_⟩
    rw [regionDistortion_eq_normalise, htotal]
    cases d <;> rfl
  · rw [regionDistortion_eq_normalise, regionDistortion_eq_normalise, exactTotal_of_exchanged hw hh hsad h]

end Sys2Proof.Machine
end

section
/-! PROOFS. O37, O38, O39: the scalar arithmetic (44_bias_and_entry.md R216 to R219). A magnitude is a natural number
`M` of units 2^(-2150). `roundMagnitude` takes it to the nearest multiple of the spacing of the grid around it; every
finite value is such a multiple, or lies below the binade of `M` and is farther away. -/

namespace Sys2Proof.Machine

/-! ### Division with ties to even -/

section
variable (m j : Nat)

theorem nearestEven_zero : nearestEven 0 j = 0 := by simp [nearestEven]

/-- Powers of two cancel: only the quotient counts. -/
theorem nearestEven_mul_pow (k : Nat) : nearestEven (m * 2 ^ k) (j + k) = nearestEven m j := by
  have hk : 0 < 2 ^ k := Nat.two_pow_pos k
  have hmod : 2 ^ j * 2 ^ k < 2 * (m % 2 ^ j * 2 ^ k) ↔ 2 ^ j < 2 * (m % 2 ^ j) := by
    rw [← mul_assoc, Nat.mul_lt_mul_right hk]
  have htie : 2 * (m % 2 ^ j * 2 ^ k) = 2 ^ j * 2 ^ k ↔ 2 * (m % 2 ^ j) = 2 ^ j := by
    rw [← mul_assoc, Nat.mul_left_inj hk.ne']
  simp only [nearestEven, pow_add, Nat.mul_div_mul_right _ _ hk, Nat.mul_mod_mul_right, hmod, htie]

theorem nearestEven_of_le {k : Nat} (h : j ≤ k) : nearestEven (m * 2 ^ k) j = m * 2 ^ (k - j) := by
  obtain ⟨i, rfl⟩ := Nat.exists_eq_add_of_le h
  have := nearestEven_mul_pow (m * 2 ^ i) 0 j
  rw [mul_assoc, ← pow_add, Nat.add_comm i j, Nat.zero_add] at this
  rw [this, Nat.add_sub_cancel_left]
  simp [nearestEven, Nat.mod_one]

theorem nearestEven_mul_of_dvd (h : 2 ^ j ∣ m) : nearestEven m j * 2 ^ j = m := by
  obtain ⟨n, rfl⟩ := h
  rw [mul_comm, mul_comm (2 ^ j) n, nearestEven_of_le n j le_rfl, Nat.sub_self, pow_zero, mul_one, mul_comm]

/-- The multiple of 2^j that `nearestEven` picks is at most half a step away, and even where it is that far. -/
theorem nearestEven_close : 2 * |(nearestEven m j * 2 ^ j : Nat) - (m : Int)| ≤ (2 ^ j : Nat) ∧
    (2 * |(nearestEven m j * 2 ^ j : Nat) - (m : Int)| = (2 ^ j : Nat) → nearestEven m j % 2 = 0) := by
  have hm : m / 2 ^ j * 2 ^ j + m % 2 ^ j = m := Nat.div_add_mod' m _
  have hr : m % 2 ^ j < 2 ^ j := Nat.mod_lt m (Nat.two_pow_pos j)
  by_cases hup : 2 ^ j < 2 * (m % 2 ^ j) ∨ (2 * (m % 2 ^ j) = 2 ^ j ∧ m / 2 ^ j % 2 = 1)
  · have herr : (((m / 2 ^ j + 1) * 2 ^ j : Nat) : Int) - m = (2 ^ j : Nat) - (m % 2 ^ j : Nat) := by
      rw [Nat.add_one_mul]
      omega
    rw [show nearestEven m j = m / 2 ^ j + 1 from if_pos hup, herr, abs_of_nonneg (by omega)]
    omega
  · have herr : ((m / 2 ^ j * 2 ^ j : Nat) : Int) - m = -(m % 2 ^ j : Nat) := by omega
    rw [show nearestEven m j = m / 2 ^ j from if_neg hup, herr, abs_neg, Nat.abs_cast]
    omega

/-- No multiple of 2^j is nearer than the one `nearestEven` picks, and that one is even where another is as near. -/
theorem nearestEven_nearest (n : Int) :
    |(nearestEven m j * 2 ^ j : Nat) - (m : Int)| ≤ |n * (2 ^ j : Nat) - (m : Int)| ∧
      (|(nearestEven m j * 2 ^ j : Nat) - (m : Int)| = |n * (2 ^ j : Nat) - (m : Int)| →
        n ≠ nearestEven m j → nearestEven m j % 2 = 0) := by
  obtain ⟨hclose, heven⟩ := nearestEven_close m j
  by_cases hn : n = nearestEven m j
  case pos =>
    subst hn
    exact ⟨(Int.natCast_mul _ _ ▸ le_rfl), fun _ h => absurd rfl h⟩
  have hstep : ((2 ^ j : Nat) : Int) ≤ |n * (2 ^ j : Nat) - (nearestEven m j * 2 ^ j : Nat)| := by
    rw [Int.natCast_mul, ← sub_mul, abs_mul, Nat.abs_cast]
    exact le_mul_of_one_le_left (Int.natCast_nonneg _) (Int.one_le_abs (sub_ne_zero.2 hn))
  have htriangle := abs_sub_le (n * (2 ^ j : Nat)) (m : Int) (nearestEven m j * 2 ^ j : Nat)
  rw [abs_sub_comm (m : Int)] at htriangle
  exact ⟨by omega, fun heq _ => heven (by omega)⟩

variable {m j} {n : Nat}

theorem nearestEven_le (h : m ≤ n * 2 ^ j) : nearestEven m j ≤ n := by
  by_contra hlt
  have hstep := Nat.mul_le_mul_right (2 ^ j) (Nat.succ_le_of_lt (not_le.1 hlt))
  have hclose := (nearestEven_close m j).1
  have habs := le_abs_self ((nearestEven m j * 2 ^ j : Nat) - (m : Int))
  have hpos := Nat.two_pow_pos j
  rw [Nat.succ_mul] at hstep
  omega

theorem le_nearestEven (h : n * 2 ^ j ≤ m) : n ≤ nearestEven m j := by
  by_contra hlt
  have hstep := Nat.mul_le_mul_right (2 ^ j) (Nat.succ_le_of_lt (not_le.1 hlt))
  have hclose := (nearestEven_close m j).1
  have habs := neg_le_abs ((nearestEven m j * 2 ^ j : Nat) - (m : Int))
  have hpos := Nat.two_pow_pos j
  rw [Nat.succ_mul] at hstep
  omega

/-- Above an odd multiple of 2^j the next one is picked from the midpoint on. -/
theorem lt_nearestEven_iff (hn : n % 2 = 1) : n < nearestEven m j ↔ (2 * n + 1) * 2 ^ j ≤ 2 * m := by
  obtain ⟨hclose, heven⟩ := nearestEven_close m j
  have hhalf : (2 * n + 1) * 2 ^ j = 2 * (n * 2 ^ j) + 2 ^ j := by ring
  rw [hhalf]
  constructor
  · intro h
    have hstep := Nat.mul_le_mul_right (2 ^ j) (Nat.succ_le_of_lt h)
    have habs := le_abs_self ((nearestEven m j * 2 ^ j : Nat) - (m : Int))
    rw [Nat.succ_mul] at hstep
    omega
  · intro h
    by_contra hle
    have hstep := Nat.mul_le_mul_right (2 ^ j) (not_lt.1 hle)
    have habs := neg_le_abs ((nearestEven m j * 2 ^ j : Nat) - (m : Int))
    have hsteps : nearestEven m j * 2 ^ j = n * 2 ^ j := by omega
    have hsame : nearestEven m j = n := Nat.eq_of_mul_eq_mul_right (Nat.two_pow_pos j) hsteps
    have := heven (by omega)
    omega

end

/-! ### The grid around a magnitude (R216) -/

/-- The exponent of the spacing of binary64 values around the magnitude M, in units of 2^(-2150). -/
def grid (M : Nat) : Nat := gridExponent M 0

/-- How many steps of its grid the rounding of M is. -/
def gridSteps (M : Nat) : Nat := nearestEven M (grid M)

/-- The rounding of M in units of 2^(-2150), with no bound on the exponent. -/
def gridRound (M : Nat) : Nat := gridSteps M * 2 ^ grid M

/-- The pattern of the rounding of M, before magnitudes from 2^1024 on become infinity. -/
def gridPattern (M : Nat) : Nat := (grid M - 1076) * 2 ^ 52 + gridSteps M

theorem log2_mul_two_pow {m : Nat} (h : m ≠ 0) (k : Nat) : (m * 2 ^ k).log2 = m.log2 + k := by
  rw [Nat.log2_eq_iff (Nat.mul_ne_zero h (Nat.two_pow_pos k).ne')]
  refine ⟨?_, ?_⟩
  · rw [pow_add]
    exact Nat.mul_le_mul_right _ (Nat.log2_self_le h)
  · rw [Nat.add_right_comm, pow_add]
    exact Nat.mul_lt_mul_of_pos_right Nat.lt_log2_self (Nat.two_pow_pos k)

/-- The rounding of m * 2^k depends on the product alone. -/
theorem roundMagnitude_eq (m k : Nat) : roundMagnitude m k = min (gridPattern (m * 2 ^ k)) infPattern := by
  by_cases hm : m = 0
  case pos =>
    subst hm
    simp [roundMagnitude, gridPattern, gridSteps, grid, gridExponent, nearestEven_zero]
  have hgrid : grid (m * 2 ^ k) = gridExponent m k := by
    rw [grid, gridExponent, gridExponent, log2_mul_two_pow hm, Nat.add_zero]
  rw [roundMagnitude, if_neg hm, gridPattern, gridSteps, hgrid]
  by_cases hk : gridExponent m k ≤ k
  · simp only [if_pos hk, nearestEven_of_le m _ hk]
  · have hcancel := nearestEven_mul_pow m (gridExponent m k - k) k
    rw [Nat.sub_add_cancel (Nat.le_of_not_le hk)] at hcancel
    simp only [if_neg hk, hcancel]

section
variable (M : Nat)

theorem le_grid : 1076 ≤ grid M := le_max_right _ _

theorem lt_two_pow_grid : M < 2 ^ (53 + grid M) :=
  Nat.lt_log2_self.trans_le (Nat.pow_le_pow_right (by decide) (by simp only [grid, gridExponent]; omega))

variable {M}

/-- Above the least exponent the grid lies 52 below the leading bit of M. -/
theorem two_pow_grid_le (h : 1076 < grid M) : 2 ^ (52 + grid M) ≤ M := by
  have hlog : grid M = M.log2 - 52 := by simp only [grid, gridExponent] at h ⊢; omega
  have hM : M ≠ 0 := by rintro rfl; simp [hlog] at h
  exact (Nat.pow_le_pow_right (by decide) (by omega)).trans (Nat.log2_self_le hM)

variable (M)

theorem gridRound_close : 2 * |(gridRound M : Int) - M| ≤ (2 ^ grid M : Nat) := (nearestEven_close M (grid M)).1

theorem gridRound_of_dvd (h : 2 ^ grid M ∣ M) : gridRound M = M := nearestEven_mul_of_dvd M (grid M) h

theorem gridSteps_le : gridSteps M ≤ 2 ^ 53 :=
  nearestEven_le (by rw [← pow_add]; exact (lt_two_pow_grid M).le)

variable {M}

theorem le_gridSteps (h : 1076 < grid M) : 2 ^ 52 ≤ gridSteps M :=
  le_nearestEven (by rw [← pow_add]; exact two_pow_grid_le h)

/-- The last half step of a binade, and all above it: there the steps round up to the next binade. -/
theorem last_half_step_le_iff {k : Nat} (hk : 1076 ≤ k) :
    (2 ^ 54 - 1) * 2 ^ k ≤ M ↔ k + 1 < grid M ∨ (grid M = k + 1 ∧ 2 ^ 53 - 1 < gridSteps M) := by
  rcases lt_trichotomy (grid M) (k + 1) with h | h | h
  · have hM : M < (2 ^ 54 - 1) * 2 ^ k := calc
      M < 2 ^ (53 + grid M) := lt_two_pow_grid M
      _ ≤ 2 ^ (53 + k) := Nat.pow_le_pow_right two_pos (by omega)
      _ = 2 ^ 53 * 2 ^ k := pow_add 2 53 k
      _ ≤ (2 ^ 54 - 1) * 2 ^ k := Nat.mul_le_mul_right _ (by decide)
    exact iff_of_false hM.not_ge (by omega)
  · have hlast : 2 ^ 53 - 1 < gridSteps M ↔ (2 * (2 ^ 53 - 1) + 1) * 2 ^ (k + 1) ≤ 2 * M := by
      rw [gridSteps, h, lt_nearestEven_iff (by decide)]
    have hhalf : (2 * (2 ^ 53 - 1) + 1) * 2 ^ (k + 1) = 2 * ((2 ^ 54 - 1) * 2 ^ k) := by
      rw [pow_succ]
      omega
    rw [hhalf, Nat.mul_le_mul_left_iff two_pos] at hlast
    rw [← hlast]
    omega
  · have hM : (2 ^ 54 - 1) * 2 ^ k ≤ M := calc
      (2 ^ 54 - 1) * 2 ^ k ≤ 2 ^ 54 * 2 ^ k := Nat.mul_le_mul_right _ (by decide)
      _ = 2 ^ (54 + k) := (pow_add 2 54 k).symm
      _ ≤ 2 ^ (52 + grid M) := Nat.pow_le_pow_right two_pos (by omega)
      _ ≤ M := two_pow_grid_le (by omega)
    exact iff_of_true hM (.inl h)

/-- The pattern is infinity's or above exactly from 2^1024 - 2^970 on (R216). -/
theorem infPattern_le_gridPattern_iff : infPattern ≤ gridPattern M ↔ (2 ^ 54 - 1) * 2 ^ 3120 ≤ M := by
  have hsteps := gridSteps_le M
  have hlow := le_grid M
  have hnormal := le_gridSteps (M := M)
  rw [last_half_step_le_iff (by decide), infPattern, gridPattern]
  omega

end

/-! ### The fields of a signed pattern (R216) -/

section
variable (negative : Bool) {u : Nat} (hu : u < 2 ^ 63)
include hu

theorem toNat_withSign : (withSign negative u).toNat = negative.toNat * 2 ^ 63 + u := by
  rw [withSign, BitVec.toNat_ofNat, Nat.mod_eq_of_lt]
  have := negative.toNat_le
  omega

theorem signBit_withSign : signBit (withSign negative u) = negative := by
  rw [signBit, BitVec.getLsbD, toNat_withSign negative hu, Nat.testBit_eq_decide_div_mod_eq]
  cases negative <;> simp <;> omega

theorem expField_withSign : expField (withSign negative u) = u / 2 ^ 52 := by
  rw [expField, toNat_withSign negative hu]
  omega

theorem fracField_withSign : fracField (withSign negative u) = u % 2 ^ 52 := by
  rw [fracField, toNat_withSign negative hu]
  omega

end

theorem isInf_withSign_infPattern (negative : Bool) :
    isInf (withSign negative infPattern) = true ∧ signBit (withSign negative infPattern) = negative := by
  cases negative <;> decide

theorem isFinite_withSign (negative : Bool) {u : Nat} (h : u < infPattern) : isFinite (withSign negative u) = true := by
  rw [infPattern] at h
  rw [isFinite, expField_withSign negative (by omega), bne_iff_ne]
  omega

/-! ### The value of a pattern (R216) -/

/-- The magnitude of a finite pattern in units of 2^(-2150). -/
def scaledMagnitude (x : Word) : Nat := significand x * 2 ^ (scale x + 1075)

/-- The sign of a pattern with this sign bit. -/
def signFactor (negative : Bool) : Int := if negative then -1 else 1

theorem signFactor_mul_self (negative : Bool) : signFactor negative * signFactor negative = 1 := by
  cases negative <;> rfl

theorem abs_signFactor (negative : Bool) : |signFactor negative| = 1 := by cases negative <;> rfl

theorem abs_signFactor_mul (negative : Bool) (t : Int) : |signFactor negative * t| = |t| := by
  rw [abs_mul, abs_signFactor, one_mul]

theorem signFactor_xor (a b : Bool) : signFactor (a ^^ b) = signFactor a * signFactor b := by
  cases a <;> cases b <;> rfl

theorem cast_signFactor (negative : Bool) : ((signFactor negative : Int) : ℚ) = if negative then -1 else 1 := by
  cases negative <;> simp [signFactor]

/-- A finite pattern's value in units of 2^(-2150). -/
def scaledValue (x : Word) : Int := signFactor (signBit x) * scaledMagnitude x

theorem realValue_eq (x : Word) : realValue x = (scaledValue x : ℚ) / 2 ^ 2150 := by
  have hmagnitude : (scaledMagnitude x : ℚ) / 2 ^ 2150 = significand x * 2 ^ scale x / 2 ^ 1075 := by
    rw [scaledMagnitude, Nat.cast_mul, Nat.cast_pow, Nat.cast_ofNat, pow_add, ← mul_assoc,
      show (2 : ℚ) ^ 2150 = 2 ^ 1075 * 2 ^ 1075 from pow_add 2 1075 1075,
      mul_div_mul_right _ _ (pow_ne_zero _ two_ne_zero)]
  rw [realValue, scaledValue, Int.cast_mul, cast_signFactor, Int.cast_natCast,
    mul_div_assoc _ (scaledMagnitude x : ℚ), hmagnitude]

theorem abs_realValue (x : Word) : |realValue x| = (scaledMagnitude x : ℚ) / 2 ^ 2150 := by
  rw [realValue_eq, scaledValue, abs_div, ← Int.cast_abs, abs_signFactor_mul, Nat.abs_cast, Int.cast_natCast,
    abs_of_nonneg (by positivity : (0 : ℚ) ≤ 2 ^ 2150)]

theorem significand_lt (x : Word) : significand x < 2 ^ 53 := by
  rw [significand, fracField]
  split <;> omega

theorem one_le_scale (x : Word) : 1 ≤ scale x := le_max_right _ _

/-- Every finite value is a multiple of the least subnormal. -/
theorem dvd_scaledMagnitude (x : Word) : 2 ^ 1076 ∣ scaledMagnitude x :=
  Dvd.dvd.mul_left (pow_dvd_pow 2 (by have := one_le_scale x; omega)) _

/-- A finite value has at most 53 digits: it is a multiple of 2^e, or lies below the 53rd digit from there. -/
theorem dvd_scaledMagnitude_or_lt (x : Word) (e : Nat) :
    2 ^ e ∣ scaledMagnitude x ∨ scaledMagnitude x < 2 ^ (52 + e) := by
  rcases le_or_gt e (scale x + 1075) with h | h
  · exact .inl (Dvd.dvd.mul_left (pow_dvd_pow 2 h) _)
  · refine .inr ?_
    calc scaledMagnitude x
      _ < 2 ^ 53 * 2 ^ (scale x + 1075) := Nat.mul_lt_mul_of_pos_right (significand_lt x) (Nat.two_pow_pos _)
      _ = 2 ^ (53 + (scale x + 1075)) := (pow_add 2 53 _).symm
      _ ≤ 2 ^ (52 + e) := Nat.pow_le_pow_right two_pos (by omega)

/-- The pattern of a rounding has its value: a carry out of the significand is a carry into the exponent field. -/
theorem scaledMagnitude_withSign_gridPattern (negative : Bool) {M : Nat} (h : gridPattern M < infPattern) :
    scaledMagnitude (withSign negative (gridPattern M)) = gridRound M := by
  have hsteps := gridSteps_le M
  have hlow := le_grid M
  have hnormal := le_gridSteps (M := M)
  have hu : gridPattern M < 2 ^ 63 := h.trans (by decide)
  have hexp := expField_withSign negative hu
  have hfrac := fracField_withSign negative hu
  set x := withSign negative (gridPattern M)
  rw [gridPattern] at hexp hfrac
  have magnitude_eq {sig e : Nat} (hsig : significand x = sig) (he : scale x + 1075 = e) :
      scaledMagnitude x = sig * 2 ^ e := by rw [scaledMagnitude, hsig, he]
  rw [gridRound]
  rcases lt_or_eq_of_le hsteps with hlt | heq
  · refine magnitude_eq ?_ ?_
    · rw [significand]
      split <;> omega
    · rw [scale]
      omega
  · have hcarry : scaledMagnitude x = 2 ^ 52 * 2 ^ (grid M + 1) := by
      refine magnitude_eq ?_ ?_
      · rw [significand, if_neg (by omega)]
        omega
      · rw [scale]
        omega
    rw [hcarry, heq, pow_succ]
    omega

theorem scaledValue_withSign_gridPattern (negative : Bool) {M : Nat} (h : gridPattern M < infPattern) :
    scaledValue (withSign negative (gridPattern M)) = signFactor negative * gridRound M := by
  rw [scaledValue, signBit_withSign negative (h.trans (by decide)), scaledMagnitude_withSign_gridPattern negative h]

/-! ### The rounding is nearest (R216) -/

/-- No number of the form of a finite value is nearer to M than its rounding, and that one is even where another is
as near: a multiple of the grid by `nearestEven_nearest`; one below the binade of M is farther than the binade's
least value. -/
theorem gridRound_nearest (M : Nat) {t : Int} (ht : ((2 ^ 1076 : Nat) : Int) ∣ t)
    (h : ((2 ^ grid M : Nat) : Int) ∣ t ∨ |t| < (2 ^ (52 + grid M) : Nat)) :
    |(gridRound M : Int) - M| ≤ |t - M| ∧
      (|(gridRound M : Int) - M| = |t - M| → t ≠ gridRound M → gridSteps M % 2 = 0) := by
  have multiple {t : Int} (h : ((2 ^ grid M : Nat) : Int) ∣ t) : |(gridRound M : Int) - M| ≤ |t - M| ∧
      (|(gridRound M : Int) - M| = |t - M| → t ≠ gridRound M → gridSteps M % 2 = 0) := by
    obtain ⟨n, rfl⟩ := h
    rw [mul_comm]
    obtain ⟨hle, heven⟩ := nearestEven_nearest M (grid M) n
    exact ⟨hle, fun heq hne => heven heq fun hn => hne (by rw [hn, gridRound, gridSteps, Nat.cast_mul])⟩
  rcases h with h | h
  case inl => exact multiple h
  by_cases hgrid : 1076 < grid M
  case neg =>
    have hleast : grid M = 1076 := le_antisymm (not_lt.1 hgrid) (le_grid M)
    exact multiple (hleast ▸ ht)
  have hbinade := two_pow_grid_le hgrid
  have hleast := (multiple (t := (2 ^ (52 + grid M) : Nat)) (Int.natCast_dvd_natCast.2
    (pow_dvd_pow 2 (Nat.le_add_left _ _)))).1
  have hfar : |((2 ^ (52 + grid M) : Nat) : Int) - M| < |t - M| := by
    rw [abs_sub_comm, abs_sub_comm t, abs_of_nonneg (by omega)]
    have := le_abs_self t
    exact (by omega : _ < (M : Int) - t).trans_le (le_abs_self _)
  exact ⟨(hleast.trans_lt hfar).le, fun heq => absurd heq (hleast.trans_lt hfar).ne⟩

theorem gridRound_nearest_scaledValue (negative : Bool) (M : Nat) (z : Word) :
    |(gridRound M : Int) - M| ≤ |signFactor negative * scaledValue z - M| ∧
      (|(gridRound M : Int) - M| = |signFactor negative * scaledValue z - M| →
        signFactor negative * scaledValue z ≠ gridRound M → gridSteps M % 2 = 0) := by
  have habs : |signFactor negative * scaledValue z| = scaledMagnitude z := by
    rw [scaledValue, abs_signFactor_mul, abs_signFactor_mul, Nat.abs_cast]
  have hdvd (e : Nat) : ((2 ^ e : Nat) : Int) ∣ signFactor negative * scaledValue z ↔ 2 ^ e ∣ scaledMagnitude z := by
    rw [← dvd_abs, habs, Int.natCast_dvd_natCast]
  refine gridRound_nearest M ((hdvd 1076).2 (dvd_scaledMagnitude z)) ?_
  rw [hdvd, habs, Int.ofNat_lt]
  exact dvd_scaledMagnitude_or_lt z (grid M)

theorem abs_realValue_sub (x : Word) (negative : Bool) (M : Nat) :
    |realValue x - (signFactor negative * M : Int) / 2 ^ 2150| =
      ((|signFactor negative * scaledValue x - M| : Int) : ℚ) / 2 ^ 2150 := by
  have hfactor : scaledValue x - signFactor negative * M =
      signFactor negative * (signFactor negative * scaledValue x - M) := by
    linear_combination (-scaledValue x) * signFactor_mul_self negative
  rw [realValue_eq, div_sub_div_same, ← Int.cast_sub, hfactor, abs_div, ← Int.cast_abs, abs_signFactor_mul,
    abs_of_nonneg (by positivity : (0 : ℚ) ≤ 2 ^ 2150)]

/-- The threshold of infinity in units of 2^(-2150). -/
theorem threshold_le_iff (M : Nat) :
    (2 : ℚ) ^ 1024 - 2 ^ 970 ≤ (M : ℚ) / 2 ^ 2150 ↔ (2 ^ 54 - 1) * 2 ^ 3120 ≤ M := by
  have hthreshold : ((2 : ℚ) ^ 1024 - 2 ^ 970) * 2 ^ 2150 = (((2 ^ 54 - 1) * 2 ^ 3120 : Nat) : ℚ) := by
    rw [show (2 : ℚ) ^ 1024 = 2 ^ 54 * 2 ^ 970 from pow_add 2 54 970, ← sub_one_mul, mul_assoc,
      show (2 : ℚ) ^ 970 * 2 ^ 2150 = 2 ^ 3120 from (pow_add 2 970 2150).symm, Nat.cast_mul, Nat.cast_pow]
    norm_num
  rw [le_div_iff₀ (by positivity), hthreshold, Nat.cast_le]

/-- `roundMagnitude` rounds correctly (R216). -/
theorem isRoundingOf_withSign (negative : Bool) (M : Nat) :
    isRoundingOf negative ((signFactor negative * M : Int) / 2 ^ 2150)
      (withSign negative (min (gridPattern M) infPattern)) := by
  have habs : |((signFactor negative * M : Int) : ℚ) / 2 ^ 2150| = (M : ℚ) / 2 ^ 2150 := by
    rw [abs_div, ← Int.cast_abs, abs_signFactor_mul, Nat.abs_cast, Int.cast_natCast,
      abs_of_nonneg (by positivity : (0 : ℚ) ≤ 2 ^ 2150)]
  rw [isRoundingOf, habs]
  by_cases h : infPattern ≤ gridPattern M
  case pos =>
    rw [min_eq_right h, if_pos ((threshold_le_iff M).2 (infPattern_le_gridPattern_iff.1 h))]
    exact (isInf_withSign_infPattern negative).symm
  case neg =>
    have hlt : gridPattern M < infPattern := not_le.1 h
    have hu : gridPattern M < 2 ^ 63 := hlt.trans (by decide)
    have hvalue := scaledValue_withSign_gridPattern negative hlt
    have hsteps : signFactor negative * scaledValue (withSign negative (gridPattern M)) = gridRound M := by
      rw [hvalue, ← mul_assoc, signFactor_mul_self, one_mul]
    have hfrac : fracField (withSign negative (gridPattern M)) % 2 = gridSteps M % 2 := by
      rw [fracField_withSign negative hu, gridPattern]
      omega
    rw [min_eq_left hlt.le, if_neg fun h' => h (infPattern_le_gridPattern_iff.2 ((threshold_le_iff M).1 h'))]
    refine ⟨signBit_withSign negative hu, isFinite_withSign negative hlt, fun z _ => ?_⟩
    obtain ⟨hnear, heven⟩ := gridRound_nearest_scaledValue negative M z
    rw [abs_realValue_sub, abs_realValue_sub, hsteps, div_le_div_iff_of_pos_right (by positivity), Int.cast_le,
      div_left_inj' (by positivity), Int.cast_inj, hfrac]
    refine ⟨hnear, fun heq hne => heven heq fun hsame => hne ?_⟩
    rw [realValue_eq, realValue_eq, hvalue, ← hsame, ← mul_assoc, signFactor_mul_self, one_mul]

/-! ### The product (R217) -/

theorem isFinite_iff (x : Word) : isFinite x = true ↔ isNaN x = false ∧ isInf x = false := by
  simpa using (isFinite_eq_false_iff x).not

section
variable (x y : Word)

/-- The product of these two patterns has no value: a NaN operand, or zero times infinity (R217). -/
def isInvalidProduct : Bool := isNaN x || isNaN y || (isInf x && isZero y) || (isZero x && isInf y)

/-- The exact magnitude of the product of two finite patterns, in units of 2^(-2150). -/
def productMagnitude : Nat := significand x * significand y * 2 ^ (scale x + scale y)

theorem isInvalidProduct_comm : isInvalidProduct x y = isInvalidProduct y x := by
  rw [Bool.eq_iff_iff]
  simp only [isInvalidProduct, Bool.or_eq_true, Bool.and_eq_true]
  tauto

theorem fmul64_comm : fmul64 x y = fmul64 y x := by
  have hinvalid := isInvalidProduct_comm x y
  rw [isInvalidProduct, isInvalidProduct] at hinvalid
  simp only [fmul64, hinvalid, Bool.xor_comm (signBit x), Bool.or_comm (isInf x), mul_comm (significand x),
    add_comm (scale x)]

theorem scaledMagnitude_mul : scaledMagnitude x * scaledMagnitude y = productMagnitude x y * 2 ^ (1075 + 1075) := by
  have regroup (s t i j k : Nat) : s * 2 ^ (i + k) * (t * 2 ^ (j + k)) = s * t * 2 ^ (i + j) * 2 ^ (k + k) := by ring
  exact regroup _ _ _ _ 1075

theorem scaledValue_mul : scaledValue x * scaledValue y =
    signFactor (signBit x ^^ signBit y) * productMagnitude x y * 2 ^ (1075 + 1075) := by
  rw [scaledValue, scaledValue, signFactor_xor, mul_mul_mul_comm, ← Nat.cast_mul, scaledMagnitude_mul, Nat.cast_mul,
    Nat.cast_pow, Nat.cast_ofNat, mul_assoc _ (productMagnitude x y : Int)]

theorem realValue_mul : realValue x * realValue y =
    (signFactor (signBit x ^^ signBit y) * productMagnitude x y : Int) / 2 ^ 2150 := by
  have hunits : ((2 ^ (1075 + 1075) : Int) : ℚ) = 2 ^ 2150 := by rw [Int.cast_pow, Int.cast_ofNat]
  rw [realValue_eq, realValue_eq, div_mul_div_comm, ← Int.cast_mul, scaledValue_mul, Int.cast_mul, hunits,
    mul_div_mul_right _ _ (pow_ne_zero _ two_ne_zero)]

variable {x y}

theorem fmul64_of_invalid (h : isInvalidProduct x y = true) : fmul64 x y = Config.canonicalNaN := if_pos h

theorem fmul64_of_infinite (h : isInvalidProduct x y = false) (hinf : isInf x = true ∨ isInf y = true) :
    fmul64 x y = withSign (signBit x ^^ signBit y) infPattern :=
  (if_neg (by simpa [isInvalidProduct] using h)).trans (if_pos (by simpa using hinf))

theorem fmul64_of_finite (hx : isFinite x = true) (hy : isFinite y = true) :
    fmul64 x y = withSign (signBit x ^^ signBit y) (min (gridPattern (productMagnitude x y)) infPattern) := by
  obtain ⟨hxn, hxi⟩ := (isFinite_iff x).1 hx
  obtain ⟨hyn, hyi⟩ := (isFinite_iff y).1 hy
  simp [fmul64, hxn, hyn, hxi, hyi, roundMagnitude_eq, productMagnitude]

/-- The product of finite patterns is correctly rounded (R217). -/
theorem isRoundingOf_fmul64 (hx : isFinite x = true) (hy : isFinite y = true) :
    isRoundingOf (signBit x ^^ signBit y) (realValue x * realValue y) (fmul64 x y) := by
  rw [fmul64_of_finite hx hy, realValue_mul]
  exact isRoundingOf_withSign _ _

theorem productMagnitude_of_isZero (h : isZero x = true ∨ isZero y = true) : productMagnitude x y = 0 := by
  have significand_of_isZero {z : Word} (hz : isZero z = true) : significand z = 0 := by
    obtain ⟨hexp, hfrac⟩ : expField z = 0 ∧ fracField z = 0 := by simpa [isZero] using hz
    rw [significand, if_pos hexp, hfrac]
  rw [productMagnitude]
  rcases h with h | h <;> simp [significand_of_isZero h]

end

theorem gridPattern_zero : gridPattern 0 = 0 := by
  simp [gridPattern, gridSteps, grid, gridExponent, nearestEven_zero]

theorem isZero_withSign_zero (negative : Bool) :
    isZero (withSign negative 0) = true ∧ signBit (withSign negative 0) = negative := by
  cases negative <;> decide

/-- Settles O37: the cases of `fmul64`, and `isRoundingOf_withSign` on the exact product. -/
theorem productIsCorrectlyRounded : Obligations.ProductIsCorrectlyRounded := by
  refine fun x y => ⟨fmul64_comm x y, fun h => ?_, fun hxn hyn hxz hyz hinf => ?_, fun hx hy hz => ?_,
    isRoundingOf_fmul64⟩
  · exact fmul64_of_invalid (by simpa [isInvalidProduct, or_assoc] using h)
  · rw [fmul64_of_infinite (by simp [isInvalidProduct, hxn, hyn, hxz, hyz]) hinf]
    exact isInf_withSign_infPattern _
  · rw [fmul64_of_finite hx hy, productMagnitude_of_isZero hz, gridPattern_zero]
    exact isZero_withSign_zero _

/-! ### The conversion (R218) -/

theorem grid_le {M e : Nat} (he : 1076 ≤ e) (h : M < 2 ^ (53 + e)) : grid M ≤ e := by
  rw [grid, gridExponent]
  by_cases hM : M = 0
  · simp [hM, he]
  · have := (Nat.log2_lt hM).2 h
    omega

/-- An integer of n bits has a spacing of n - 53 bits, or is exact. -/
theorem grid_mul_two_pow_le {m n k : Nat} (hn : 53 ≤ n) (hk : 1076 ≤ k) (h : m < 2 ^ n) :
    grid (m * 2 ^ k) ≤ n - 53 + k := by
  refine grid_le (by omega) ?_
  rw [show 53 + (n - 53 + k) = n + k by omega, pow_add]
  exact Nat.mul_lt_mul_of_pos_right h (Nat.two_pow_pos k)

theorem gridPattern_lt_infPattern {M : Nat} (h : grid M ≤ 3120) : gridPattern M < infPattern := by
  have := gridSteps_le M
  rw [gridPattern, infPattern]
  omega

theorem cvtU64_eq (D : Word) :
    cvtU64 D = withSign false (min (gridPattern (D.toNat * 2 ^ 2150)) infPattern) := by
  rw [cvtU64, roundMagnitude_eq, withSign, Bool.toNat_false, Nat.zero_mul, Nat.zero_add]

theorem gridPattern_total_lt (D : Word) : gridPattern (D.toNat * 2 ^ 2150) < infPattern :=
  gridPattern_lt_infPattern ((grid_mul_two_pow_le (by decide) (by decide) D.isLt).trans (by decide))

theorem cvtU64_eq_withSign (D : Word) : cvtU64 D = withSign false (gridPattern (D.toNat * 2 ^ 2150)) := by
  rw [cvtU64_eq, min_eq_left (gridPattern_total_lt D).le]

theorem isFinite_cvtU64 (D : Word) : isFinite (cvtU64 D) = true := by
  rw [cvtU64_eq_withSign]
  exact isFinite_withSign _ (gridPattern_total_lt D)

theorem signBit_cvtU64 (D : Word) : signBit (cvtU64 D) = false := by
  rw [cvtU64_eq_withSign]
  exact signBit_withSign _ ((gridPattern_total_lt D).trans (by decide))

theorem scaledMagnitude_cvtU64 (D : Word) : scaledMagnitude (cvtU64 D) = gridRound (D.toNat * 2 ^ 2150) := by
  rw [cvtU64_eq_withSign]
  exact scaledMagnitude_withSign_gridPattern _ (gridPattern_total_lt D)

theorem gridRound_total {D : Nat} (h : D < 2 ^ 53) : gridRound (D * 2 ^ 2150) = D * 2 ^ 2150 := by
  have hgrid : grid (D * 2 ^ 2150) ≤ 2150 := grid_mul_two_pow_le (by decide) (by decide) h
  exact gridRound_of_dvd _ (Dvd.dvd.mul_left (pow_dvd_pow 2 hgrid) _)

/-- A total D is D * 2^2150 units. -/
theorem total_units (D : Nat) : ((signFactor false * (D * 2 ^ 2150 : Nat) : Int) : ℚ) / 2 ^ 2150 = D := by
  rw [show signFactor false = 1 from rfl, one_mul, Int.cast_natCast, Nat.cast_mul, Nat.cast_pow, Nat.cast_ofNat,
    mul_div_cancel_right₀ _ (pow_ne_zero _ two_ne_zero)]

theorem realValue_cvtU64 {D : Word} (h : D.toNat < 2 ^ 53) : realValue (cvtU64 D) = D.toNat := by
  rw [realValue_eq, scaledValue, signBit_cvtU64, scaledMagnitude_cvtU64, gridRound_total h, total_units]

/-- Settles O38: the conversion rounds D * 2^2150 units, and its grid is coarser than 1 only from 2^53 on. -/
theorem conversionIsCorrectlyRounded : Obligations.ConversionIsCorrectlyRounded := by
  refine fun D => ⟨?_, realValue_cvtU64, ?_⟩
  · have hround := isRoundingOf_withSign false (D.toNat * 2 ^ 2150)
    rwa [← cvtU64_eq, total_units] at hround
  · rintro rfl
    decide

/-! ### Rounding half away from zero (R219) -/

section
variable {p : Word}

theorem abs_realValue_eq_significand (p : Word) : |realValue p| = significand p * 2 ^ scale p / 2 ^ 1075 := by
  rw [realValue, abs_mul, abs_of_nonneg (by positivity : (0 : ℚ) ≤ significand p * 2 ^ scale p / 2 ^ 1075)]
  split <;> simp

theorem abs_realValue_of_le (h : 1075 ≤ scale p) : |realValue p| = roundedMagnitude p := by
  rw [abs_realValue_eq_significand, roundedMagnitude, if_pos h]
  obtain ⟨i, hi⟩ := Nat.exists_eq_add_of_le' h
  rw [hi, Nat.add_sub_cancel, pow_add, ← mul_assoc, mul_div_cancel_right₀ _ (pow_ne_zero _ two_ne_zero)]
  push_cast
  rfl

theorem abs_realValue_add_half_of_lt (h : scale p < 1075) : |realValue p| + 1 / 2 =
    ((2 * significand p + 2 ^ (1075 - scale p) : Nat) : ℚ) / ((2 ^ (1076 - scale p) : Nat) : ℚ) := by
  obtain ⟨i, hi⟩ := Nat.exists_eq_add_of_le h.le
  rw [abs_realValue_eq_significand, hi, show 1076 - scale p = i + 1 by omega, Nat.add_sub_cancel_left, pow_add]
  push_cast
  field_simp
  ring

theorem roundedMagnitude_eq_floor (p : Word) : (roundedMagnitude p : Int) = ⌊|realValue p| + 1 / 2⌋ := by
  rcases le_or_gt 1075 (scale p) with h | h
  · rw [abs_realValue_of_le h, eq_comm, Int.floor_eq_iff]
    constructor <;> push_cast <;> linarith
  · rw [abs_realValue_add_half_of_lt h, Rat.floor_natCast_div_natCast, roundedMagnitude, if_neg (not_le.2 h),
      Int.natCast_div]

theorem rha_eq (p : Word) : rha p = (if signBit p then -1 else 1) * ⌊|realValue p| + 1 / 2⌋ := by
  rw [rha, roundedMagnitude_eq_floor]
  split <;> simp

theorem realValue_eq_sign_mul_abs (p : Word) : realValue p = (if signBit p then -1 else 1) * |realValue p| := by
  rw [abs_realValue_eq_significand, realValue]

theorem le_scale_of_large (h : (2 : ℚ) ^ 52 ≤ |realValue p|) : 1075 ≤ scale p := by
  refine not_lt.1 fun hlt => h.not_gt ?_
  rw [abs_realValue_eq_significand, div_lt_iff₀ (by positivity)]
  calc (significand p : ℚ) * 2 ^ scale p
    _ < 2 ^ 53 * 2 ^ scale p := by
      refine mul_lt_mul_of_pos_right ?_ (by positivity)
      exact_mod_cast significand_lt p
    _ ≤ 2 ^ 53 * 2 ^ 1074 := by
      refine mul_le_mul_of_nonneg_left (pow_le_pow_right₀ one_le_two (by omega)) (by positivity)
    _ = 2 ^ 52 * 2 ^ 1075 := by rw [← pow_add, ← pow_add]

end

/-- Settles O39: the model's two forms of the rounded magnitude are one floor, and the first is exact. -/
theorem roundingIsHalfAwayFromZero : Obligations.RoundingIsHalfAwayFromZero := by
  refine fun p _ => ⟨rha_eq p, fun h => ?_⟩
  rw [realValue_eq_sign_mul_abs, abs_realValue_of_le (le_scale_of_large h), rha]
  split <;> simp

end Sys2Proof.Machine
end

section
/-! PROOFS. O40, O42, O44: the commands `BIAS` and `FDIST` (44_bias_and_entry.md R226, R231, R232, R234 item 1). -/

namespace Sys2Proof.Machine

/-! ### `BIAS` (R221, R226) -/

section
variable (b : Word) (l : Half)

theorem effectiveBias_intra : effectiveBias b 1 l = fmul64 b Config.biasIntra := if_pos rfl

theorem effectiveBias_layer0 : effectiveBias b 0 0 = fmul64 b Config.biasLayer0 := by
  rw [effectiveBias, if_neg (by decide), if_pos rfl]

theorem effectiveBias_layer1 : effectiveBias b 0 1 = fmul64 b Config.biasLayer1 := by
  rw [effectiveBias, if_neg (by decide), if_neg (by decide), if_pos rfl]

theorem effectiveBias_layer2 : effectiveBias b 0 2 = fmul64 b Config.biasLayer2 := by
  rw [effectiveBias, if_neg (by decide), if_neg (by decide), if_neg (by decide), if_pos rfl]

/-- The selectors of R221: INTRA, or one of the three layers with a constant, or a higher one. -/
theorem selector_cases (i : BitVec 1) : i = 1 ∨ (i = 0 ∧ (l = 0 ∨ l = 1 ∨ l = 2 ∨ 3 ≤ l.toNat)) := by
  have hi : i = 1 ∨ i = 0 := by bv_omega
  have hl : l = 0 ∨ l = 1 ∨ l = 2 ∨ 3 ≤ l.toNat := by bv_omega
  tauto

variable {l}

theorem effectiveBias_of_three_le (h : 3 ≤ l.toNat) : effectiveBias b 0 l = b := by
  have hne (k : Half) (hk : k.toNat < 3) : l ≠ k := by rintro rfl; omega
  rw [effectiveBias, if_neg (by decide), if_neg (hne 0 (by decide)), if_neg (hne 1 (by decide)),
    if_neg (hne 2 (by decide))]

end

theorem exec_bias {s : State} (h : s.isIdle = true) : exec .bias s =
    complete { s.regs with biasEff := effectiveBias s.regs.biasBase s.regs.intra s.regs.tlayer } s :=
  whenIdle_of_idle h _

/-- Settles O40: each selector names its own effective bias. -/
theorem biasWritesTheEffectiveBias : Obligations.BiasWritesTheEffectiveBias := by
  refine ⟨rfl, fun s e hi hintra h0 h1 h2 h3 => ?_⟩
  have he : effectiveBias s.regs.biasBase s.regs.intra s.regs.tlayer = e := by
    rcases selector_cases s.regs.tlayer s.regs.intra with h | ⟨h, hl | hl | hl | hl⟩
    · rw [h, hintra h, effectiveBias_intra, Config.biasIntra]
    · rw [h, hl, h0 h (by rw [hl]; rfl), effectiveBias_layer0, Config.biasLayer0]
    · rw [h, hl, h1 h (by rw [hl]; rfl), effectiveBias_layer1, Config.biasLayer1]
    · rw [h, hl, h2 h (by rw [hl]; rfl), effectiveBias_layer2, Config.biasLayer2]
    · rw [h, h3 h hl, effectiveBias_of_three_le _ hl]
  rw [exec_bias hi, he, complete]

/-! ### `FDIST` (R230 to R232) -/

theorem representable_iff (p : Word) :
    representable p = true ↔ isFinite p = true ∧ -(2 ^ 63 : Int) ≤ rha p ∧ rha p ≤ 2 ^ 63 - 1 := by
  rw [representable, isFinite_iff]
  simp only [Bool.and_eq_true, Bool.not_eq_true', decide_eq_true_eq, and_assoc]

theorem exec_fdist_of_ready {i : Instr} {d : Depth} (hp : (i, d) ∈ [(Instr.fdistS, Depth.standard), (.fdistH, .high)])
    {s : State} (hi : s.isIdle = true) (ha : regionAccepted d s.regs) (h : s.regionReady d) :
    exec i s = finishDistortion (regionDistortion s d) s := by
  have hcommand : (i, d) ∈ regionCommands := List.mem_of_mem_drop (i := 2) hp
  rw [exec_regionCommand_of_ready hcommand hi ha h, regionEnd_fdist]
  simp only [List.mem_cons, Prod.mk.injEq, List.not_mem_nil, or_false] at hp
  exact hp.imp And.left And.left

theorem finishDistortion_of_representable {D : Word} {s : State}
    (h : representable (biasedProduct D s.regs.biasBase) = true) : finishDistortion D s =
      complete { s.regs with result := BitVec.ofInt 64 (rha (biasedProduct D s.regs.biasBase)) } s := if_pos h

/-- `FDIST` completes where its product has an integer value in the signed 64-bit range (R230). -/
theorem exec_fdist_of_representable {i : Instr} {d : Depth}
    (hp : (i, d) ∈ [(Instr.fdistS, Depth.standard), (.fdistH, .high)]) (s : State) (p : Word) (hi : s.isIdle = true)
    (ha : regionAccepted d s.regs) (h : s.regionReady d)
    (hproduct : p = fmul64 (cvtU64 (regionDistortion s d)) s.regs.biasBase) (hfin : isFinite p = true)
    (hlow : -(2 ^ 63 : Int) ≤ rha p) (hhigh : rha p ≤ 2 ^ 63 - 1) : exec i s = .next { s with
      regs := { s.regs with result := BitVec.ofInt 64 (rha p) }, run := .idle true, earlier := [] } := by
  subst hproduct
  rw [exec_fdist_of_ready hp hi ha h,
    finishDistortion_of_representable ((representable_iff _).2 ⟨hfin, hlow, hhigh⟩), complete, biasedProduct]

/-- Settles O42: the two depths of `exec_fdist_of_representable`. -/
theorem fdistWritesTheRoundedProduct : Obligations.FdistWritesTheRoundedProduct :=
  ⟨exec_fdist_of_representable (by decide), exec_fdist_of_representable (by decide)⟩

/-- Settles O44: equal regions have distortion 0 (43_aggregator.md R199), whose product with a bias O32 has worked
out. -/
theorem entryPointIsZeroOnEqualRegions : Obligations.EntryPointIsZeroOnEqualRegions := by
  rintro ⟨i, d⟩ hp s hi ha hready hsame
  have hzero : regionDistortion s d = 0 := by
    rw [regionDistortion_eq_normalise, exactTotal_of_sameRegions hsame]
    cases d <;> rfl
  rw [exec_fdist_of_ready hp hi ha hready, hzero]
  exact ⟨finishDistortion_zero_of_finite, finishDistortion_zero_of_not_finite⟩

end Sys2Proof.Machine
end

section
/-! PROOFS. O41: the ordering law of the effective biases (44_bias_and_entry.md R222). The four constants hold
n * 2^(-54) for integers n that lie farther apart than the 2^(-53) by which one rounding of a normal product can move
it. -/

namespace Sys2Proof.Machine

/-! ### The error of one rounding -/

/-- In the range of the normal numbers a rounding moves its argument by at most 2^(-53) of it. -/
theorem gridRound_relative_error {M : Nat} (h : 2 ^ (52 + 1076) ≤ M) : 2 ^ 53 * |(gridRound M : Int) - M| ≤ M := by
  have hgrid : 2 ^ (52 + grid M) ≤ M := by
    rcases eq_or_lt_of_le (le_grid M) with hleast | hgrid
    · exact hleast ▸ h
    · exact two_pow_grid_le hgrid
  have hclose := gridRound_close M
  rw [pow_add] at hgrid
  generalize 2 ^ grid M = B at hgrid hclose
  omega

theorem scaledMagnitude_lt_of_isFinite {x : Word} (h : isFinite x = true) :
    scaledMagnitude x < (2 ^ 54 - 1) * 2 ^ 3120 := by
  have hscale : scale x ≤ 1 + 2045 := by
    rw [isFinite, bne_iff_ne] at h
    rw [scale]
    have : expField x < 2 ^ 11 := Nat.mod_lt _ (by decide)
    omega
  have bound {e j : Nat} (he : e ≤ 1 + j) : significand x * 2 ^ e < (2 ^ 54 - 1) * 2 ^ j := calc
    significand x * 2 ^ e ≤ (2 ^ 53 - 1) * 2 ^ (1 + j) :=
      Nat.mul_le_mul (Nat.le_sub_one_of_lt (significand_lt x)) (Nat.pow_le_pow_right two_pos he)
    _ = (2 ^ 54 - 2) * 2 ^ j := by rw [pow_add, ← mul_assoc]; rfl
    _ < (2 ^ 54 - 1) * 2 ^ j := Nat.mul_lt_mul_of_pos_right (by decide) (Nat.two_pow_pos _)
  exact bound (by omega)

section
variable {x y : Word}

/-- A product of finite patterns whose exact magnitude is below the threshold of infinity (R216, R217). -/
theorem fmul64_of_small (hx : isFinite x = true) (hy : isFinite y = true)
    (h : productMagnitude x y < (2 ^ 54 - 1) * 2 ^ 3120) :
    isFinite (fmul64 x y) = true ∧ signBit (fmul64 x y) = (signBit x ^^ signBit y) ∧
      scaledMagnitude (fmul64 x y) = gridRound (productMagnitude x y) := by
  have hlt : gridPattern (productMagnitude x y) < infPattern :=
    not_le.1 fun hle => h.not_ge (infPattern_le_gridPattern_iff.1 hle)
  rw [fmul64_of_finite hx hy, min_eq_left hlt.le]
  exact ⟨isFinite_withSign _ hlt, signBit_withSign _ (hlt.trans (by decide)),
    scaledMagnitude_withSign_gridPattern _ hlt⟩

theorem realValue_of_positive (h : signBit x = false) : realValue x = (scaledMagnitude x : ℚ) / 2 ^ 2150 := by
  rw [realValue_eq, scaledValue, h, show signFactor false = 1 from rfl, one_mul, Int.cast_natCast]

theorem realValue_lt_iff (hx : signBit x = false) (hy : signBit y = false) :
    realValue x < realValue y ↔ scaledMagnitude x < scaledMagnitude y := by
  rw [realValue_of_positive hx, realValue_of_positive hy, div_lt_div_iff_of_pos_right (by positivity), Nat.cast_lt]

end

theorem expField_ne_zero_of_le {x : Word} (h : 2 ^ (52 + 1076) ≤ scaledMagnitude x) : expField x ≠ 0 := by
  intro hexp
  refine h.not_gt ?_
  have hfrac : fracField x < 2 ^ 52 := Nat.mod_lt _ (Nat.two_pow_pos _)
  have hscale : scale x + 1075 ≤ 1076 := by rw [scale]; omega
  rw [scaledMagnitude, significand, if_pos hexp]
  rw [pow_add 2 52 1076]
  exact mul_lt_mul hfrac (pow_le_pow_right₀ one_le_two hscale) (by positivity) (by positivity)

/-! ### The four constants (R220) -/

/-- `c` holds n * 2^(-54), a number between a quarter and 1. -/
def HoldsFactor (c : Word) (n : Nat) : Prop :=
  isFinite c = true ∧ signBit c = false ∧ 1021 ≤ scale c ∧ significand c * 2 ^ (scale c - 1021) = n ∧
    2 ^ 52 ≤ n ∧ n < 2 ^ 54

theorem biasIntra_holdsFactor : HoldsFactor Config.biasIntra 0x1999999999999A := by unfold HoldsFactor; decide

theorem biasLayer0_holdsFactor : HoldsFactor Config.biasLayer0 0x30000000000000 := by unfold HoldsFactor; decide

theorem biasLayer1_holdsFactor : HoldsFactor Config.biasLayer1 0x3999999999999A := by unfold HoldsFactor; decide

theorem biasLayer2_holdsFactor : HoldsFactor Config.biasLayer2 0x3CCCCCCCCCCCCC := by unfold HoldsFactor; decide

/-- The magnitude of a base in units of 2^(-2096), in which its products with the constants are integers. -/
def baseUnits (b : Word) : Nat := significand b * 2 ^ (scale b + 1021)

theorem scaledMagnitude_eq_baseUnits (b : Word) : scaledMagnitude b = baseUnits b * 2 ^ 54 := by
  rw [scaledMagnitude, baseUnits, mul_assoc, ← pow_add]

section
variable {b c : Word} {n : Nat}

theorem productMagnitude_of_holdsFactor (hc : HoldsFactor c n) : productMagnitude b c = baseUnits b * n := by
  obtain ⟨_, _, hscale, rfl, _⟩ := hc
  rw [productMagnitude, baseUnits]
  obtain ⟨i, hi⟩ := Nat.exists_eq_add_of_le hscale
  rw [hi, Nat.add_sub_cancel_left, ← add_assoc, pow_add 2 (scale b + 1021) i]
  exact mul_mul_mul_comm _ _ _ _

section
variable (hb : isFinite b = true) (hsign : signBit b = false) (hbase : 2 ^ 1076 ≤ baseUnits b) (hc : HoldsFactor c n)
include hb hc

theorem fmul64_of_holdsFactor : isFinite (fmul64 b c) = true ∧ signBit (fmul64 b c) = signBit b ∧
    scaledMagnitude (fmul64 b c) = gridRound (baseUnits b * n) := by
  have hproduct := productMagnitude_of_holdsFactor (b := b) hc
  obtain ⟨hcfin, hcsign, _, _, _, hhigh⟩ := hc
  have hsmall : productMagnitude b c < (2 ^ 54 - 1) * 2 ^ 3120 := by
    refine lt_of_le_of_lt ?_ (scaledMagnitude_lt_of_isFinite hb)
    rw [hproduct, scaledMagnitude_eq_baseUnits]
    exact Nat.mul_le_mul_left _ hhigh.le
  have h := fmul64_of_small hb hcfin hsmall
  rwa [hcsign, Bool.xor_false, hproduct] at h

include hbase

/-- A bias on a multiplying path lies within 2^(-53) of the exact product. -/
theorem scaledMagnitude_fmul64_bounds :
    (2 ^ 53 - 1) * (baseUnits b * n) ≤ 2 ^ 53 * scaledMagnitude (fmul64 b c) ∧
      2 ^ 53 * scaledMagnitude (fmul64 b c) ≤ (2 ^ 53 + 1) * (baseUnits b * n) := by
  obtain ⟨_, _, hmag⟩ := fmul64_of_holdsFactor hb hc
  obtain ⟨_, _, _, _, hlow, _⟩ := hc
  have hnormal : 2 ^ (52 + 1076) ≤ baseUnits b * n := by
    rw [pow_add, mul_comm]
    exact Nat.mul_le_mul hbase hlow
  have herr := gridRound_relative_error hnormal
  rw [← hmag] at herr
  have habove := le_abs_self ((scaledMagnitude (fmul64 b c) : Int) - (baseUnits b * n : Nat))
  have hbelow := neg_le_abs ((scaledMagnitude (fmul64 b c) : Int) - (baseUnits b * n : Nat))
  generalize baseUnits b * n = M at *
  omega

theorem expField_fmul64_ne_zero (h : 2 ^ 53 * 2 ^ 52 ≤ (2 ^ 53 - 1) * n) : expField (fmul64 b c) ≠ 0 := by
  have hlow := (scaledMagnitude_fmul64_bounds hb hbase hc).1
  have scaled {B : Nat} (hB : B ≤ baseUnits b) : 2 ^ 52 * B ≤ scaledMagnitude (fmul64 b c) := by
    refine Nat.le_of_mul_le_mul_left (c := 2 ^ 53) ?_ (by decide)
    calc 2 ^ 53 * (2 ^ 52 * B)
      _ = 2 ^ 53 * 2 ^ 52 * B := (mul_assoc _ _ _).symm
      _ ≤ (2 ^ 53 - 1) * n * baseUnits b := Nat.mul_le_mul h hB
      _ = (2 ^ 53 - 1) * (baseUnits b * n) := by rw [mul_assoc, mul_comm n]
      _ ≤ 2 ^ 53 * scaledMagnitude (fmul64 b c) := hlow
  refine expField_ne_zero_of_le ?_
  rw [pow_add 2 52 1076]
  exact scaled hbase

include hsign

theorem fmul64_lt_fmul64 {c' : Word} {n' : Nat} (hc' : HoldsFactor c' n') (h : (2 ^ 53 + 1) * n < (2 ^ 53 - 1) * n') :
    realValue (fmul64 b c) < realValue (fmul64 b c') := by
  obtain ⟨_, hs, _⟩ := fmul64_of_holdsFactor hb hc
  obtain ⟨_, hs', _⟩ := fmul64_of_holdsFactor hb hc'
  rw [realValue_lt_iff (hs.trans hsign) (hs'.trans hsign)]
  have hpos : 0 < baseUnits b := (Nat.two_pow_pos _).trans_le hbase
  refine Nat.lt_of_mul_lt_mul_left (a := 2 ^ 53) ?_
  calc 2 ^ 53 * scaledMagnitude (fmul64 b c)
    _ ≤ (2 ^ 53 + 1) * (baseUnits b * n) := (scaledMagnitude_fmul64_bounds hb hbase hc).2
    _ = baseUnits b * ((2 ^ 53 + 1) * n) := mul_left_comm _ _ _
    _ < baseUnits b * ((2 ^ 53 - 1) * n') := Nat.mul_lt_mul_of_pos_left h hpos
    _ = (2 ^ 53 - 1) * (baseUnits b * n') := mul_left_comm _ _ _
    _ ≤ 2 ^ 53 * scaledMagnitude (fmul64 b c') := (scaledMagnitude_fmul64_bounds hb hbase hc').1

theorem fmul64_lt_base (h : (2 ^ 53 + 1) * n < 2 ^ 53 * 2 ^ 54) : realValue (fmul64 b c) < realValue b := by
  obtain ⟨_, hs, _⟩ := fmul64_of_holdsFactor hb hc
  rw [realValue_lt_iff (hs.trans hsign) hsign, scaledMagnitude_eq_baseUnits b]
  have hpos : 0 < baseUnits b := (Nat.two_pow_pos _).trans_le hbase
  refine Nat.lt_of_mul_lt_mul_left (a := 2 ^ 53) ?_
  calc 2 ^ 53 * scaledMagnitude (fmul64 b c)
    _ ≤ (2 ^ 53 + 1) * (baseUnits b * n) := (scaledMagnitude_fmul64_bounds hb hbase hc).2
    _ = baseUnits b * ((2 ^ 53 + 1) * n) := mul_left_comm _ _ _
    _ < baseUnits b * (2 ^ 53 * 2 ^ 54) := Nat.mul_lt_mul_of_pos_left h hpos
    _ = 2 ^ 53 * (baseUnits b * 2 ^ 54) := mul_left_comm _ _ _

end

end

/-! ### The ordering law (R222) -/

/-- A base of at least 2^(-1020) is positive, with at least 2^1076 units. -/
theorem base_of_le {b : Word} (h : (1 : ℚ) / 2 ^ 1020 ≤ realValue b) :
    signBit b = false ∧ 2 ^ 1076 ≤ baseUnits b := by
  have hunits : (((2 ^ (1076 + 54) : Nat) : Int) : ℚ) ≤ scaledValue b := by
    rw [realValue_eq, le_div_iff₀ (by positivity), div_mul_eq_mul_div, div_le_iff₀ (by positivity)] at h
    refine le_of_mul_le_mul_right (a := 2 ^ 1020) ?_ (by positivity)
    rw [Int.cast_natCast, Nat.cast_pow, Nat.cast_ofNat, ← pow_add, ← one_mul (2 ^ (1076 + 54 + 1020))]
    exact h
  have hvalue : ((2 ^ (1076 + 54) : Nat) : Int) ≤ scaledValue b := Int.cast_le.1 hunits
  have hpos : (0 : Int) < (2 ^ (1076 + 54) : Nat) := Int.natCast_pos.2 (by positivity)
  rw [scaledValue] at hvalue
  have hsign : signBit b = false := by
    by_contra hneg
    rw [Bool.not_eq_false] at hneg
    rw [hneg, show signFactor true = -1 from rfl] at hvalue
    omega
  refine ⟨hsign, ?_⟩
  rw [hsign, show signFactor false = 1 from rfl, one_mul, scaledMagnitude_eq_baseUnits, Int.ofNat_le] at hvalue
  rw [pow_add 2 1076 54] at hvalue
  exact le_of_mul_le_mul_right hvalue (by positivity)

theorem effectiveBias_one (l : Half) : effectiveBias 1 1 l = 0 ∧ effectiveBias 1 0 l = 1 := by
  refine ⟨(effectiveBias_intra _ _).trans (by decide), ?_⟩
  rcases selector_cases l 0 with h | ⟨_, rfl | rfl | rfl | h⟩
  · exact absurd h (by decide)
  · exact (effectiveBias_layer0 _).trans (by decide)
  · exact (effectiveBias_layer1 _).trans (by decide)
  · exact (effectiveBias_layer2 _).trans (by decide)
  · exact effectiveBias_of_three_le _ h

theorem effectiveBias_infinity (i : BitVec 1) (l : Half) :
    effectiveBias 0x7FF0000000000000#64 i l = 0x7FF0000000000000#64 := by
  rcases selector_cases l i with rfl | ⟨rfl, rfl | rfl | rfl | h⟩
  · exact (effectiveBias_intra _ _).trans (by decide)
  · exact (effectiveBias_layer0 _).trans (by decide)
  · exact (effectiveBias_layer1 _).trans (by decide)
  · exact (effectiveBias_layer2 _).trans (by decide)
  · exact effectiveBias_of_three_le _ h

/-- Settles O41: neighbouring constants are more than two roundings apart; the edge cases are values of `fmul64`. -/
theorem effectiveBiasesIncrease : Obligations.EffectiveBiasesIncrease := by
  refine ⟨fun b l hfin h => ?_, fun b l => effectiveBias_of_three_le b, effectiveBias_one, effectiveBias_infinity⟩
  obtain ⟨hsign, hbase⟩ := base_of_le h
  have normal {c : Word} {n : Nat} (hc : HoldsFactor c n) (hn : 2 ^ 53 * 2 ^ 52 ≤ (2 ^ 53 - 1) * n) :
      isFinite (fmul64 b c) = true ∧ expField (fmul64 b c) ≠ 0 :=
    ⟨(fmul64_of_holdsFactor hfin hc).1, expField_fmul64_ne_zero hfin hbase hc hn⟩
  rw [effectiveBias_intra, effectiveBias_layer0, effectiveBias_layer1, effectiveBias_layer2,
    effectiveBias_of_three_le b (l := 3) (by decide)]
  refine ⟨fmul64_lt_fmul64 hfin hsign hbase biasIntra_holdsFactor biasLayer0_holdsFactor (by decide),
    fmul64_lt_fmul64 hfin hsign hbase biasLayer0_holdsFactor biasLayer1_holdsFactor (by decide),
    fmul64_lt_fmul64 hfin hsign hbase biasLayer1_holdsFactor biasLayer2_holdsFactor (by decide),
    fmul64_lt_base hfin hsign hbase biasLayer2_holdsFactor (by decide), ?_⟩
  simp only [List.forall_mem_cons, List.not_mem_nil, false_imp_iff, implies_true, and_true]
  exact ⟨normal biasIntra_holdsFactor (by decide), normal biasLayer0_holdsFactor (by decide),
    normal biasLayer1_holdsFactor (by decide), normal biasLayer2_holdsFactor (by decide)⟩

end Sys2Proof.Machine
end

section
/-! PROOFS. O45, O46: the biased distortion as a function of the bias (44_bias_and_entry.md R234 items 2 to 4). The
converted distortion is an integer, so that its product with a finite bias is a multiple of the least subnormal:
it is rounded only where the grid of normal numbers is coarser. -/

namespace Sys2Proof.Machine

/-! ### Representable products (R230) -/

/-- A rational that a finite pattern holds is its own rounding. -/
theorem isRoundingOf_exact {negative : Bool} {y z : Word} (h : isRoundingOf negative (realValue z) y)
    (hz : isFinite z = true) : isFinite y = true ∧ realValue y = realValue z := by
  have hsmall : ¬(2 : ℚ) ^ 1024 - 2 ^ 970 ≤ |realValue z| := by
    rw [abs_realValue, threshold_le_iff]
    exact (scaledMagnitude_lt_of_isFinite hz).not_ge
  obtain ⟨_, h⟩ := h
  rw [if_neg hsmall] at h
  obtain ⟨hfin, hnear⟩ := h
  have hle := (hnear z hz).1
  rw [sub_self, abs_zero] at hle
  exact ⟨hfin, sub_eq_zero.1 (abs_nonpos_iff.1 hle)⟩

/-- A product that is a finite number has the exclusive-or of the signs (R217). -/
theorem signBit_fmul64 {x y : Word} (h : isFinite (fmul64 x y) = true) :
    signBit (fmul64 x y) = (signBit x ^^ signBit y) := by
  cases hinvalid : isInvalidProduct x y
  case true =>
    rw [fmul64_of_invalid hinvalid] at h
    exact absurd h (by decide)
  by_cases hinf : isInf x = true ∨ isInf y = true
  · rw [fmul64_of_infinite hinvalid hinf]
    exact (isInf_withSign_infPattern _).2
  · obtain ⟨hx, hy⟩ : isFinite x = true ∧ isFinite y = true := by
      simp only [isInvalidProduct, Bool.or_eq_false_iff] at hinvalid
      simp only [not_or, Bool.not_eq_true] at hinf
      exact ⟨(isFinite_iff x).2 ⟨hinvalid.1.1.1, hinf.1⟩, (isFinite_iff y).2 ⟨hinvalid.1.1.2, hinf.2⟩⟩
    exact (isRoundingOf_fmul64 hx hy).1

theorem signBit_biasedProduct {D b : Word} (h : isFinite (biasedProduct D b) = true) :
    signBit (biasedProduct D b) = signBit b := by
  rw [biasedProduct, signBit_fmul64 h, signBit_cvtU64, Bool.false_xor]

theorem signBit_of_rha_pos {p : Word} (h : 0 < rha p) : signBit p = false := by
  cases hs : signBit p
  · rfl
  · rw [rha, hs, if_pos rfl] at h
    omega

theorem signBit_of_rha_neg {p : Word} (h : rha p < 0) : signBit p = true := by
  cases hs : signBit p
  · rw [rha, hs, if_neg Bool.false_ne_true] at h
    omega
  · rfl

/-! ### The unit bias (R234 item 3) -/

theorem biasedProduct_one {D : Word} (h : D.toNat < 2 ^ 53) : isFinite (biasedProduct D 0x3FF0000000000000#64) = true ∧
    realValue (biasedProduct D 0x3FF0000000000000#64) = D.toNat := by
  have hone : isFinite 0x3FF0000000000000#64 = true ∧ signBit 0x3FF0000000000000#64 = false ∧
      significand 0x3FF0000000000000#64 = 2 ^ 52 ∧ scale 0x3FF0000000000000#64 = 1023 := by decide
  obtain ⟨hfin, hsign, hsig, hscale⟩ := hone
  have hvalue : realValue 0x3FF0000000000000#64 = 1 := by
    rw [realValue, hsign, hsig, hscale, if_neg Bool.false_ne_true, one_mul, Nat.cast_pow, Nat.cast_ofNat, ← pow_add,
      div_self (pow_ne_zero _ two_ne_zero)]
  have hround := isRoundingOf_fmul64 (isFinite_cvtU64 D) hfin
  rw [hvalue, mul_one] at hround
  rw [← realValue_cvtU64 h]
  exact isRoundingOf_exact hround (isFinite_cvtU64 D)

theorem rha_of_realValue_eq_natCast {p : Word} {n : Nat} (hsign : signBit p = false) (h : realValue p = n) :
    rha p = n := by
  rw [rha_eq, hsign, h, Nat.abs_cast, if_neg Bool.false_ne_true, one_mul, Int.floor_eq_iff]
  constructor <;> push_cast <;> linarith

/-- Settles O45: a total below 2^53 is the value of its product with 1.0; a converted total has sign 0. -/
theorem unitBiasKeepsTheDistortion : Obligations.UnitBiasKeepsTheDistortion := by
  refine ⟨fun D h => ?_, fun D b hrep => ?_⟩
  · obtain ⟨hfin, hvalue⟩ := biasedProduct_one h
    have hrha := rha_of_realValue_eq_natCast ((signBit_biasedProduct hfin).trans (by decide)) hvalue
    refine ⟨(representable_iff _).2 ⟨hfin, ?_, ?_⟩, hrha⟩ <;> rw [hrha] <;> omega
  · have hsign := signBit_biasedProduct ((representable_iff _).1 hrep).1
    exact ⟨fun h => hsign.symm.trans (signBit_of_rha_pos h), fun h => hsign.symm.trans (signBit_of_rha_neg h)⟩

/-! ### Doubling a magnitude (R216) -/

theorem gridRound_zero : gridRound 0 = 0 := by rw [gridRound, gridSteps, nearestEven_zero, Nat.zero_mul]

/-- Rounding keeps the integers: the grid is exact, or coarser than 1. -/
theorem dvd_gridRound {M k : Nat} (h : 2 ^ k ∣ M) : 2 ^ k ∣ gridRound M := by
  rcases le_total (grid M) k with hle | hle
  · rwa [gridRound_of_dvd M ((pow_dvd_pow 2 hle).trans h)]
  · exact (pow_dvd_pow 2 hle).mul_left _

theorem two_pow_succ_dvd {M k : Nat} (h : 2 ^ k ∣ M) : 2 ^ (k + 1) ∣ M * 2 := by
  rw [pow_succ]
  exact Nat.mul_dvd_mul_right h 2

/-- Where the least grid is exact, rounding commutes with doubling. -/
theorem gridRound_two_mul {M : Nat} (h : 2 ^ 1076 ∣ M) : gridRound (M * 2) = gridRound M * 2 := by
  by_cases hM : M = 0
  case pos => rw [hM, Nat.zero_mul, gridRound_zero]
  have hlog : (M * 2).log2 = M.log2 + 1 := log2_mul_two_pow hM 1
  rcases le_or_gt 1128 M.log2 with hlarge | hsmall
  · have hgrid : grid (M * 2) = grid M + 1 := by simp only [grid, gridExponent]; omega
    have hsteps : gridSteps (M * 2) = gridSteps M := by
      rw [gridSteps, gridSteps, hgrid]
      exact nearestEven_mul_pow M (grid M) 1
    rw [gridRound, gridRound, hsteps, hgrid, pow_succ, mul_assoc]
  · have hgrid : grid M ≤ 1076 := by simp only [grid, gridExponent]; omega
    have hgrid' : grid (M * 2) ≤ 1076 + 1 := by simp only [grid, gridExponent]; omega
    rw [gridRound_of_dvd M ((pow_dvd_pow 2 hgrid).trans h), gridRound_of_dvd (M * 2)]
    exact (pow_dvd_pow 2 hgrid').trans (two_pow_succ_dvd h)

/-! ### Doubling the bias (R234 item 2) -/

theorem natAbs_scaledValue (x : Word) : (scaledValue x).natAbs = scaledMagnitude x := by
  rw [scaledValue, Int.natAbs_mul, Int.natAbs_natCast]
  cases signBit x <;> exact Nat.one_mul _

section
variable {b b' : Word} (h : realValue b' = 2 * realValue b)
include h

theorem scaledValue_of_double : scaledValue b' = 2 * scaledValue b := by
  rw [realValue_eq, realValue_eq, ← mul_div_assoc, div_left_inj' (by positivity)] at h
  exact_mod_cast h

theorem scaledMagnitude_of_double : scaledMagnitude b' = scaledMagnitude b * 2 := by
  rw [← natAbs_scaledValue, scaledValue_of_double h, Int.natAbs_mul, natAbs_scaledValue, mul_comm]
  rfl

theorem signBit_of_double (hb : scaledMagnitude b ≠ 0) : signBit b' = signBit b := by
  have hvalue := scaledValue_of_double h
  rw [scaledValue, scaledValue, scaledMagnitude_of_double h] at hvalue
  generalize scaledMagnitude b = m at hb hvalue
  generalize signBit b = s at hvalue ⊢
  generalize signBit b' = s' at hvalue ⊢
  have hfactor : signFactor s' = signFactor s :=
    mul_right_cancel₀ (b := (m * 2 : Int)) (by omega) (by push_cast at hvalue; linarith)
  revert hfactor
  cases s <;> cases s' <;> decide

theorem productMagnitude_of_double (c : Word) : productMagnitude c b' = productMagnitude c b * 2 := by
  have hmul := scaledMagnitude_mul c b'
  rw [scaledMagnitude_of_double h, ← mul_assoc, scaledMagnitude_mul, mul_right_comm] at hmul
  exact (mul_right_cancel₀ (pow_ne_zero _ two_ne_zero) hmul).symm

end

theorem dvd_scaledMagnitude_cvtU64 (D : Word) {k : Nat} (hk : k = 2150) : 2 ^ k ∣ scaledMagnitude (cvtU64 D) := by
  rw [scaledMagnitude_cvtU64, ← hk]
  exact dvd_gridRound (Dvd.intro_left _ rfl)

/-- The product of a converted total and a finite bias is a multiple of the least subnormal. -/
theorem dvd_productMagnitude (D b : Word) : 2 ^ 1076 ∣ productMagnitude (cvtU64 D) b := by
  have hmul := mul_dvd_mul (dvd_scaledMagnitude_cvtU64 D (k := 1075 + 1075) (by decide)) (dvd_scaledMagnitude b)
  rw [scaledMagnitude_mul, mul_comm (productMagnitude _ _)] at hmul
  have cancel {k m n : Nat} (h : 2 ^ k * m ∣ 2 ^ k * n) : m ∣ n := Nat.dvd_of_mul_dvd_mul_left (Nat.two_pow_pos k) h
  exact cancel hmul

/-- A finite product of finite patterns has the value of the rounded exact product. -/
theorem scaledValue_fmul64 {x y : Word} (hx : isFinite x = true) (hy : isFinite y = true)
    (h : productMagnitude x y < (2 ^ 54 - 1) * 2 ^ 3120) :
    scaledValue (fmul64 x y) = signFactor (signBit x ^^ signBit y) * gridRound (productMagnitude x y) := by
  obtain ⟨_, hs, hm⟩ := fmul64_of_small hx hy h
  rw [scaledValue, hs, hm]

theorem productMagnitude_lt_of_isFinite {x y : Word} (hx : isFinite x = true) (hy : isFinite y = true)
    (h : isFinite (fmul64 x y) = true) : productMagnitude x y < (2 ^ 54 - 1) * 2 ^ 3120 := by
  refine not_le.1 fun hle => ?_
  rw [fmul64_of_finite hx hy, min_eq_right (infPattern_le_gridPattern_iff.2 hle)] at h
  have hinf := (isInf_withSign_infPattern (signBit x ^^ signBit y)).1
  rw [((isFinite_iff _).1 h).2] at hinf
  cases hinf

theorem realValue_biasedProduct_of_double {D b b' : Word} (hb : isFinite b = true) (hb' : isFinite b' = true)
    (h : realValue b' = 2 * realValue b) (hfin : isFinite (biasedProduct D b') = true) :
    realValue (biasedProduct D b') = 2 * realValue (biasedProduct D b) := by
  have hD := isFinite_cvtU64 D
  have hproduct := productMagnitude_of_double h (cvtU64 D)
  have hsmall' := productMagnitude_lt_of_isFinite hD hb' hfin
  have hsmall : productMagnitude (cvtU64 D) b < (2 ^ 54 - 1) * 2 ^ 3120 :=
    lt_of_le_of_lt (by rw [hproduct]; exact Nat.le_mul_of_pos_right _ two_pos) hsmall'
  have hround := gridRound_two_mul (dvd_productMagnitude D b)
  rw [realValue_eq, realValue_eq, ← mul_div_assoc, biasedProduct, biasedProduct, scaledValue_fmul64 hD hb' hsmall',
    scaledValue_fmul64 hD hb hsmall, hproduct, hround, signBit_cvtU64, Bool.false_xor, Bool.false_xor]
  have hsigned : signFactor (signBit b') * (gridRound (productMagnitude (cvtU64 D) b) * 2 : Nat) =
      2 * (signFactor (signBit b) * gridRound (productMagnitude (cvtU64 D) b)) := by
    by_cases hzero : scaledMagnitude b = 0
    · have hnone : productMagnitude (cvtU64 D) b = 0 := by
        have hmul := scaledMagnitude_mul (cvtU64 D) b
        rw [hzero, mul_zero, eq_comm, mul_eq_zero] at hmul
        exact hmul.resolve_right (pow_ne_zero _ two_ne_zero)
      simp [hnone, gridRound_zero]
    · rw [signBit_of_double h hzero]
      push_cast
      ring
  rw [hsigned, Int.cast_mul, Int.cast_ofNat]

/-! ### Doubling and rounding half away from zero (R219) -/

theorem abs_floor_two_mul_sub_le (a : ℚ) : |⌊2 * a + 1 / 2⌋ - 2 * ⌊a + 1 / 2⌋| ≤ 1 := by
  have hlow := Int.floor_le (a + 1 / 2)
  have hhigh := Int.lt_floor_add_one (a + 1 / 2)
  rw [abs_le]
  constructor
  · have : 2 * ⌊a + 1 / 2⌋ - 1 ≤ ⌊2 * a + 1 / 2⌋ := Int.le_floor.2 (by push_cast; linarith)
    omega
  · have : ⌊2 * a + 1 / 2⌋ < 2 * ⌊a + 1 / 2⌋ + 2 := Int.floor_lt.2 (by push_cast; linarith)
    omega

/-- `rha` is a function of the value: the two zeros round alike. -/
theorem rha_eq_of_realValue (p : Word) : rha p = (if realValue p < 0 then -1 else 1) * ⌊|realValue p| + 1 / 2⌋ := by
  by_cases hzero : realValue p = 0
  · rw [rha_eq, hzero]
    norm_num
  have hsign : realValue p < 0 ↔ signBit p = true := by
    have hpos := abs_pos.2 hzero
    rw [realValue_eq_sign_mul_abs]
    split
    · exact iff_of_true (by linarith) (by assumption)
    · exact iff_of_false (by linarith) (by assumption)
  rw [rha_eq]
  simp only [hsign]

theorem abs_rha_sub_two_mul_le {p p' : Word} (h : realValue p' = 2 * realValue p) : |rha p' - 2 * rha p| ≤ 1 := by
  have hneg : realValue p' < 0 ↔ realValue p < 0 := by rw [h]; constructor <;> intro <;> linarith
  have habs : |realValue p'| = 2 * |realValue p| := by rw [h, abs_mul, abs_two]
  rw [rha_eq_of_realValue, rha_eq_of_realValue p]
  simp only [hneg, habs]
  rw [mul_left_comm, ← mul_sub, abs_mul]
  refine le_trans (le_of_eq ?_) (abs_floor_two_mul_sub_le |realValue p|)
  split <;> simp

/-- Settles O46. The premise that the product is not subnormal is not needed: a subnormal product of a total and a
finite bias is exact. -/
theorem doublingTheBiasDoublesTheOutput : Obligations.DoublingTheBiasDoublesTheOutput := by
  intro D b b' hb hb' h _ hfin
  have hvalue := realValue_biasedProduct_of_double hb hb' h hfin
  exact ⟨hvalue, abs_rha_sub_two_mul_le hvalue⟩

end Sys2Proof.Machine
end

section
/-! PROOFS. O11, O12: the system commands `NOP` and `RST` (45_system.md R251, R252). `RST` never enters a BUSY window,
so a reset is over within its CMD write whatever the platform's latency. -/

namespace Sys2Proof.Machine

/-! ### Commands that never show BUSY (30_encoding.md R92) -/

/-- Such a command ends within its CMD write, and takes the platform's next latency off the list. -/
theorem startCommand_of_not_entersBusy {i : Instr} {s : State} (h : entersBusy i s = false) :
    startCommand i s = exec i { s with latency := s.latency.tail } := by
  cases hl : s.latency with
  | nil =>
    rw [startCommand_of_no_latency hl, List.tail_nil, ← hl]
  | cons k later =>
    cases k with
    | zero => exact startCommand_of_latency_zero hl
    | succ k => simp [startCommand, hl, h]

/-! ### `NOP` (R251) -/

section
variable {s : State}

theorem exec_nop_of_idle (h : s.isIdle = true) :
    exec .nop s = .next { s with run := .idle true, earlier := [] } :=
  whenIdle_of_idle h (complete s.regs s)

theorem exec_nop_of_not_idle (h : s.isIdle = false) : exec .nop s = .next s :=
  whenIdle_of_not_idle h (complete s.regs s)

/-! ### `RST` (R252) -/

theorem exec_rst (s : State) : exec .rst s = .next (if busyFlag s.run then s else resetUnit s) := by
  show execRst s = _
  unfold execRst
  cases s.run <;> rfl

theorem exec_rst_of_not_busy (h : busyFlag s.run = false) : exec .rst s = .next (resetUnit s) := by
  simp [exec_rst, h]

theorem exec_rst_of_busy (h : busyFlag s.run = true) : exec .rst s = .next s := by
  simp [exec_rst, h]

/-- Every row of the register map shows a part of the register file, STATUS, or nothing. -/
theorem regRead_of_regs_zero (hregs : s.regs = Regs.zero) (hstatus : s.status = 0) (n : BitVec 5) :
    regRead s n = 0 := by
  unfold regRead
  split <;> simp [hregs, hstatus]

/-- The `RST` word resets the unit within its CMD write. Only an IDLE unit's doorbell takes a latency off the list. -/
theorem hostWrite_rst_of_not_busy (h : busyFlag s.run = false) {v : Word} (hv : v.setWidth 32 = encode .rst) :
    ∃ later, hostWrite 0 v s = .next (resetUnit { s with latency := later }) := by
  cases hrun : s.run with
  | idle done =>
    have hidle : s.isIdle = true := (isIdle_iff s).2 ⟨done, hrun⟩
    refine ⟨s.latency.tail, ?_⟩
    rw [hostWrite_cmd_of_idle hidle, hv, doorbell_of_decode_ok (decode_encode .rst),
      startCommand_of_not_entersBusy rfl]
    exact exec_rst_of_not_busy (s := { s with latency := s.latency.tail }) h
  | busy i left => rw [hrun] at h; cases h
  | faulted c => exact ⟨s.latency, hostWrite_rst_of_faulted hrun hv⟩

end

/-- With op = 15 every other field must be zero (30_encoding.md R98). -/
theorem decode_error_of_op_fifteen {v : Word} (hop : v.extractLsb' 0 4 = 15#4)
    (hv : v.setWidth 32 ≠ 0x0000000F#32) : ∃ e, decode (v.setWidth 32) = .error e := by
  have hlow : (v.setWidth 32).toNat % 16 = 15 := by
    have := congrArg BitVec.toNat hop
    simp only [BitVec.extractLsb'_toNat, BitVec.toNat_ofNat, Nat.shiftRight_zero] at this
    rw [BitVec.toNat_setWidth]
    omega
  have hne : (v.setWidth 32).toNat ≠ 15 := fun h => hv (BitVec.eq_of_toNat_eq h)
  rw [illegalWordsAreThoseOfTheThreeClauses.1]
  omega

/-! ### The statements -/

/-- Settles O11: the reset example is `NOP` offered to an IDLE unit. -/
theorem nopChangesOnlyStatus : Obligations.NopChangesOnlyStatus :=
  ⟨rfl, fun _ => exec_nop_of_idle, fun _ => exec_nop_of_not_idle,
    _, (step_offerCommand rfl (decode_encode .nop)).trans (exec_nop_of_idle rfl), statusWord_idle true⟩

/-- Settles O12. -/
theorem rstResetsTheUnit : Obligations.RstResetsTheUnit := by
  have hrst : encode .rst = 0x0000000F#32 := rfl
  refine ⟨hrst, fun s => exec_rst_of_not_busy, fun s => exec_rst_of_busy, fun s v h hv => ?_,
    fun s c n v hrun hv => hostWrite_other_of_faulted hrun hv,
    fun v hop hv => ⟨fun s hidle => ?_, fun s c hrun => hostWrite_other_of_faulted hrun fun h => hv h.2⟩⟩
  · obtain ⟨later, hwrite⟩ := hostWrite_rst_of_not_busy h hv
    exact ⟨_, hwrite, regRead_of_regs_zero rfl (statusWord_idle false), rfl, statusWord_idle false, rfl⟩
  · obtain ⟨e, he⟩ := decode_error_of_op_fifteen hop hv
    rw [hostWrite_cmd_of_idle hidle, doorbell_of_decode_error he]
    exact ⟨_, rfl, rfl⟩

end Sys2Proof.Machine
end

section
/-! PROOFS. O49, O50, O51, O52: the faults of the commands (60_exceptions.md R262, R268, R272, R275). A rejected command
is a tile or a region command, and its cause and subcode are those of its check; from `exec_effect` follows the one form
of every fault, `exec_faulted`. -/

namespace Sys2Proof.Machine

/-! ### Rejected commands (42_block_energy.md R181, 43_aggregator.md R192) -/

/-- Only the commands that read memory have acceptance checks. -/
theorem acceptanceFault_of_readsMemory_eq_false {i : Instr} (h : readsMemory i = false) (r : Regs) :
    acceptanceFault i r = none := by
  cases i with
  | satd4S | satd4H | sa8dS | sa8dH | psydS | psydH | fdistS | fdistH => cases h
  | nop | abs2L16 | abs2L32 | had4B32 | had4B64 | bias | rst => rfl

section
variable {i : Instr} {r : Regs} {c : Cause} {info : Word}

/-- A rejected command is a tile command that fails the checks of R181, or a region command that fails those of R192. -/
theorem acceptanceFault_some (h : acceptanceFault i r = some (c, info)) :
    (∃ p ∈ tileCommands, ∃ ref, i = p.1 ref ∧ tileCheck p.2.1 p.2.2 ref r = some (c, info)) ∨
      ∃ p ∈ regionCommands, i = p.1 ∧ regionCheck p.2 r = some (c, info) := by
  cases hi : readsMemory i with
  | false => rw [acceptanceFault_of_readsMemory_eq_false hi] at h; cases h
  | true =>
    obtain ⟨d, reads, ⟨p, hp, ref, rfl, _⟩ | ⟨hp, _⟩⟩ := exists_readsSamples hi r
    · exact .inl ⟨p, hp, ref, rfl, by rw [← acceptanceFault_tileCommand hp, h]⟩
    · exact .inr ⟨(i, d), hp, rfl, by rw [← acceptanceFault_regionCommand hp, h]⟩

/-- The tile commands of high depth are the two that R268 lists under Misaligned. -/
theorem tileCommand_high {p : (RefSel → Instr) × Nat × Depth} (hp : p ∈ tileCommands) (hd : p.2.2 = .high)
    (ref : RefSel) : p.1 ref = .satd4H ref ∨ p.1 ref = .sa8dH ref := by
  simp only [tileCommands, List.mem_cons, List.not_mem_nil, or_false] at hp
  rcases hp with rfl | rfl | rfl | rfl
  · cases hd
  · exact .inl rfl
  · cases hd
  · exact .inr rfl

theorem regionCommand_high {p : Instr × Depth} (hp : p ∈ regionCommands) (hd : p.2 = .high) :
    p.1 = .psydH ∨ p.1 = .fdistH := by
  simp only [regionCommands, List.mem_cons, List.not_mem_nil, or_false] at hp
  rcases hp with rfl | rfl | rfl | rfl
  · cases hd
  · exact .inl rfl
  · cases hd
  · exact .inr rfl

/-- The rows Geometry and Misaligned of R268. -/
theorem mayRaise_of_acceptanceFault (h : acceptanceFault i r = some (c, info)) : mayRaise i c info := by
  rcases acceptanceFault_some h with ⟨p, hp, ref, rfl, hcheck⟩ | ⟨p, hp, rfl, hcheck⟩
  · rcases tileCheck_some hcheck with ⟨rfl, hinfo⟩ | ⟨rfl, hd, _⟩
    · exact .inl ⟨⟨p, hp, ref, rfl⟩, hinfo⟩
    · exact .inl ⟨ref, tileCommand_high hp hd ref⟩
  · rcases regionCheck_some hcheck with ⟨rfl, hlow, hhigh⟩ | ⟨rfl, hd, _⟩
    · exact .inr ⟨⟨p, hp, rfl⟩, hlow, hhigh⟩
    · exact .inr (regionCommand_high hp hd)

end

/-! ### The one form of a fault (R272) -/

section
variable {i : Instr} {s t : State} {c : Cause}

/-- A command that leaves an IDLE unit FAULTED has raised a fault of its own (R268): it has written FINFO and the run
state, ended the moments of its run, and moved the model's counter `fresh` at most. -/
theorem exec_faulted (hi : s.isIdle = true) (h : exec i s = .next t) (ht : t.run = .faulted c) :
    ∃ info fresh, mayRaise i c info ∧ t = { s with
      regs := { s.regs with finfo := info }, run := .faulted c, earlier := [], fresh := fresh } := by
  have effect := exec_effect i s
  rw [h] at effect
  cases effect with
  | dropped hbusy => rw [hi] at hbusy; cases hbusy
  | completed | hung | reset => cases ht
  | rejected _ _ info ha => cases ht; exact ⟨info, s.fresh, mayRaise_of_acceptanceFault ha, rfl⟩
  | memError _ _ hreads a => cases ht; exact ⟨BitVec.ofNat 64 a, s.fresh + 1, hreads, rfl⟩
  | numeric _ _ hfdist p => cases ht; exact ⟨p, s.fresh, hfdist, rfl⟩

end

theorem toNat_statusWord_faulted (c : Cause) : (statusWord (.faulted c)).toNat = 4 + 256 * causeCode c := by
  cases c <;> rfl

/-- Settles O49: the state of `exec_faulted`, field by field. -/
theorem faultsArePrecise : Obligations.FaultsArePrecise := by
  intro i s t c hi h ht
  obtain ⟨info, fresh, _, rfl⟩ := exec_faulted hi h ht
  exact ⟨rfl, ⟨rfl, rfl, rfl, rfl, rfl, rfl, rfl⟩, toNat_statusWord_faulted c⟩

/-- Settles O50. -/
theorem eachCommandRaisesOnlyItsFaults : Obligations.EachCommandRaisesOnlyItsFaults := by
  intro i s t c hi h ht
  obtain ⟨info, fresh, hraise, rfl⟩ := exec_faulted hi h ht
  exact hraise

/-! ### Illegal words (R262) -/

/-- A unit that is not IDLE drops every word but that of `RST`. -/
theorem hostWrite_cmd_of_not_idle {s : State} (hi : s.isIdle = false) {v : Word} (hv : v.setWidth 32 ≠ encode .rst) :
    hostWrite 0 v s = .next s := by
  cases hrun : s.run with
  | idle done => rw [(isIdle_iff s).2 ⟨done, hrun⟩] at hi; cases hi
  | busy i left => exact hostWrite_of_busy hrun 0 v
  | faulted c => exact hostWrite_other_of_faulted hrun fun h => hv h.2

/-- Settles O51: the table of R268 has no row for IllegalCommand. -/
theorem illegalCommandRecordsTheWord : Obligations.IllegalCommandRecordsTheWord := by
  refine ⟨fun s v e hi he => ⟨?_, rfl⟩, fun i s t hi h ht => ?_,
    fun s v hi hv => hostWrite_cmd_of_not_idle hi hv⟩
  · rw [hostWrite_cmd_of_idle hi, doorbell_of_decode_error he, raise]
  · obtain ⟨_, _, hraise, _⟩ := exec_faulted hi h ht
    exact hraise

/-! ### Leaving the FAULTED state (R275, R276) -/

/-- The host action resets a FAULTED unit: hard reset, or the `RST` word written to CMD, byte-mapped or not. -/
def ResetsFaulted (a : HostAction) : Prop :=
  a = .hardReset ∨ ∃ v : Word, v.setWidth 32 = 0x0000000F#32 ∧ (a = .write 0 v ∨ a = .windowWrite 0 8 v)

/-- An access that has a next state is 8 bytes wide, at the offset of the register it reaches (10_state.md R36). -/
theorem windowAccess_next_whole {offset size : Nat} {go : BitVec 5 → Result} {t : State}
    (h : windowAccess offset size go = .next t) : ∃ n, offset = 8 * n.toNat ∧ size = 8 ∧ go n = .next t := by
  unfold windowAccess at h
  split at h
  · cases h
  · split at h
    · rename_i hoffset hwhole
      refine ⟨_, ?_, hwhole.1, h⟩
      rw [BitVec.toNat_ofNat]
      omega
    · cases h

section
variable {s t : State} {c : Cause} (hrun : s.run = .faulted c)
include hrun

theorem perform_of_resetsFaulted {a : HostAction} (ha : ResetsFaulted a) : perform a s = .next (resetUnit s) := by
  rcases ha with rfl | ⟨v, hv, rfl | rfl⟩
  · rfl
  · exact hostWrite_rst_of_faulted hrun hv
  · have haccess := windowAccess_whole 0 fun n => perform (.write n v) s
    exact haccess.trans (hostWrite_rst_of_faulted hrun hv)

/-- A register write leaves a FAULTED unit as it is, or is the `RST` word. -/
theorem hostWrite_of_faulted {n : BitVec 5} {v : Word} (h : hostWrite n v s = .next t) :
    t = s ∨ (t = resetUnit s ∧ n = 0 ∧ v.setWidth 32 = encode .rst) := by
  by_cases hv : n = 0 ∧ v.setWidth 32 = encode .rst
  · obtain ⟨rfl, hword⟩ := hv
    rw [hostWrite_rst_of_faulted hrun hword] at h
    cases h
    exact .inr ⟨rfl, rfl, hword⟩
  · rw [hostWrite_other_of_faulted hrun hv] at h
    cases h
    exact .inl rfl

/-- A host action keeps the run state and the registers of a FAULTED unit, or resets it. -/
theorem perform_of_faulted {a : HostAction} (h : perform a s = .next t) :
    (t.run = s.run ∧ t.regs = s.regs) ∨ (t = resetUnit s ∧ ResetsFaulted a) := by
  cases a with
  | read n => cases h; exact .inl ⟨hostRead_run n s, hostRead_regs n s⟩
  | write n v =>
    rcases hostWrite_of_faulted hrun h with rfl | ⟨rfl, rfl, hv⟩
    · exact .inl ⟨rfl, rfl⟩
    · exact .inr ⟨rfl, .inr ⟨v, hv, .inl rfl⟩⟩
  | wait | memWrite | memUnback => cases h; exact .inl ⟨rfl, rfl⟩
  | windowRead offset size =>
    rw [perform_windowRead] at h
    obtain ⟨n, hn⟩ := windowAccess_next h
    cases hn
    exact .inl ⟨hostRead_run n s, hostRead_regs n s⟩
  | windowWrite offset size v =>
    rw [perform_windowWrite] at h
    obtain ⟨n, rfl, rfl, hn⟩ := windowAccess_next_whole h
    rcases hostWrite_of_faulted hrun hn with rfl | ⟨rfl, rfl, hv⟩
    · exact .inl ⟨rfl, rfl⟩
    · exact .inr ⟨rfl, .inr ⟨v, hv, .inr rfl⟩⟩
  | hardReset => cases h; exact .inr ⟨rfl, .inl rfl⟩

theorem step_of_faulted : step s = hostEvent s := step_of_not_busy (by rw [hrun]; rfl)

end

/-- Settles O52: a step of a FAULTED unit is its host's next action. -/
theorem onlyResetLeavesTheFaultedState : Obligations.OnlyResetLeavesTheFaultedState := by
  refine ⟨fun s c a rest hrun hhost ha => ?_, fun s t c hrun h => ?_⟩
  · have hperform := perform_of_resetsFaulted (s := { s with host := rest }) hrun ha
    rw [step_of_faulted hrun, hostEvent, hhost]
    exact hperform
  · rw [step_of_faulted hrun] at h
    unfold hostEvent at h
    split at h
    · cases h; exact .inl ⟨hrun, rfl⟩
    · rename_i a rest hhost
      rcases perform_of_faulted (s := { s with host := rest }) hrun h with ⟨hkept, hregs⟩ | ⟨rfl, ha⟩
      · exact .inl ⟨hkept.trans hrun, hregs⟩
      · exact .inr ⟨rfl, rfl, a, rest, hhost, ha⟩

end Sys2Proof.Machine
end

section
/-! PROOFS. O59: the invariant of the machine through every step. A completion runs its command on a unit that is IDLE
with moments of memory still kept, which the invariant forbids; so the command's part of the proof asks only for what
such a unit has (`exec_inv`). -/

namespace Sys2Proof.Machine

/-! ### The parts of the invariant -/

/-- The invariant speaks of sample memory, its moments, the registers and the run state alone. -/
theorem inv_congr {s t : State} (hs : s.Inv) (hmem : t.mem = s.mem) (hearlier : t.earlier = s.earlier)
    (hregs : t.regs = s.regs) (hrun : t.run = s.run) : t.Inv := by
  simpa only [State.Inv, runningAccepted, momentsOnlyWhileBusy, hmem, hearlier, hregs, hrun] using hs

/-- A unit that runs no command and keeps no moment of memory. -/
theorem inv_of_not_busy {s : State} (hmem : s.mem.wf = true) (hearlier : s.earlier = [])
    (hfinfo : finfoMatches s.run s.regs.finfo) (hbusy : busyFlag s.run = false) : s.Inv := by
  refine ⟨hmem, ?_, hfinfo, ?_, fun _ => hearlier⟩
  · rw [hearlier]; exact List.forall_mem_nil _
  · unfold runningAccepted
    split
    · rename_i hrun; rw [hrun] at hbusy; cases hbusy
    · trivial

/-- A unit that runs an accepted command. -/
theorem inv_of_busy {s : State} {i : Instr} {left : Option Nat} (hrun : s.run = .busy i left) (hmem : s.mem.wf = true)
    (hearlier : ∀ m ∈ s.earlier, Memory.wf m = true) (hfinfo : s.regs.finfo = 0) (hi : i ≠ .rst)
    (ha : acceptanceFault i s.regs = none) : s.Inv := by
  refine ⟨hmem, hearlier, ?_, ?_, fun hbusy => ?_⟩
  · rw [hrun]; exact hfinfo
  · rw [runningAccepted, hrun]; exact ⟨hi, ha⟩
  · rw [hrun] at hbusy; cases hbusy

theorem inv_resetUnit {s : State} (hmem : s.mem.wf = true) : (resetUnit s).Inv := inv_of_not_busy hmem rfl rfl rfl

theorem finfo_of_idle {s : State} (h : s.Inv) (hi : s.isIdle = true) : s.regs.finfo = 0 := by
  obtain ⟨done, hrun⟩ := (isIdle_iff s).1 hi
  obtain ⟨_, _, hfinfo, _, _⟩ := h
  rw [hrun] at hfinfo
  exact hfinfo

theorem earlier_of_idle {s : State} (h : s.Inv) (hi : s.isIdle = true) : s.earlier = [] := by
  obtain ⟨_, _, _, _, hmoments⟩ := h
  exact hmoments (busyFlag_of_idle hi)

/-! ### What a fault records (60_exceptions.md R261) -/

theorem base_odd_of_misaligned {r : Regs} {d : Depth} {v : View} (h : misaligned r d v = true) :
    (viewBase r v).toNat % 2 = 1 := by
  simp only [misaligned, Bool.and_eq_true, beq_iff_eq] at h
  exact h.2

theorem finfoMatches_of_acceptanceFault {i : Instr} {r : Regs} {c : Cause} {info : Word}
    (h : acceptanceFault i r = some (c, info)) : finfoMatches (.faulted c) info := by
  rcases acceptanceFault_some h with ⟨p, _, ref, _, hcheck⟩ | ⟨p, _, _, hcheck⟩
  · rcases tileCheck_some hcheck with ⟨rfl, rfl⟩ | ⟨rfl, _, ⟨rfl, hodd⟩ | ⟨_, rfl, hodd⟩⟩
    · exact ⟨by decide, by decide⟩
    · exact base_odd_of_misaligned hodd
    · exact base_odd_of_misaligned hodd
  · rcases regionCheck_some hcheck with ⟨rfl, hlow, hhigh⟩ | ⟨rfl, _, ⟨rfl, hodd⟩ | ⟨rfl, hodd⟩⟩
    · exact ⟨hlow, hhigh⟩
    · exact base_odd_of_misaligned hodd
    · exact base_odd_of_misaligned hodd

theorem finfoMatches_of_decode_error {w : Half} {e : DecodeError} (h : decode w = .error e) :
    finfoMatches (.faulted .illegalCommand) (w.setWidth 64) := by
  refine ⟨?_, e, by rw [setWidth_setWidth_half, h]⟩
  rw [BitVec.toNat_setWidth_of_le (by decide)]
  exact w.isLt

/-! ### Commands -/

section
variable {s t : State}

/-- A command on an IDLE unit with no fault recorded, moments of memory kept or not, ends in the invariant. -/
theorem exec_inv {i : Instr} (hi : s.isIdle = true) (hmem : s.mem.wf = true)
    (hearlier : ∀ m ∈ s.earlier, Memory.wf m = true) (hfinfo : s.regs.finfo = 0) (h : exec i s = .next t) :
    t.Inv := by
  have effect := exec_effect i s
  rw [h] at effect
  cases effect with
  | dropped hbusy => rw [hi] at hbusy; cases hbusy
  | completed _ _ r hr => exact inv_of_not_busy hmem rfl ((writesOnly_finfo hr).trans hfinfo) rfl
  | rejected _ c info ha => exact inv_of_not_busy hmem rfl (finfoMatches_of_acceptanceFault ha) rfl
  | memError => exact inv_of_not_busy hmem rfl trivial rfl
  | numeric _ _ _ p hp => exact inv_of_not_busy hmem rfl hp rfl
  | hung _ ha hreads => exact inv_of_busy rfl hmem hearlier hfinfo (by rintro rfl; cases hreads) ha
  | reset => exact inv_resetUnit hmem

/-- A running command completes in the invariant. -/
theorem exec_inv_of_busy {i : Instr} {left : Option Nat} (hs : s.Inv) (hrun : s.run = .busy i left)
    (h : exec i { s with run := .idle false } = .next t) : t.Inv := by
  obtain ⟨hmem, hearlier, hfinfo, _, _⟩ := hs
  rw [hrun] at hfinfo
  exact exec_inv (s := { s with run := .idle false }) rfl hmem hearlier hfinfo h

/-- A command begun on an IDLE unit: it ends at once, or its window opens with its acceptance checks passed. -/
theorem startCommand_inv {i : Instr} (hs : s.Inv) (hi : s.isIdle = true) (h : startCommand i s = .next t) : t.Inv := by
  have hfinfo := finfo_of_idle hs hi
  obtain ⟨hmem, hearlier, _, _, _⟩ := hs
  unfold startCommand at h
  split at h
  · exact exec_inv hi hmem hearlier hfinfo h
  · rename_i later _
    exact exec_inv (s := { s with latency := later }) hi hmem hearlier hfinfo h
  · rename_i later _
    split at h
    · rename_i henters
      simp only [entersBusy, Bool.and_eq_true, bne_iff_ne, Option.isNone_iff_eq_none] at henters
      obtain ⟨hrst, ha⟩ := henters
      cases h
      exact inv_of_busy rfl hmem hearlier hfinfo hrst ha
    · exact exec_inv (s := { s with latency := later }) hi hmem hearlier hfinfo h

/-! ### Host actions -/

theorem doorbell_inv {w : Half} (hs : s.Inv) (hi : s.isIdle = true) (h : doorbell w s = .next t) : t.Inv := by
  cases hw : decode w with
  | ok i => rw [doorbell_of_decode_ok hw] at h; exact startCommand_inv hs hi h
  | error e =>
    obtain ⟨hmem, _, _, _, _⟩ := hs
    rw [doorbell_of_decode_error hw] at h
    cases h
    exact inv_of_not_busy hmem rfl (finfoMatches_of_decode_error hw) rfl

/-- FINFO is read-only to the host (10_state.md R26). -/
theorem regWrite_finfo (r : Regs) (n : BitVec 5) (v : Word) : (regWrite r n v).finfo = r.finfo := by
  unfold regWrite
  split <;> rfl

/-- A register write of the host: of an IDLE unit any register but FINFO, of a FAULTED one none but by `RST`, of a BUSY
one none. -/
theorem hostWrite_inv {n : BitVec 5} {v : Word} (hs : s.Inv) (h : hostWrite n v s = .next t) : t.Inv := by
  cases hrun : s.run with
  | busy i left => rw [hostWrite_of_busy hrun] at h; cases h; exact hs
  | faulted c =>
    rcases hostWrite_of_faulted hrun h with rfl | ⟨rfl, _⟩
    · exact hs
    · obtain ⟨hmem, _, _, _, _⟩ := hs
      exact inv_resetUnit hmem
  | idle done =>
    have hi : s.isIdle = true := (isIdle_iff s).2 ⟨done, hrun⟩
    by_cases hn : n = 0
    · subst hn
      rw [hostWrite_cmd_of_idle hi] at h
      exact doorbell_inv hs hi h
    · rw [hostWrite_of_idle hi hn] at h
      cases h
      have hearlier := earlier_of_idle hs hi
      obtain ⟨hmem, _, hfinfo, _, _⟩ := hs
      rw [← regWrite_finfo s.regs n v] at hfinfo
      exact inv_of_not_busy hmem hearlier hfinfo (busyFlag_of_idle hi)

theorem hostRead_inv (hs : s.Inv) (n : BitVec 5) : (hostRead n s).Inv :=
  inv_congr hs (hostRead_mem n s) (hostRead_earlier n s) (hostRead_regs n s) (hostRead_run n s)

/-- A change of memory keeps the memory it replaces where a command runs, and that memory was canonical too. -/
theorem changeMemory_inv {m : Memory} (hs : s.Inv) (hm : m.wf = true) : (changeMemory m s).Inv := by
  obtain ⟨hmem, hearlier, hfinfo, haccepted, hmoments⟩ := hs
  refine ⟨hm, ?_, hfinfo, haccepted, fun hbusy => ?_⟩
  · rw [changeMemory_earlier]
    split
    · exact List.forall_mem_cons.2 ⟨hmem, hearlier⟩
    · exact hearlier
  · rw [changeMemory_run] at hbusy
    simp [hbusy, hmoments hbusy]

theorem perform_inv {a : HostAction} (hs : s.Inv) (h : perform a s = .next t) : t.Inv := by
  have ⟨hmem, _, _, _, _⟩ := hs
  cases a with
  | read n => cases h; exact hostRead_inv hs n
  | write n v => exact hostWrite_inv hs h
  | wait => cases h; exact hs
  | windowRead offset size =>
    rw [perform_windowRead] at h
    obtain ⟨n, hn⟩ := windowAccess_next h
    cases hn
    exact hostRead_inv hs n
  | windowWrite offset size v =>
    rw [perform_windowWrite] at h
    obtain ⟨n, hn⟩ := windowAccess_next h
    exact hostWrite_inv hs hn
  | hardReset => cases h; exact inv_resetUnit hmem
  | memWrite w b => cases h; exact changeMemory_inv hs (memory_wf_write s.mem hmem w b)
  | memUnback w => cases h; exact changeMemory_inv hs (memory_wf_unback s.mem hmem w.toNat)

theorem hostEvent_inv (hs : s.Inv) (h : hostEvent s = .next t) : t.Inv := by
  unfold hostEvent at h
  split at h
  · cases h; exact hs
  · rename_i a rest _
    exact perform_inv (s := { s with host := rest }) hs h

/-! ### Steps -/

/-- The countdown of a BUSY window keeps the invariant: the command and its operands stay. -/
theorem inv_of_window {i : Instr} {left left' : Option Nat} (hs : s.Inv) (hrun : s.run = .busy i left) :
    State.Inv { s with run := .busy i left' } := by
  obtain ⟨hmem, hearlier, hfinfo, haccepted, _⟩ := hs
  rw [hrun] at hfinfo
  rw [runningAccepted, hrun] at haccepted
  exact inv_of_busy rfl hmem hearlier hfinfo haccepted.1 haccepted.2

end

/-- Settles O59, by the run state: a window that has passed completes its command, and else the host acts. -/
theorem stepKeepsTheInvariant : Obligations.StepKeepsTheInvariant := by
  intro s t hs h
  cases hrun : s.run with
  | idle done => exact hostEvent_inv hs (by rwa [← step_of_not_busy (by rw [hrun]; rfl)])
  | faulted c => exact hostEvent_inv hs (by rwa [← step_of_faulted hrun])
  | busy i left =>
    match left with
    | none => exact hostEvent_inv hs (by rwa [← step_of_hung hrun])
    | some 0 => exact exec_inv_of_busy hs hrun (by rwa [← step_of_window_passed hrun])
    | some (k + 1) => exact hostEvent_inv (inv_of_window hs hrun) (by rwa [← step_of_window hrun])

end Sys2Proof.Machine
end

section
/-! PROOFS. O43, O47: the two faults that a memory-reading command meets after its acceptance: an unreadable sample
(60_exceptions.md R266) and a product without an integer value (R267). -/

namespace Sys2Proof.Machine

/-! ### Products without a value (44_bias_and_entry.md R230) -/

theorem representable_eq_false_iff (p : Word) :
    representable p = false ↔ isFinite p = false ∨ rha p < -(2 ^ 63 : Int) ∨ 2 ^ 63 - 1 < rha p := by
  rw [← Bool.not_eq_true, representable_iff, not_and_or, not_and_or, Bool.not_eq_true, not_le, not_le]

theorem finishDistortion_of_not_representable {D : Word} {s : State}
    (h : representable (biasedProduct D s.regs.biasBase) = false) :
    finishDistortion D s = raise .numeric (biasedProduct D s.regs.biasBase) s := if_neg (by simp [h])

theorem exec_fdist_of_not_representable {i : Instr} {d : Depth}
    (hp : (i, d) ∈ [(Instr.fdistS, Depth.standard), (.fdistH, .high)]) (s : State) (p : Word) (hi : s.isIdle = true)
    (ha : regionAccepted d s.regs) (h : s.regionReady d)
    (hproduct : p = fmul64 (cvtU64 (regionDistortion s d)) s.regs.biasBase)
    (hvalue : isFinite p = false ∨ rha p < -(2 ^ 63 : Int) ∨ 2 ^ 63 - 1 < rha p) : endsInFault i s .numeric p := by
  subst hproduct
  rw [endsInFault, exec_fdist_of_ready hp hi ha h,
    finishDistortion_of_not_representable ((representable_eq_false_iff _).2 hvalue), raise, biasedProduct]

/-- Settles O43: the two depths of `exec_fdist_of_not_representable`. -/
theorem fdistFaultsWhereTheProductHasNoValue : Obligations.FdistFaultsWhereTheProductHasNoValue :=
  ⟨exec_fdist_of_not_representable (by decide), exec_fdist_of_not_representable (by decide)⟩

/-! ### The samples of a command (20_memory.md R66) -/

theorem rectangle_eq_map_product (v : View) (h w : Nat) :
    rectangle v h w = (List.range h ×ˢ List.range w).map fun p => ⟨v, p.1, p.2⟩ := by
  simp only [rectangle, SProd.sprod, List.product, List.map_flatMap, List.map_map]
  rfl

theorem rectangle_nodup (v : View) (h w : Nat) : (rectangle v h w).Nodup := by
  rw [rectangle_eq_map_product]
  refine (List.nodup_range.product List.nodup_range).map fun p q hpq => ?_
  injection hpq with _ hrow hcol
  exact Prod.ext hrow hcol

/-- The samples of one rectangle in each view are each read once: the views tell them apart. -/
theorem rectangles_nodup (h w : Nat) : (rectangle .a h w ++ rectangle .b h w).Nodup := by
  refine (rectangle_nodup .a h w).append (rectangle_nodup .b h w) fun x hxa hxb => ?_
  obtain ⟨ha, _⟩ := mem_rectangle.1 hxa
  obtain ⟨hb, _⟩ := mem_rectangle.1 hxb
  rw [ha] at hb
  cases hb

theorem tileReads_nodup (n : Nat) (ref : RefSel) : (tileReads n ref).Nodup := by
  cases ref with
  | b => exact rectangles_nodup n n
  | zero => exact rectangle_nodup .a n n

theorem regionReads_nodup (r : Regs) : (regionReads r).Nodup := by
  unfold regionReads
  split
  · exact List.nodup_nil
  · exact rectangles_nodup _ _

/-! ### Unreadable samples (R61, R266) -/

/-- A byte of the sample is not backed. -/
def SampleUnbacked (s : State) (d : Depth) (x : SampleRef) : Prop :=
  ∃ k < depthBytes d, s.mem.read (addressOf s.regs d x.view x.row x.col + k) = none

/-- Away from devices, a read of one or two bytes answers `ERR` where a byte is missing. -/
theorem memRead_eq_err_iff {m : Memory} {devices : List (Nat × Nat)} {a bytes : Nat} (hb : bytes = 1 ∨ bytes = 2)
    (hdev : ∀ k < bytes, inDevice devices (a + k) = false) :
    memRead m devices a bytes = .err ↔ ∃ k < bytes, m.read (a + k) = none := by
  have hany : (List.range bytes).any (fun k => inDevice devices (a + k)) = false := by simpa using hdev
  rcases hb with rfl | rfl
  · simp only [memRead, hany, Bool.false_eq_true, if_false, if_true, Nat.lt_one_iff, exists_eq_left, Nat.add_zero]
    cases m.read a <;> simp
  · simp only [memRead, hany, Bool.false_eq_true, if_false, Nat.exists_lt_succ_left, Nat.not_lt_zero, false_and,
      exists_false, or_false, Nat.add_zero, zero_add, show ¬(2 = 1) by decide]
    cases m.read a <;> cases m.read (a + 1) <;> simp

section
variable {s : State} {d : Depth} {reads : List SampleRef} (hc : s.earlier = [])
  (hdev : ∀ x ∈ reads, ∀ k < depthBytes d, inDevice s.devices (addressOf s.regs d x.view x.row x.col + k) = false)
include hc hdev

theorem sampleAnswer_eq_err_iff {x : SampleRef} (hx : x ∈ reads) :
    sampleAnswer s d x = .err ↔ SampleUnbacked s d x := by
  have hb : depthBytes d = 1 ∨ depthBytes d = 2 := by cases d <;> decide
  rw [sampleAnswer, momentSeen_of_contract hc, sampleBytes_eq_depthBytes, sampleAddr_eq_addressOf,
    memRead_eq_err_iff hb (hdev x hx), SampleUnbacked]

theorem mem_unreadable {a : Nat} : a ∈ unreadable s d reads ↔
    ∃ x ∈ reads, SampleUnbacked s d x ∧ a = addressOf s.regs d x.view x.row x.col := by
  simp only [unreadable, List.mem_map, List.mem_filter, beq_iff_eq, sampleAddr_eq_addressOf, and_assoc,
    eq_comm (a := a)]
  exact exists_congr fun x => and_congr_right fun hx => and_congr_left fun _ => sampleAnswer_eq_err_iff hc hdev hx

/-- An accepted command with an unreadable sample raises MemError with the address of such a sample: the port answers,
no device refuses the reads, and they do not all succeed. -/
theorem exec_of_sampleUnbacked {i : Instr} (h : ReadsSamples i d reads s.regs) (hi : s.isIdle = true)
    (ha : acceptanceFault i s.regs = none) (hm : s.memAnswers = true) (hbad : ∃ x ∈ reads, SampleUnbacked s d x) :
    ∃ x ∈ reads, SampleUnbacked s d x ∧ exec i s =
      raise .memError (BitVec.ofNat 64 (addressOf s.regs d x.view x.row x.col)) { s with fresh := s.fresh + 1 } := by
  obtain ⟨t, ht⟩ := exec_eq_readingCommand h
  rw [readingCommand, whenIdle_of_idle hi, ha] at ht
  rcases withSamples_cases i d reads s (.next t) with ⟨hm', _⟩ | ⟨a, e⟩ | ⟨a, hmem, e⟩ | ⟨_, hnone, _⟩
  · rw [hm] at hm'; cases hm'
  · obtain ⟨x, hx, ⟨k, hk, hdevice⟩, _⟩ := exec_refused h (ht.trans e)
    rw [hdev x hx k hk] at hdevice
    cases hdevice
  · obtain ⟨x, hx, hunbacked, rfl⟩ := (mem_unreadable hc hdev).1 hmem
    exact ⟨x, hx, hunbacked, ht.trans e⟩
  · obtain ⟨x, hx, hunbacked⟩ := hbad
    exact absurd hnone (List.ne_nil_of_mem ((mem_unreadable hc hdev).2 ⟨x, hx, hunbacked, rfl⟩))

end

/-! ### Readable samples -/

theorem regionEnd_ne_memError {i : Instr} {D : Word} {s t : State} (h : regionEnd i D s = .next t) :
    t.run ≠ .faulted .memError := by
  have finish (h : finishDistortion D s = .next t) : t.run ≠ .faulted .memError := by
    rcases finishDistortion_cases D s with ⟨_, e⟩ | ⟨_, e⟩ <;> rw [e] at h
    · cases h; nofun
    · cases h; nofun
  unfold regionEnd at h
  split at h
  · exact finish h
  · exact finish h
  · cases h; nofun

/-- A command whose samples are ready does not end in MemError, whatever the SAD collaborator is. -/
theorem exec_ne_memError_of_ready {i : Instr} {d : Depth} {reads : List SampleRef} {s t : State}
    (h : ReadsSamples i d reads s.regs) (hi : s.isIdle = true) (ha : acceptanceFault i s.regs = none)
    (hready : s.samplesReady d reads) (ht : exec i s = .next t) : t.run ≠ .faulted .memError := by
  rcases h with ⟨p, hp, ref, rfl, rfl, rfl⟩ | ⟨hp, rfl⟩
  · rw [exec_tileCommand hp, readingCommand_of_ready hi ha hready] at ht
    cases ht
    nofun
  · rw [exec_regionCommand hp, readingCommand_of_ready hi ha hready] at ht
    rcases needsSad_cases i s (regionEnd i (psyd s d) s) with ⟨_, _, e⟩ | e <;> rw [e] at ht
    · cases ht; nofun
    · exact regionEnd_ne_memError ht

/-- Settles O47. -/
theorem memErrorNamesAnUnreadableSample : Obligations.MemErrorNamesAnUnreadableSample := by
  refine ⟨fun n ref => ⟨tileReads_nodup n ref, fun x => mem_tileReads⟩,
    fun r => ⟨regionReads_nodup r, fun x => mem_regionReads⟩, ?_⟩
  intro i d reads s h hi ha hm hc hdev
  refine ⟨fun hbad => ?_, fun hbacked t => exec_ne_memError_of_ready h hi ha ⟨hm, hc, fun x hx k hk => ?_⟩⟩
  · obtain ⟨x, hx, hunbacked, e⟩ := exec_of_sampleUnbacked hc hdev h hi ha hm hbad
    exact ⟨x, hx, hunbacked, by rw [e, raise, hc]⟩
  · exact ⟨hdev x hx k hk, Option.isSome_iff_ne_none.2 (hbacked x hx k hk)⟩

end Sys2Proof.Machine
end

section
/-! PROOFS. O13, O53, O58, O60: reset, the unit that waits for a silent port, and the BUSY window
(70_reset_and_hazards.md R290, R291, R299, R303). -/

namespace Sys2Proof.Machine

/-! ### Reset (R290, R291) -/

/-- Reset of the unit is over its registers and run state: the world around it stays. -/
theorem sameSurroundings_resetUnit (s : State) : sameSurroundings s (resetUnit s) :=
  ⟨rfl, rfl, rfl, rfl, rfl, rfl, rfl⟩

/-- Settles O13: hard reset is `resetUnit` in every run state. -/
theorem resetLeavesEveryRegisterZero : Obligations.ResetLeavesEveryRegisterZero :=
  ⟨regRead_of_regs_zero rfl (statusWord_idle false), rfl, statusWord_idle false, fun s =>
    ⟨resetUnit s, rfl, rfl, regRead_of_regs_zero rfl (statusWord_idle false), sameSurroundings_resetUnit s⟩⟩

/-- Settles O60: no memory is listed, no command runs and no fault is recorded. -/
theorem resetMeetsTheInvariant : Obligations.ResetMeetsTheInvariant := inv_of_not_busy memory_wf_nil rfl rfl rfl

/-! ### Ports that never answer (R303) -/

theorem tileReads_ne_nil {n : Nat} (hn : 0 < n) (ref : RefSel) : tileReads n ref ≠ [] :=
  List.ne_nil_of_mem (mem_tileReads.2 ⟨.inl rfl, hn, hn⟩ : ⟨.a, 0, 0⟩ ∈ tileReads n ref)

theorem tileCommand_size_pos {p : (RefSel → Instr) × Nat × Depth} (hp : p ∈ tileCommands) : 0 < p.2.1 := by
  simp only [tileCommands, List.mem_cons, List.not_mem_nil, or_false] at hp
  rcases hp with rfl | rfl | rfl | rfl <;> decide

theorem regionReads_ne_nil {r : Regs} (hw : r.width ≠ 0) (hh : r.height ≠ 0) : regionReads r ≠ [] :=
  List.ne_nil_of_mem (mem_regionReads.2 ⟨BitVec.toNat_pos_of_ne_zero hh, BitVec.toNat_pos_of_ne_zero hw⟩ :
    ⟨.a, 0, 0⟩ ∈ regionReads r)

/-- An accepted region that is not empty has a tile: that of its first sample. -/
theorem tilePositions_ne_nil {d : Depth} {r : Regs} (ha : regionAccepted d r) (hw : r.width ≠ 0)
    (hh : r.height ≠ 0) : tilePositions r ≠ [] := by
  obtain ⟨hwidth, hheight, _⟩ := ha
  obtain ⟨p, ⟨hp, _⟩, _⟩ :=
    existsUnique_tile hwidth hheight (BitVec.toNat_pos_of_ne_zero hh) (BitVec.toNat_pos_of_ne_zero hw)
  exact List.ne_nil_of_mem hp

section
variable {i : Instr} {s : State} (hi : s.isIdle = true) (ha : acceptanceFault i s.regs = none)
include hi ha

/-- An accepted command with a sample to read waits for ever for a silent memory port. -/
theorem exec_of_silent_memory {d : Depth} {reads : List SampleRef} (h : ReadsSamples i d reads s.regs)
    (hreads : reads ≠ []) (hm : s.memAnswers = false) : exec i s = hang i s := by
  obtain ⟨t, ht⟩ := exec_eq_readingCommand h
  rw [ht, readingCommand, whenIdle_of_idle hi, ha]
  simp [withSamples, hreads, hm]

/-- An accepted region command whose samples are ready waits for ever for a silent SAD collaborator. -/
theorem exec_of_silent_sad {d : Depth} (hp : (i, d) ∈ regionCommands) (hw : s.regs.width ≠ 0)
    (hh : s.regs.height ≠ 0) (hready : s.samplesReady d (regionReads s.regs)) (hsad : s.sadPort = .silent) :
    exec i s = hang i s := by
  have haccepted := (acceptanceFault_regionCommand_eq_none_iff hp s.regs).1 ha
  rw [exec_regionCommand hp, readingCommand_of_ready hi ha hready, needsSad,
    if_pos ⟨hsad, tilePositions_ne_nil haccepted hw hh⟩]

end

/-- A host action keeps the run state and the registers of a BUSY unit, or is hard reset. -/
theorem perform_of_busy {s t : State} {i : Instr} {left : Option Nat} (hrun : s.run = .busy i left) {a : HostAction}
    (h : perform a s = .next t) : (t.run = s.run ∧ t.regs = s.regs) ∨ (t = resetUnit s ∧ a = .hardReset) := by
  have dropped {n : BitVec 5} {v : Word} (h : hostWrite n v s = .next t) : t.run = s.run ∧ t.regs = s.regs := by
    rw [hostWrite_of_busy hrun] at h
    cases h
    exact ⟨rfl, rfl⟩
  cases a with
  | read n => cases h; exact .inl ⟨hostRead_run n s, hostRead_regs n s⟩
  | write n v => exact .inl (dropped h)
  | wait | memWrite | memUnback => cases h; exact .inl ⟨rfl, rfl⟩
  | windowRead offset size =>
    rw [perform_windowRead] at h
    obtain ⟨n, hn⟩ := windowAccess_next h
    cases hn
    exact .inl ⟨hostRead_run n s, hostRead_regs n s⟩
  | windowWrite offset size v =>
    rw [perform_windowWrite] at h
    obtain ⟨n, hn⟩ := windowAccess_next h
    exact .inl (dropped hn)
  | hardReset => cases h; exact .inr ⟨rfl, rfl⟩

/-- A step of a unit that waits for a silent port is its host's next action. -/
theorem step_next_of_hung {i : Instr} {s t : State} (hrun : s.run = .busy i none) (h : step s = .next t) :
    (t.run = .busy i none ∧ t.regs = s.regs) ∨
      (t.run = .idle false ∧ t.regs = Regs.zero ∧ ∃ rest, s.host = .hardReset :: rest) := by
  rw [step_of_hung hrun] at h
  unfold hostEvent at h
  split at h
  · cases h; exact .inl ⟨hrun, rfl⟩
  · rename_i a rest hhost
    rcases perform_of_busy (s := { s with host := rest }) hrun h with ⟨hkept, hregs⟩ | ⟨rfl, rfl⟩
    · exact .inl ⟨hkept.trans hrun, hregs⟩
    · exact .inr ⟨rfl, rfl, rest, hhost⟩

/-- Settles O53: a tile or an inhabited region has a sample to read, and such a region a tile to ask the SAD
collaborator about. -/
theorem silentPortKeepsTheUnitBusy : Obligations.SilentPortKeepsTheUnitBusy := by
  refine ⟨fun p hp ref s hi ha hm => ?_, fun p hp s hi ha hw hh hsilent => ?_, fun i s t => step_next_of_hung⟩
  · exact exec_of_silent_memory hi ha (.inl ⟨p, hp, ref, rfl, rfl, rfl⟩)
      (tileReads_ne_nil (tileCommand_size_pos hp) ref) hm
  · rcases hsilent with hm | ⟨hready, hsad⟩
    · exact exec_of_silent_memory hi ha (.inr ⟨hp, rfl⟩) (regionReads_ne_nil hw hh) hm
    · exact exec_of_silent_sad hi ha hp hw hh hready hsad

/-! ### DONE is nothing to a command (10_state.md R27) -/

/-- A command tests the run state for IDLE and overwrites it; on an IDLE unit it does not look at DONE. -/
theorem exec_forgets_done (i : Instr) {s : State} (hi : s.isIdle = true) (done : Bool) :
    exec i { s with run := .idle done } = exec i s := by
  obtain ⟨old, hrun⟩ := (isIdle_iff s).1 hi
  obtain ⟨regs, run, mem, earlier, memAnswers, devices, sadPort, latency, host, readData, fresh⟩ := s
  cases hrun
  cases i <;> rfl

/-! ### The BUSY window (R298, R299) -/

/-- A run of any machine is its first step and the run of the others. -/
theorem run_succ_of_step {M : Host.Core} {k : Nat} {s t : M.State} (h : M.step s = .next t) :
    M.run (k + 1) s = M.run k t := by
  simp only [Host.Core.run, h]

theorem run_one {M : Host.Core} (s : M.State) : M.run 1 s = M.step s := by
  simp only [Host.Core.run]
  cases M.step s <;> rfl

/-- An event of a BUSY window whose host has only register writes to offer: the next of them is lost. -/
theorem step_of_lost_write {s : State} {i : Instr} {k : Nat} (hrun : s.run = .busy i (some (k + 1)))
    {lost : List (BitVec 5 × Word)} (hhost : s.host = lost.map fun p => .write p.1 p.2) :
    step s = .next { s with run := .busy i (some k), host := lost.tail.map fun p => .write p.1 p.2 } := by
  rw [step_of_window hrun]
  cases lost with
  | nil => simp only [hostEvent, hhost, List.map_nil, List.tail_nil]
  | cons p rest =>
    simp only [hostEvent, hhost, List.map_cons, List.tail_cons, perform]
    exact hostWrite_of_busy (s := { s with run := _, host := _ }) rfl p.1 p.2

/-- A BUSY window with lost writes in it, and the completion at its end. -/
theorem run_window {i : Instr} (k : Nat) {s : State} (hrun : s.run = .busy i (some k))
    {lost : List (BitVec 5 × Word)} (hlost : lost.length ≤ k) (hhost : s.host = lost.map fun p => .write p.1 p.2) :
    core.run (k + 1) s = exec i { s with run := .idle false, host := [] } := by
  induction k generalizing s lost with
  | zero =>
    rw [List.length_eq_zero_iff.1 (Nat.le_zero.1 hlost), List.map_nil] at hhost
    rw [← hhost]
    exact (run_one (M := core) s).trans (step_of_window_passed hrun)
  | succ k ih =>
    have hrest : lost.tail.length ≤ k := by rw [List.length_tail]; omega
    exact (run_succ_of_step (M := core) (step_of_lost_write hrun hhost)).trans (ih rfl hrest rfl)

/-- A command that enters BUSY opens its window where the platform lists one. -/
theorem startCommand_of_entersBusy {i : Instr} {s : State} (h : entersBusy i s = true) {k : Nat} {later : List Nat}
    (hl : s.latency = (k + 1) :: later) :
    startCommand i s = .next { s with latency := later, run := .busy i (some k), fresh := s.fresh + 1 } := by
  simp only [startCommand, hl, h, if_true]

/-- Settles O58: the CMD write opens the window, `run_window` passes it, and the completion differs from the atomic
command in the DONE that it finds alone. -/
theorem busyWindowRefinesTheAtomicCommand : Obligations.BusyWindowRefinesTheAtomicCommand := by
  intro s v i k later lost hi hdecode henters hlatency hk hlost hhost
  obtain ⟨k, rfl⟩ := Nat.exists_eq_add_one.2 hk
  have opens := (step_cmd_eq_startCommand hi hhost hdecode).trans
    (startCommand_of_entersBusy (s := { s with host := lost.map fun p => .write p.1 p.2 }) henters hlatency)
  have passes := run_window k (s := { s with
    host := lost.map fun p => .write p.1 p.2, latency := later, run := .busy i (some k), fresh := s.fresh + 1 })
    rfl (Nat.le_of_lt_succ hlost) rfl
  have completes := exec_forgets_done i (s := { s with host := [], latency := later, fresh := s.fresh + 1 }) hi false
  exact (run_succ_of_step (M := core) opens).trans (passes.trans completes)

end Sys2Proof.Machine
end
